-- ==== Sys2Proof/Word.lean ====
section
/-! DEFINITION. The word types of the framer block (spec/00_scope.md rules R9 and R10). -/

namespace Sys2Proof

/-- `u8`: an opcode, a parameter byte, a brightness, a fault code (R9, R10). -/
abbrev Byte := BitVec 8

/-- `u16`: a duty value, the PWM wrap, a display dimension (R8, R9). -/
abbrev Half := BitVec 16

/-- `u32`: a request word, a response word, a framebuffer address, a byte count (R8, R71, R76).
An `s32` pin number is held in the same 32 bits, in two's complement (R10, R200). -/
abbrev Word := BitVec 32

end Sys2Proof
end

