-- ==== Sys2Proof/Config.lean ====
section
/-! DEFINITION. The parameters of spec/00_scope.md rule R8, and the values the spec leaves free.

The parameters are the arguments of reset (spec/70_reset_and_hazards.md R250); the state keeps them
in its configuration registers, so a statement about every state is a statement about every choice
of them. The free values are opaque constants: nothing can be proved of what they are. -/

namespace Sys2Proof

/-- The two driven levels of a line (spec/00_scope.md R12). -/
inductive Level where
  | lo
  | hi
deriving DecidableEq, Repr, Inhabited

/-- `P_BIT_ORDER` (R8, spec/20_memory.md R55). No rule of the model reads it. -/
inductive BitOrder where
  | msbFirst
  | lsbFirst
deriving DecidableEq, Repr

/-- `P_SPI_MODE` (R8, spec/20_memory.md R55). No rule of the model reads it. -/
inductive SpiMode where
  | mode0
  | mode1
  | mode2
  | mode3
deriving DecidableEq, Repr

/-- The slots of the opcode map `OPC`, in the order of spec/30_encoding.md R85. -/
inductive Slot where
  | swreset | slpout | frmctr1 | frmctr2 | frmctr3 | invctr
  | pwrctlA | pwrctlB | pwrctlC | pwrctlD | vmctr1 | invon
  | madctl | colmod | caset | raset | gmctrp1 | gmctrn1
  | noron | dispon | ramwr
deriving DecidableEq, Repr

/-- `OPC`: the byte of every panel opcode the block emits on its own (R8, R84). -/
structure Opc where
  swreset : Byte
  slpout : Byte
  frmctr1 : Byte
  frmctr2 : Byte
  frmctr3 : Byte
  invctr : Byte
  pwrctlA : Byte
  pwrctlB : Byte
  pwrctlC : Byte
  pwrctlD : Byte
  vmctr1 : Byte
  invon : Byte
  madctl : Byte
  colmod : Byte
  caset : Byte
  raset : Byte
  gmctrp1 : Byte
  gmctrn1 : Byte
  noron : Byte
  dispon : Byte
  ramwr : Byte
deriving DecidableEq, Repr

/-- `INIT_PARAMS`: the literal parameter bytes of the fixed init steps (R8, spec/41_init_sequencer.md R123). -/
structure InitParams where
  frmctr1 : List Byte
  frmctr2 : List Byte
  frmctr3 : List Byte
  invctr : List Byte
  pwrctlA : List Byte
  pwrctlB : List Byte
  pwrctlC : List Byte
  pwrctlD : List Byte
  vmctr1 : List Byte
  madctl : List Byte
  colmod : List Byte
  gmctrp1 : List Byte
  gmctrn1 : List Byte
deriving DecidableEq, Repr

/-- The parameters of R8. A pin number is an `s32` in two's complement, and −1 stands for an absent
optional pin. `P_ADDR_BITS` is the constant 32, which is the width of `fbBase`. -/
structure Params where
  busId : Word
  clockHz : Word
  pinCs : Word
  pinDc : Word
  pinSck : Word
  pinMosi : Word
  pinMiso : Word
  pinBl : Word
  pinVsync : Word
  numPins : Word
  width : Half
  height : Half
  ctrlW : Half
  ctrlH : Half
  fbBase : Word
  fbLen : Word
  pwmWrap : Half
  bitOrder : BitOrder
  spiMode : SpiMode
  timeoutMs : Option Word
  opc : Opc
  initParams : InitParams
deriving DecidableEq, Repr

/-! ## Free values (`draw()` of R11, and the unspecified latch values of spec/10_state.md R39)

Each is applied to the state's counter of draws, so that two draws need not agree. -/

/-- The level the DC pin gets from INIT's setup (R32, R122). Log entry 5. -/
opaque Config.freeLevel : Nat → Level

/-- Which of the old and the new value a raced framebuffer byte reads as (R62). Log entry 13. -/
opaque Config.freeChoice : Nat → Bool

/-- What `st.op_r` holds once a request has completed (R39). Log entry 4. -/
opaque Config.freeOpR : Nat → Byte

/-- What `st.data_r` holds once a request has completed (R39). Log entry 4. -/
opaque Config.freeDataR : Nat → List Byte

/-- What `st.idx` holds once a request has completed (R39). Log entry 4. -/
opaque Config.freeIdx : Nat → Word

/-- What `st.seq_pc` holds outside INIT (R30, R39). Log entry 4. -/
opaque Config.freeSeqPc : Nat → Byte

end Sys2Proof
end

