-- ==== Sys2Proof/Syntax.lean ====
section
/-! DEFINITION. The instructions: one constructor per row of spec/opcode_table.json.

Two formats exist (spec/30_encoding.md): REQ32, the host's requests, and BUSCMD8, the panel commands
the block itself emits (the entries of its init ROM, and the write-memory command of UPDATE). -/

namespace Sys2Proof

/-- The instructions of spec/opcode_table.json, in the table's order. -/
inductive Instr where
  /-- INIT, R120. -/
  | init (auto : Bool)
  /-- COMMAND, R104: `data = none` is `has_data = 0`, `some d` is `has_data = 1` with `L = d.length`. -/
  | command (opcode : Byte) (data : Option (List Byte))
  /-- UPDATE, R160. -/
  | update (dontBlock : Bool)
  /-- SET_BACKLIGHT, R180. -/
  | setBacklight (brightness : Byte)
  /-- The accessors, R201 to R208. -/
  | getBus | getCs | getDc | getSck | getMosi | getMiso | getBl | getVsync
  /-- The reserved operations, R77: `x` is `W[27:0]`, any value. -/
  | reservedOp0 (x : BitVec 28)
  | reservedOp5 (x : BitVec 28)
  | reservedOp6 (x : BitVec 28)
  | reservedOp7 (x : BitVec 28)
  /-- The panel commands of the init ROM, R130 to R149. -/
  | swreset | slpout | frmctr1 | frmctr2 | frmctr3 | invctr
  | pwrctlA | pwrctlB | pwrctlC | pwrctlD | vmctr1 | invon
  | madctl | colmod | caset | raset | gmctrp1 | gmctrn1
  | noron | dispon
  /-- The write-memory command of UPDATE, R160. -/
  | ramwr
deriving DecidableEq, Repr

/-- The instruction that emits a slot's panel command. -/
def Instr.ofSlot : Slot → Instr
  | .swreset => .swreset
  | .slpout => .slpout
  | .frmctr1 => .frmctr1
  | .frmctr2 => .frmctr2
  | .frmctr3 => .frmctr3
  | .invctr => .invctr
  | .pwrctlA => .pwrctlA
  | .pwrctlB => .pwrctlB
  | .pwrctlC => .pwrctlC
  | .pwrctlD => .pwrctlD
  | .vmctr1 => .vmctr1
  | .invon => .invon
  | .madctl => .madctl
  | .colmod => .colmod
  | .caset => .caset
  | .raset => .raset
  | .gmctrp1 => .gmctrp1
  | .gmctrn1 => .gmctrn1
  | .noron => .noron
  | .dispon => .dispon
  | .ramwr => .ramwr

end Sys2Proof
end

