-- ==== Sys2Proof/WellFormed.lean ====
section
/-! DEFINITION. Which instructions an encoding exists for, and which parameters the spec allows. -/

namespace Sys2Proof

/-- COMMAND's length word is a `u32` (spec/30_encoding.md R73, spec/92_eei_decisions.md D34), so its
data bytes number at most `2^32 − 1`. Every other operand fills its field exactly. -/
abbrev Instr.WellFormed : Instr → Prop
  | .command _ (some d) => d.length < 2 ^ 32
  | _ => True

/-- The counts spec/41_init_sequencer.md R123 fixes for `INIT_PARAMS`. -/
abbrev InitParams.Legal (q : InitParams) : Prop :=
  (q.frmctr1.length = 3 ∨ q.frmctr1.length = 6) ∧
  (q.frmctr2.length = 3 ∨ q.frmctr2.length = 6) ∧
  (q.frmctr3.length = 3 ∨ q.frmctr3.length = 6) ∧
  (q.frmctr1.length = 3 ∨ q.frmctr2.length = 3 ∨ q.frmctr3.length = 3) ∧
  (q.frmctr1.length = 6 ∨ q.frmctr2.length = 6 ∨ q.frmctr3.length = 6) ∧
  q.invctr.length = 1 ∧
  (q.pwrctlA.length = 2 ∨ q.pwrctlA.length = 3) ∧
  (q.pwrctlB.length = 2 ∨ q.pwrctlB.length = 3) ∧
  (q.pwrctlC.length = 2 ∨ q.pwrctlC.length = 3) ∧
  (q.pwrctlD.length = 2 ∨ q.pwrctlD.length = 3) ∧
  q.vmctr1.length = 1 ∧ q.madctl.length = 1 ∧ q.colmod.length = 1 ∧
  q.gmctrp1.length = 16 ∧ q.gmctrn1.length = 16

/-- What R8 and R123 require of the parameters beyond what reset checks: a positive clock rate, and
parameter sets of the stated sizes. No rule of the machine reads this; it is a premise. -/
abbrev Params.Legal (p : Params) : Prop := 0 < p.clockHz.toNat ∧ p.initParams.Legal

end Sys2Proof
end

