-- ==== Sys2Proof/Decode.lean ====
section
/-! DEFINITION. The decoder and the encoder of REQ32 and BUSCMD8 (spec/30_encoding.md, spec/opcode_table.json).

REQ32 is decoded from the words the host offers on the request port. They are not in memory (R56),
so no byte order applies to them. BUSCMD8 is decoded from one byte, by the reference values the
opcode table gives its rows; the machine never does so (R83): it fetches its panel commands from the
init ROM by step number. -/

namespace Sys2Proof

/-- An instruction's bits: request words in the order the port hands them over, or one panel opcode byte. -/
inductive Code where
  | req (ws : List Word)
  | panel (b : Byte)
deriving DecidableEq, Repr

/-- Why the decoder refuses a word. The first five are the illegal words of R77 that no row of the
opcode table names; the last is a byte that is no BUSCMD8 row. -/
inductive DecodeError where
  | initReservedBits
  | commandReservedBits
  | updateReservedBits
  | backlightReservedBits
  | accessorReservedBits
  | unlistedPanelByte
deriving DecidableEq, Repr

/-- What the decoder reads: an instruction and how many words it takes, a refusal (one word is taken
and no trailing word, R77), or too few words for the request they begin. -/
inductive Decoded where
  | instr (i : Instr) (n : Nat)
  | illegal (e : DecodeError)
  | incomplete
deriving DecidableEq, Repr

/-! ## Fields and packing -/

/-- `OP = W[31:28]` (R71). -/
def opField (w : Word) : BitVec 4 := w.extractLsb' 28 4

/-- `W[7:0]`: COMMAND's opcode and SET_BACKLIGHT's brightness (R73, R75). -/
def lowByte (w : Word) : Byte := w.extractLsb' 0 8

/-- `W[27:0]`. -/
def operandField (w : Word) : BitVec 28 := w.extractLsb' 0 28

/-- Whether any of the bits `W[27:lo]` is 1, for the reserved bits of R71. -/
def reservedSet (lo : Nat) (w : Word) : Bool := w.extractLsb' lo (28 - lo) != 0

/-- Byte `k` of a data word, bits `[8k+7 : 8k]` (R73). -/
def wordByte (w : Word) (k : Nat) : Byte := w.extractLsb' (8 * k) 8

/-- The bytes of data words, in order, padding included (R73). -/
def unpackWords : List Word → List Byte
  | [] => []
  | w :: ws => wordByte w 0 :: wordByte w 1 :: wordByte w 2 :: wordByte w 3 :: unpackWords ws

/-- A data word from its four bytes, byte 0 in the low bits. -/
def packWord (b0 b1 b2 b3 : Byte) : Word := b3 ++ b2 ++ b1 ++ b0

/-- Data bytes as words, the last one padded with zeros (R73). -/
def packBytes : List Byte → List Word
  | [] => []
  | [b0] => [packWord b0 0 0 0]
  | [b0, b1] => [packWord b0 b1 0 0]
  | [b0, b1, b2] => [packWord b0 b1 b2 0]
  | b0 :: b1 :: b2 :: b3 :: bs => packWord b0 b1 b2 b3 :: packBytes bs

/-- `ceil(L/4)`, the number of data words (R73). -/
def dataWords (len : Nat) : Nat := (len + 3) / 4

/-! ## The decoder -/

/-- COMMAND's trailing words (R73): none, or a length word and `ceil(L/4)` data words. -/
def decodeCommand (w : Word) (rest : List Word) : Decoded :=
  if w.getLsbD 8 then
    match rest with
    | [] => .incomplete
    | len :: ws =>
      if dataWords len.toNat ≤ ws.length then
        .instr (.command (lowByte w)
          (some ((unpackWords (ws.take (dataWords len.toNat))).take len.toNat)))
          (2 + dataWords len.toNat)
      else .incomplete
  else .instr (.command (lowByte w) none) 1

/-- An accessor word has no operand bits (R71). -/
def decodeAccessor (i : Instr) (w : Word) : Decoded :=
  if reservedSet 0 w then .illegal .accessorReservedBits else .instr i 1

/-- One request of operation `op`, from the table of R71. The length of a request follows R78. -/
def decodeOp (op : Nat) (w : Word) (rest : List Word) : Decoded :=
  match op with
  | 0x0 => .instr (.reservedOp0 (operandField w)) 1
  | 0x1 => if reservedSet 1 w then .illegal .initReservedBits else .instr (.init (w.getLsbD 0)) 1
  | 0x2 => if reservedSet 9 w then .illegal .commandReservedBits else decodeCommand w rest
  | 0x3 => if reservedSet 1 w then .illegal .updateReservedBits else .instr (.update (w.getLsbD 0)) 1
  | 0x4 => if reservedSet 8 w then .illegal .backlightReservedBits else .instr (.setBacklight (lowByte w)) 1
  | 0x5 => .instr (.reservedOp5 (operandField w)) 1
  | 0x6 => .instr (.reservedOp6 (operandField w)) 1
  | 0x7 => .instr (.reservedOp7 (operandField w)) 1
  | 0x8 => decodeAccessor .getBus w
  | 0x9 => decodeAccessor .getCs w
  | 0xA => decodeAccessor .getDc w
  | 0xB => decodeAccessor .getSck w
  | 0xC => decodeAccessor .getMosi w
  | 0xD => decodeAccessor .getMiso w
  | 0xE => decodeAccessor .getBl w
  | _ => decodeAccessor .getVsync w

/-- One request, by its operation `W[31:28]` (R71). -/
def decodeRequest (w : Word) (rest : List Word) : Decoded := decodeOp (opField w).toNat w rest

/-- The BUSCMD8 rows of the opcode table: reference byte and instruction (R85). -/
def panelTable : List (Byte × Instr) :=
  [(0x01, .swreset), (0x11, .slpout), (0xB1, .frmctr1), (0xB2, .frmctr2), (0xB3, .frmctr3),
   (0xB4, .invctr), (0xC0, .pwrctlA), (0xC2, .pwrctlB), (0xC3, .pwrctlC), (0xC4, .pwrctlD),
   (0xC5, .vmctr1), (0x21, .invon), (0x36, .madctl), (0x3A, .colmod)] ++
  [(0x2A, .caset), (0x2B, .raset), (0xE0, .gmctrp1), (0xE1, .gmctrn1), (0x13, .noron),
   (0x29, .dispon), (0x2C, .ramwr)]

/-- The panel command a reference byte stands for. -/
def decodePanel (b : Byte) : Decoded :=
  match panelTable.lookup b with
  | some i => .instr i 1
  | none => .illegal .unlistedPanelByte

/-- The decoder, total on any bits. -/
def decode : Code → Decoded
  | .req [] => .incomplete
  | .req (w :: rest) => decodeRequest w rest
  | .panel b => decodePanel b

/-! ## The encoder -/

/-- The first word of INIT and UPDATE: an operation and one operand bit (R71). -/
def flagWord (op : BitVec 4) (f : Bool) : Word := op ++ (0 : BitVec 27) ++ BitVec.ofBool f

/-- The first word of COMMAND (R71). -/
def commandWord (opcode : Byte) (hasData : Bool) : Word :=
  (2 : BitVec 4) ++ (0 : BitVec 19) ++ BitVec.ofBool hasData ++ opcode

/-- A reserved word, or (with `x = 0`) an accessor word (R71). -/
def opWord (op : BitVec 4) (x : BitVec 28) : Word := op ++ x

/-- The words or the byte of an instruction (R71, R73, R85). -/
def encode : Instr → Code
  | .init auto => .req [flagWord 1 auto]
  | .command opcode none => .req [commandWord opcode false]
  | .command opcode (some d) =>
    .req (commandWord opcode true :: BitVec.ofNat 32 d.length :: packBytes d)
  | .update dontBlock => .req [flagWord 3 dontBlock]
  | .setBacklight brightness => .req [(4 : BitVec 4) ++ (0 : BitVec 20) ++ brightness]
  | .getBus => .req [opWord 0x8 0]
  | .getCs => .req [opWord 0x9 0]
  | .getDc => .req [opWord 0xA 0]
  | .getSck => .req [opWord 0xB 0]
  | .getMosi => .req [opWord 0xC 0]
  | .getMiso => .req [opWord 0xD 0]
  | .getBl => .req [opWord 0xE 0]
  | .getVsync => .req [opWord 0xF 0]
  | .reservedOp0 x => .req [opWord 0x0 x]
  | .reservedOp5 x => .req [opWord 0x5 x]
  | .reservedOp6 x => .req [opWord 0x6 x]
  | .reservedOp7 x => .req [opWord 0x7 x]
  | .swreset => .panel 0x01
  | .slpout => .panel 0x11
  | .frmctr1 => .panel 0xB1
  | .frmctr2 => .panel 0xB2
  | .frmctr3 => .panel 0xB3
  | .invctr => .panel 0xB4
  | .pwrctlA => .panel 0xC0
  | .pwrctlB => .panel 0xC2
  | .pwrctlC => .panel 0xC3
  | .pwrctlD => .panel 0xC4
  | .vmctr1 => .panel 0xC5
  | .invon => .panel 0x21
  | .madctl => .panel 0x36
  | .colmod => .panel 0x3A
  | .caset => .panel 0x2A
  | .raset => .panel 0x2B
  | .gmctrp1 => .panel 0xE0
  | .gmctrn1 => .panel 0xE1
  | .noron => .panel 0x13
  | .dispon => .panel 0x29
  | .ramwr => .panel 0x2C

/-- What follows a code: more words on the port. A panel byte is one fetch of its own. -/
def Code.followedBy : Code → List Word → Code
  | .req ws, rest => .req (ws ++ rest)
  | .panel b, _ => .panel b

/-- How many words or bytes a code has. -/
def Code.size : Code → Nat
  | .req ws => ws.length
  | .panel _ => 1

/-! ## Bits as spec/opcode_table.json numbers them -/

/-- The low `n` words of a number, the least significant first. -/
def wordsOfNat : Nat → Nat → List Word
  | 0, _ => []
  | n + 1, w => BitVec.ofNat 32 w :: wordsOfNat n (w / 2 ^ 32)

/-- An instruction of `nbits` bits: 8 is a BUSCMD8 row, anything else is whole request words. Words
of zeros follow, as many as a COMMAND of the length its second word gives could take. -/
def tableCode (nbits w : Nat) : Code :=
  if nbits = 8 then .panel (BitVec.ofNat 8 w)
  else .req (wordsOfNat (max 1 ((nbits + 31) / 32)) w ++
    0 :: List.replicate (dataWords (w / 2 ^ 32 % 2 ^ 32)) 0)

/-- The words of a table instruction alone, without what it leaves of the padding. -/
def tableWords (nbits w : Nat) : List Word :=
  match tableCode nbits w with
  | .panel _ => []
  | .req ws =>
    match decode (.req ws) with
    | .instr _ n => ws.take n
    | .illegal _ => ws.take 1
    | .incomplete => ws

/-- The instruction the decoder reads from an instruction whose bits are `w`, as the table numbers them. -/
def decodeTableWord (nbits w : Nat) : Option Instr :=
  match decode (tableCode nbits w) with
  | .instr i _ => some i
  | .illegal _ => none
  | .incomplete => none

end Sys2Proof
end

