-- ==== Sys2Proof/Machine/Flags.lean ====
section
/-! DEFINITION. Status codes. The block has no condition codes and no arithmetic flags
(spec/10_state.md R35); its one status value is the fault code of spec/60_exceptions.md R220. -/

namespace Sys2Proof.Machine

/-- No fault (R220). -/
abbrev codeOk : Byte := 0x00
/-- E_CONFIG_GEOMETRY, found at reset (R220, R27). -/
abbrev codeConfigGeometry : Byte := 0x01
/-- E_CONFIG_PIN, found at reset (R220, R27). -/
abbrev codeConfigPin : Byte := 0x02
/-- E_CONFIG_FB, found at reset and by UPDATE (R220, R27, R161). -/
abbrev codeConfigFb : Byte := 0x03
/-- E_NOT_INIT (R220, R222). -/
abbrev codeNotInit : Byte := 0x04
/-- E_ILLEGAL_REQ (R220, R221). -/
abbrev codeIllegalReq : Byte := 0x05
/-- E_TRANSPORT (R220, R226). -/
abbrev codeTransport : Byte := 0x06

/-- The status word of a response, `zext_32(code)` (spec/30_encoding.md R76). -/
def statusWord (code : Byte) : Word := code.setWidth 32

/-- The fault code after a fault is raised: the first one is kept (R224). -/
def stickyFault (stored raised : Byte) : Byte := if stored = codeOk then raised else stored

end Sys2Proof.Machine
end

