-- ==== Sys2Proof/Machine/Geometry.lean ====
section
/-! DEFINITION. What reset computes from the parameters: the derived configuration values
(spec/10_state.md R23 to R26) and the configuration check (R27). -/

namespace Sys2Proof.Machine

/-- The centring offset, floor division of a difference that may be negative (R24, spec/92 D9). -/
def offsetOf (ctrl size : Half) : Int := ((ctrl.toNat : Int) - size.toNat) / 2

/-- The last address of a window: `size + offset − 1` (R25). -/
def windowEnd (ctrl size : Half) : Int := size.toNat + offsetOf ctrl size - 1

/-- A window parameter `[0x00, off[7:0], 0x00, end[7:0]]` (R25). -/
def windowBytes (ctrl size : Half) : List Byte :=
  [0, BitVec.ofInt 8 (offsetOf ctrl size), 0, BitVec.ofInt 8 (windowEnd ctrl size)]

/-- The number of framebuffer elements, `width × height` (R23). -/
def pixelCount (p : Params) : Nat := p.width.toNat * p.height.toNat

/-- The geometry check of R27. -/
def geometryOk (p : Params) : Bool :=
  decide (1 ≤ p.width.toNat ∧ p.width.toNat ≤ p.ctrlW.toNat ∧
    1 ≤ p.height.toNat ∧ p.height.toNat ≤ p.ctrlH.toNat ∧
    windowEnd p.ctrlW p.width ≤ 255 ∧ windowEnd p.ctrlH p.height ≤ 255)

/-- The number of an absent optional pin, −1 in two's complement (R8, R200). -/
def noPin : Word := BitVec.allOnes 32

/-- A pin number the platform has: in `0 .. P_NUM_PINS − 1`, the pin read as an `s32` (R27). -/
def pinInRange (p : Params) (pin : Word) : Bool :=
  decide (0 ≤ pin.toInt ∧ pin.toInt < p.numPins.toNat)

/-- The mandatory pins of R27. -/
def mandatoryPins (p : Params) : List Word := [p.pinCs, p.pinDc, p.pinSck, p.pinMosi]

/-- The optional pins of R27. -/
def optionalPins (p : Params) : List Word := [p.pinMiso, p.pinBl, p.pinVsync]

/-- `pins_valid` of R27. -/
def pinsValid (p : Params) : Bool :=
  (mandatoryPins p).all (pinInRange p) &&
  (optionalPins p).all (fun pin => pin == noPin || pinInRange p pin) &&
  decide ((mandatoryPins p ++ optionalPins p).filter (fun pin => pin != noPin)).Nodup

/-- The framebuffer check of R27. -/
def framebufferOk (p : Params) : Bool :=
  decide (p.fbLen.toNat = pixelCount p ∧ p.fbBase.toNat + 2 * p.fbLen.toNat ≤ 2 ^ 32)

/-- `cfg_check()`: the first check that fails names the code (R27, R220). -/
def cfgCheck (p : Params) : Byte :=
  if !geometryOk p then codeConfigGeometry
  else if !pinsValid p then codeConfigPin
  else if !framebufferOk p then codeConfigFb
  else codeOk

end Sys2Proof.Machine
end

