-- ==== Sys2Proof/Machine/Reference.lean ====
section
/-! DEFINITION. The reference instance of the parameters: the configuration `REF` of
spec/95_test_vectors.md section 0, with the reference `OPC` of spec/30_encoding.md R85 and the
reference `INIT_PARAMS` of spec/41_init_sequencer.md R123. It is the instance the machine's reset
state uses (log entry 1). No statement about every state depends on it. -/

namespace Sys2Proof.Machine

/-- The reference opcode bytes (R85). -/
def refOpc : Opc where
  swreset := 0x01
  slpout := 0x11
  frmctr1 := 0xB1
  frmctr2 := 0xB2
  frmctr3 := 0xB3
  invctr := 0xB4
  pwrctlA := 0xC0
  pwrctlB := 0xC2
  pwrctlC := 0xC3
  pwrctlD := 0xC4
  vmctr1 := 0xC5
  invon := 0x21
  madctl := 0x36
  colmod := 0x3A
  caset := 0x2A
  raset := 0x2B
  gmctrp1 := 0xE0
  gmctrn1 := 0xE1
  noron := 0x13
  dispon := 0x29
  ramwr := 0x2C

/-- The reference parameter bytes (R123). -/
def refInitParams : InitParams where
  frmctr1 := [0x01, 0x2C, 0x2D]
  frmctr2 := [0x01, 0x2C, 0x2D]
  frmctr3 := [0x01, 0x2C, 0x2D, 0x01, 0x2C, 0x2D]
  invctr := [0x07]
  pwrctlA := [0xA2, 0x02, 0x84]
  pwrctlB := [0x0A, 0x00]
  pwrctlC := [0x8A, 0x2A]
  pwrctlD := [0x8A, 0xEE]
  vmctr1 := [0x0E]
  madctl := [0xC8]
  colmod := [0x05]
  gmctrp1 := [0x02, 0x1C, 0x07, 0x12, 0x37, 0x32, 0x29, 0x2D, 0x29, 0x25, 0x2B, 0x39, 0x00, 0x01, 0x03, 0x10]
  gmctrn1 := [0x03, 0x1D, 0x07, 0x06, 0x2E, 0x2C, 0x29, 0x2D, 0x2E, 0x2E, 0x37, 0x3F, 0x00, 0x00, 0x02, 0x10]

/-- The reference configuration `REF` (spec/95_test_vectors.md section 0). -/
def refParams : Params where
  busId := 0
  clockHz := 16000000
  pinCs := 17
  pinDc := 16
  pinSck := 18
  pinMosi := 19
  pinMiso := BitVec.allOnes 32
  pinBl := 20
  pinVsync := BitVec.allOnes 32
  numPins := 30
  width := 128
  height := 128
  ctrlW := 132
  ctrlH := 162
  fbBase := 0x20000000
  fbLen := 16384
  pwmWrap := 65535
  bitOrder := .msbFirst
  spiMode := .mode0
  timeoutMs := none
  opc := refOpc
  initParams := refInitParams

end Sys2Proof.Machine
end

