-- ==== Sys2Proof/Machine/State.lean ====
section
/-! DEFINITION. The machine's state, as plain data: everything spec/10_state.md gives the block, the
framebuffer space, and the agents the block meets (host, bus, another writer of the framebuffer). -/

namespace Sys2Proof.Machine

/-- What a line carries (spec/00_scope.md R12, spec/10_state.md R32). -/
inductive Line where
  | z
  | at (l : Level)
deriving DecidableEq, Repr

/-- The states of `st.phase` (R29). -/
inductive Phase where
  | idle | setup | seq | frame | delay | resp
deriving DecidableEq, Repr

/-- `st.pwm_level : u16 or UNSPEC` (R33). Log entry 17. -/
inductive PwmLevel where
  | unspec
  | value (v : Half)
deriving DecidableEq, Repr

/-- The function a pin is handed to by `PinFn` (R40). -/
inductive PinFunction where
  | spi
deriving DecidableEq, Repr

/-- The events of the trace (R40). -/
inductive Event where
  | busInit (id hz : Word)
  | pinOut (pin : Word) (level : Level)
  | pinFn (pin : Word) (fn : PinFunction)
  | pinIn (pin : Word)
  | pwmInit (pin : Word) (wrap : Half)
  | cs (level : Level)
  | dc (level : Level)
  | tx (b : Byte)
  | delay (ms : Nat)
  | pwmLevel (v : Half)
  | resp (w : Word)
deriving DecidableEq, Repr

/-- How the bus answers a byte it is offered: it accepts it after some time, or never (spec/20_memory.md R58). -/
inductive Answer where
  | accept (ms : Nat)
  | never
deriving DecidableEq, Repr

/-- The bus agent: its answers to the next bytes, and its answer to every byte after those. Log entry 7. -/
structure Bus where
  waits : List Answer
  rest : Answer
deriving DecidableEq, Repr

/-- What the host does next: it offers a request word, or writes a framebuffer byte (R20, R62, R70). -/
inductive HostAct where
  | offer (w : Word)
  | store (addr : Word) (b : Byte)
deriving DecidableEq, Repr

/-- The framebuffer space: the bytes that differ from what an unlisted address reads as (R50). -/
abbrev Memory := List Host.Cell

/-- The configuration registers (R22), the other parameters of R8, and the derived values (R23). -/
structure Cfg extends Params where
  offC : Byte
  offR : Byte
  endC : Int
  endR : Int
  winC : List Byte
  winR : List Byte
  nPix : Nat
  nBytes : Nat
deriving DecidableEq, Repr

/-- Loading the configuration at reset (R22 to R26). -/
def Cfg.load (p : Params) : Cfg :=
  { p with
    offC := BitVec.ofInt 8 (offsetOf p.ctrlW p.width)
    offR := BitVec.ofInt 8 (offsetOf p.ctrlH p.height)
    endC := windowEnd p.ctrlW p.width
    endR := windowEnd p.ctrlH p.height
    winC := windowBytes p.ctrlW p.width
    winR := windowBytes p.ctrlH p.height
    nPix := pixelCount p
    nBytes := 2 * pixelCount p }

/-- The whole state. The first group is the block's own (R21 to R43), the second the memory and the
other agents, the third the model's own fields (log entries 5 and 16). -/
@[ext]
structure State where
  cfg : Cfg
  initDone : Bool
  busy : Bool
  fault : Byte
  phase : Phase
  seqPc : Byte
  opR : Byte
  dataR : List Byte
  idx : Word
  csLine : Line
  dcLine : Line
  pwmOn : Bool
  pwmLevel : PwmLevel
  trace : List Event
  mem : Memory
  foreign : List Host.Cell
  host : List HostAct
  bus : Bus
  draws : Nat
  ramwrDue : Bool
deriving DecidableEq, Repr

/-- The machine's stops. The block's own faults are no stops: they are codes and next states (R224). -/
inductive Fault where
  /-- Raised by UPDATE and RAMWR when a byte they would read lies outside the readable framebuffer
  region or the 32-bit space (R50, R60: such a read is never made). Safe. Log entry 14. -/
  | readOutsideFramebuffer
deriving DecidableEq, Repr

/-- What the machine refuses. -/
inductive Refusal where
  /-- Answered by an arm of exec whose instruction has no meaning yet. Safe. -/
  | notModelled (mnemonic : String)
  /-- Answered by step in a state inside a request at which no step begins: busy, with the phase IDLE
  or SETUP. No instruction answers it. Safe. Log entry 22. -/
  | insideRequest
deriving DecidableEq, Repr

/-- Reset of the block with parameters `p` (spec/70_reset_and_hazards.md R250, R43). The memory and
the other agents are not the block's and stay. The latches are unspecified (R39), log entry 3. -/
def State.resetBlock (p : Params) (s : State) : State :=
  { s with
    cfg := Cfg.load p
    fault := cfgCheck p
    initDone := false
    busy := false
    phase := .idle
    seqPc := 0
    opR := 0
    dataR := []
    idx := 0
    csLine := .z
    dcLine := .z
    pwmOn := false
    pwmLevel := .unspec
    trace := []
    ramwrDue := false }

/-- The machine right after reset, on the reference configuration (log entry 1), with nothing in
memory, a host with nothing to do, and a bus that accepts every byte (log entries 6, 7 and 11). -/
def State.reset : State where
  cfg := Cfg.load refParams
  fault := cfgCheck refParams
  initDone := false
  busy := false
  phase := .idle
  seqPc := 0
  opR := 0
  dataR := []
  idx := 0
  csLine := .z
  dcLine := .z
  pwmOn := false
  pwmLevel := .unspec
  trace := []
  mem := []
  foreign := []
  host := []
  bus := ⟨[], .accept 0⟩
  draws := 0
  ramwrDue := false

end Sys2Proof.Machine
end

