-- ==== Sys2Proof/Machine/Ops.lean ====
section
/-! DEFINITION. The shared operations: memory, the trace and the lines, a byte on the bus, a response,
raising a fault, and the checks that come before a request's own work. -/

namespace Sys2Proof.Machine

/-! ## The framebuffer space (spec/20_memory.md R50) -/

/-- What an unlisted address reads as (log entry 6). -/
def unlistedByte : Byte := 0

/-- One byte of the framebuffer space. -/
def Memory.read : Memory → Nat → Byte
  | [], _ => unlistedByte
  | (x, v) :: rest, a => if x = a then v else Memory.read rest a

/-- Writing one byte, in canonical form. Only the host and other agents write (R50, R166). -/
def Memory.write : Memory → Nat → Byte → Memory
  | [], a, b => if b = unlistedByte then [] else [(a, b)]
  | (x, v) :: rest, a, b =>
    if a < x then (if b = unlistedByte then (x, v) :: rest else (a, b) :: (x, v) :: rest)
    else if a = x then (if b = unlistedByte then rest else (a, b) :: rest)
    else (x, v) :: Memory.write rest a b

/-- The canonical form: addresses strictly rising, inside the 32-bit space, and no entry equal to
what an unlisted address reads as. -/
abbrev Memory.wf (m : Memory) : Prop :=
  m.Pairwise (fun c d => c.1 < d.1) ∧ ∀ c ∈ m, c.2 ≠ unlistedByte ∧ c.1 < 2 ^ 32

/-- Writes one after another, the oldest first. An address outside the 32-bit space is no byte. -/
def Memory.writeAll : Memory → List Host.Cell → Memory
  | m, [] => m
  | m, (a, b) :: cs => (if a < 2 ^ 32 then m.write a b else m).writeAll cs

/-- The host's write of a framebuffer byte (R62). -/
def hostStore (a : Word) (b : Byte) (s : State) : State :=
  { s with mem := s.mem.write a.toNat b }

/-- `MemRead(addr, 1)` may be made: the address is in the readable region (R50, R60). -/
def readable (c : Cfg) (a : Nat) : Bool :=
  decide (c.fbBase.toNat ≤ a ∧ a < c.fbBase.toNat + 2 * c.fbLen.toNat ∧ a < 2 ^ 32)

/-- Every byte of a transfer of `n` bytes from the framebuffer's base may be read. -/
def transferReadable (c : Cfg) (n : Nat) : Bool :=
  decide (n ≤ 2 * c.fbLen.toNat ∧ c.fbBase.toNat + n ≤ 2 ^ 32)

/-- Framebuffer byte `j` as UPDATE reads it: a byte another agent writes meanwhile reads as the old or
the new value, by a free choice (R62, spec/92 D27). -/
def framebufferByte (s : State) (j : Nat) : Byte :=
  let a := s.cfg.fbBase.toNat + j
  if s.foreign.any (fun c => c.1 == a) then
    if Config.freeChoice (s.draws + j) then (s.mem.writeAll s.foreign).read a else s.mem.read a
  else s.mem.read a

/-- The data phase of UPDATE: the framebuffer bytes in ascending address order (R54, R57). -/
def framebufferBytes (s : State) : List Byte := (List.range s.cfg.nBytes).map (framebufferByte s)

/-- The writes that raced with a transfer have landed, and its choices are drawn (R62). -/
def landForeign (s : State) : State :=
  { s with mem := s.mem.writeAll s.foreign, foreign := [], draws := s.draws + s.cfg.nBytes }

/-! ## The trace and the lines (spec/00_scope.md R11, spec/10_state.md R32, R40) -/

/-- `emit(ev)` (R11). -/
def emit (e : Event) (s : State) : State := { s with trace := s.trace ++ [e] }

/-- `emit(Cs(lvl)) ; st.cs_line <- lvl` (R100). -/
def driveCs (l : Level) (s : State) : State := { emit (.cs l) s with csLine := .at l }

/-- `emit(Dc(lvl)) ; st.dc_line <- lvl` (R100). -/
def driveDc (l : Level) (s : State) : State := { emit (.dc l) s with dcLine := .at l }

/-! ## Responses and faults -/

/-- `respond(w)`: the response event, then the port is ready again (R11, R29, R70, R76). -/
def respond (w : Word) (s : State) : State :=
  { emit (.resp w) { s with phase := .resp } with busy := false, phase := .idle }

/-- `raise E()`: the block's whole trap mechanism. The first fault is kept, and the response carries
the code (R224). There is no return from it (R225). -/
def raise (code : Byte) (s : State) : State :=
  respond (statusWord code) { s with fault := stickyFault s.fault code }

/-- An illegal request word (R77, R221). -/
def raiseIllegal (s : State) : State := raise codeIllegalReq s

/-- Whether the request goes on past the checks of R227, and if not, how it ends. -/
inductive Gate where
  | pass
  | ended (s : State)

/-- Check 3 of R227: a stored fault is the response, and nothing else changes (R225). -/
def faultGate (s : State) : Gate :=
  if s.fault = codeOk then .pass else .ended (respond (statusWord s.fault) s)

/-- Checks 3 and 4 of R227: then a request that needs INIT raises E_NOT_INIT before one (R222). -/
def initGate (s : State) : Gate :=
  match faultGate s with
  | .ended t => .ended t
  | .pass => if s.initDone then .pass else .ended (raise codeNotInit s)

/-! ## Latches at a request's end (spec/10_state.md R39, log entry 4) -/

/-- The frame latches `st.op_r` and `st.idx` no longer hold a value any rule fixes. -/
def releaseFrame (s : State) : State :=
  { s with opR := Config.freeOpR s.draws, idx := Config.freeIdx s.draws, draws := s.draws + 1 }

/-- Nor does `st.data_r`. -/
def releaseData (s : State) : State :=
  { s with dataR := Config.freeDataR s.draws, draws := s.draws + 1 }

/-- Nor does `st.seq_pc`, outside INIT (R30). -/
def releaseSeqPc (s : State) : State :=
  { s with seqPc := Config.freeSeqPc s.draws, draws := s.draws + 1 }

/-! ## A byte on the bus (spec/20_memory.md R58, spec/60_exceptions.md R226) -/

/-- Where work that sends bytes stands: it went through, the bus hangs, or the time limit passed. -/
inductive Sent where
  | done (s : State)
  | hung (s : State)
  | timedOut (s : State)

/-- Going on after work that went through. -/
def Sent.andThen : Sent → (State → Sent) → Sent
  | .done s, k => k s
  | .hung s, _ => .hung s
  | .timedOut s, _ => .timedOut s

/-- The end of the work: a hang stays where it is, and the other two go on as given. -/
def Sent.settle : Sent → (State → State) → (State → State) → State
  | .done s, k, _ => k s
  | .hung s, _, _ => s
  | .timedOut s, _, abort => abort s

/-- The bus's answer to the next byte. -/
def Bus.answer (b : Bus) : Answer :=
  match b.waits with
  | [] => b.rest
  | a :: _ => a

/-- The bus after it has answered one byte. -/
def Bus.advance (b : Bus) : Bus := { b with waits := b.waits.tail }

/-- Whether an answer accepts its byte within the time limit, if there is one (R58, R226). -/
def Answer.inTime (timeout : Option Word) : Answer → Bool
  | .accept ms =>
    match timeout with
    | none => true
    | some t => decide (ms ≤ t.toNat)
  | .never => false

/-- A byte the bus does not accept in time: a hang where there is no time limit, and the end of the
work where there is one (R58, R226). -/
def stall (s : State) : Sent :=
  if s.cfg.timeoutMs.isNone then .hung s else .timedOut { s with bus := s.bus.advance }

/-- `emit(Tx(b))`, enabled only when the bus accepts the byte (R11, R58). -/
def txByte (b : Byte) (s : State) : Sent :=
  if s.bus.answer.inTime s.cfg.timeoutMs then .done (emit (.tx b) { s with bus := s.bus.advance })
  else stall s

/-- E_TRANSPORT: the bytes already sent stay sent, CS is released, the fault is raised (R226). -/
def abortTransport (s : State) : State :=
  raise codeTransport (releaseFrame (driveCs .hi s))

end Sys2Proof.Machine
end

