-- ==== Sys2Proof/Machine/Operands.lean ====
section
/-! DEFINITION. Operand forms. A request carries its operands in itself (spec/10_state.md R21), so the
forms are few: the data source of a frame, and a pin number as a response word. -/

namespace Sys2Proof.Machine

/-- A frame's data source (spec/40_bus_transport.md R100): `none` is no data phase, `some` the bytes in
order, possibly none of them. -/
abbrev DataSource := Option (List Byte)

/-- `value[31:0]` of a pin number, in two's complement: −1 reads as `0xFFFFFFFF` (spec/44_accessors.md R200). -/
def pinWord (pin : Word) : Word := pin

/-- Whether an optional pin is present (spec/41_init_sequencer.md R122). -/
def pinPresent (pin : Word) : Bool := pin != noPin

/-- The byte `OPC` gives a slot (spec/30_encoding.md R84). -/
def opcByte (o : Opc) : Slot → Byte
  | .swreset => o.swreset
  | .slpout => o.slpout
  | .frmctr1 => o.frmctr1
  | .frmctr2 => o.frmctr2
  | .frmctr3 => o.frmctr3
  | .invctr => o.invctr
  | .pwrctlA => o.pwrctlA
  | .pwrctlB => o.pwrctlB
  | .pwrctlC => o.pwrctlC
  | .pwrctlD => o.pwrctlD
  | .vmctr1 => o.vmctr1
  | .invon => o.invon
  | .madctl => o.madctl
  | .colmod => o.colmod
  | .caset => o.caset
  | .raset => o.raset
  | .gmctrp1 => o.gmctrp1
  | .gmctrn1 => o.gmctrn1
  | .noron => o.noron
  | .dispon => o.dispon
  | .ramwr => o.ramwr

end Sys2Proof.Machine
end

