-- ==== Sys2Proof/Machine/Accessors.lean ====
section
/-! DEFINITION. The accessors (spec/44_accessors.md). Each answers one configuration value and never
faults, whatever `st.fault` and `st.init_done` hold (R200, R227 check 2). -/

namespace Sys2Proof.Machine

/-- GET_BUS, R201. -/
def execGetBus (s : State) : Host.Outcome State Fault Refusal := .next (respond s.cfg.busId s)

/-- GET_CS, R202. -/
def execGetCs (s : State) : Host.Outcome State Fault Refusal := .next (respond (pinWord s.cfg.pinCs) s)

/-- GET_DC, R203. -/
def execGetDc (s : State) : Host.Outcome State Fault Refusal := .next (respond (pinWord s.cfg.pinDc) s)

/-- GET_SCK, R204. -/
def execGetSck (s : State) : Host.Outcome State Fault Refusal := .next (respond (pinWord s.cfg.pinSck) s)

/-- GET_MOSI, R205. -/
def execGetMosi (s : State) : Host.Outcome State Fault Refusal := .next (respond (pinWord s.cfg.pinMosi) s)

/-- GET_MISO, R206. -/
def execGetMiso (s : State) : Host.Outcome State Fault Refusal := .next (respond (pinWord s.cfg.pinMiso) s)

/-- GET_BL, R207. -/
def execGetBl (s : State) : Host.Outcome State Fault Refusal := .next (respond (pinWord s.cfg.pinBl) s)

/-- GET_VSYNC, R208. -/
def execGetVsync (s : State) : Host.Outcome State Fault Refusal := .next (respond (pinWord s.cfg.pinVsync) s)

end Sys2Proof.Machine
end

