-- ==== Sys2Proof/Machine/Backlight.lean ====
section
/-! DEFINITION. Backlight Controller: the duty LUT and SET_BACKLIGHT (spec/43_backlight.md). -/

namespace Sys2Proof.Machine

/-- The duty LUT, one row of the spec's table a line (R182). -/
def dutyTable : List Nat :=
  [0, 0, 0, 0, 1, 1, 2, 3, 4, 6, 8, 10, 13, 16, 19, 24] ++
  [28, 33, 39, 46, 53, 60, 69, 78, 88, 98, 110, 122, 135, 149, 164, 179] ++
  [196, 214, 232, 252, 273, 295, 317, 341, 366, 393, 420, 449, 478, 510, 542, 575] ++
  [610, 647, 684, 723, 764, 806, 849, 894, 940, 988, 1037, 1088, 1140, 1194, 1250, 1307] ++
  [1366, 1427, 1489, 1553, 1619, 1686, 1756, 1827, 1900, 1975, 2051, 2130, 2210, 2293, 2377, 2463] ++
  [2552, 2642, 2734, 2829, 2925, 3024, 3124, 3227, 3332, 3439, 3548, 3660, 3774, 3890, 4008, 4128] ++
  [4251, 4376, 4504, 4634, 4766, 4901, 5038, 5177, 5319, 5464, 5611, 5760, 5912, 6067, 6224, 6384] ++
  [6546, 6711, 6879, 7049, 7222, 7397, 7576, 7757, 7941, 8128, 8317, 8509, 8704, 8902, 9103, 9307] ++
  [9514, 9723, 9936, 10151, 10370, 10591, 10816, 11043, 11274, 11507, 11744, 11984, 12227, 12473, 12722, 12975] ++
  [13230, 13489, 13751, 14017, 14285, 14557, 14833, 15111, 15393, 15678, 15967, 16259, 16554, 16853, 17155, 17461] ++
  [17770, 18083, 18399, 18719, 19042, 19369, 19700, 20034, 20372, 20713, 21058, 21407, 21759, 22115, 22475, 22838] ++
  [23206, 23577, 23952, 24330, 24713, 25099, 25489, 25884, 26282, 26683, 27089, 27499, 27913, 28330, 28752, 29178] ++
  [29608, 30041, 30479, 30921, 31367, 31818, 32272, 32730, 33193, 33660, 34131, 34606, 35085, 35569, 36057, 36549] ++
  [37046, 37547, 38052, 38561, 39075, 39593, 40116, 40643, 41175, 41711, 42251, 42796, 43346, 43899, 44458, 45021] ++
  [45588, 46161, 46737, 47319, 47905, 48495, 49091, 49691, 50295, 50905, 51519, 52138, 52761, 53390, 54023, 54661] ++
  [55303, 55951, 56604, 57261, 57923, 58590, 59262, 59939, 60621, 61308, 62000, 62697, 63399, 64106, 64818, 65535]

/-- `DUTY[brightness]` (R182, R186: it depends on the brightness alone). -/
def duty (brightness : Byte) : Half := BitVec.ofNat 16 (dutyTable.getD brightness.toNat 0)

/-- The write of the level register (R180). -/
def writePwmLevel (v : Half) (s : State) : State :=
  { emit (.pwmLevel v) s with pwmLevel := .value v }

/-- SET_BACKLIGHT (R180). With no backlight pin there is nothing to write (R185). -/
def execSetBacklight (brightness : Byte) (s : State) : Host.Outcome State Fault Refusal :=
  match initGate s with
  | .ended t => .next t
  | .pass =>
    if pinPresent s.cfg.pinBl then
      .next (respond (statusWord codeOk) (writePwmLevel (duty brightness) s))
    else .next (respond (statusWord codeOk) s)

end Sys2Proof.Machine
end

