-- ==== Sys2Proof/Machine/Transport.lean ====
section
/-! DEFINITION. Bus Transport: the frame primitive and COMMAND (spec/40_bus_transport.md). -/

namespace Sys2Proof.Machine

/-- The data phase: each byte is sent once the bus accepts it, and `st.idx` counts it (R31, R100). -/
def sendData : List Byte → State → Sent
  | [], s => .done s
  | b :: bs, s => (txByte b s).andThen (fun t => sendData bs { t with idx := t.idx + 1 })

/-- The data phase of a frame, if it has one (R100). -/
def dataPhase (src : DataSource) (s : State) : Sent :=
  match src with
  | none => .done s
  | some ds => sendData ds { driveDc .hi s with idx := 0 }

/-- `frame(op, src)`, the Bus Transport primitive (R100). -/
def frame (op : Byte) (src : DataSource) (s : State) : Sent :=
  ((txByte op (driveDc .lo (driveCs .lo { s with phase := .frame, opR := op }))).andThen
    (dataPhase src)).andThen (fun t => .done (driveCs .hi t))

/-- The end of a COMMAND whose frame went through. -/
def endCommand (s : State) : State := respond (statusWord codeOk) (releaseData (releaseFrame s))

/-- COMMAND (R104). Its words have all been taken when it starts (spec/30_encoding.md R74). -/
def execCommand (opcode : Byte) (data : Option (List Byte)) (s : State) :
    Host.Outcome State Fault Refusal :=
  match initGate s with
  | .ended t => .next t
  | .pass =>
    .next ((frame opcode data { s with dataR := data.getD s.dataR }).settle endCommand
      (fun t => abortTransport (releaseData t)))

end Sys2Proof.Machine
end

