-- ==== Sys2Proof/Machine/Framebuffer.lean ====
section
/-! DEFINITION. Framebuffer Transfer: UPDATE and its write-memory command
(spec/42_framebuffer_transfer.md). -/

namespace Sys2Proof.Machine

/-- The framebuffer size check of UPDATE (R161). -/
def sizeMatches (c : Cfg) : Bool := c.fbLen.toNat == c.width.toNat * c.height.toNat

/-- The one frame of a transfer: the write-memory command and the whole buffer (R160, R163). -/
def ramwrFrame (s : State) : Sent :=
  frame s.cfg.opc.ramwr (some (framebufferBytes s)) (landForeign { s with ramwrDue := false })

/-- The end of an UPDATE whose frame went through. -/
def endUpdate (s : State) : State := respond (statusWord codeOk) (releaseFrame s)

/-- RAMWR as the block's own command: UPDATE's frame, after which only the response is left (R160). -/
def execRamwr (s : State) : Host.Outcome State Fault Refusal :=
  if transferReadable s.cfg s.cfg.nBytes then
    .next ((ramwrFrame s).settle (fun t => { t with phase := .resp }) abortTransport)
  else .fault .readOutsideFramebuffer

/-- UPDATE (R160). `dont_block` is not read (R162). -/
def execUpdate (_dontBlock : Bool) (s : State) : Host.Outcome State Fault Refusal :=
  match initGate s with
  | .ended t => .next t
  | .pass =>
    if !sizeMatches s.cfg then .next (raise codeConfigFb s)
    else if transferReadable s.cfg s.cfg.nBytes then
      .next ((ramwrFrame s).settle endUpdate abortTransport)
    else .fault .readOutsideFramebuffer

end Sys2Proof.Machine
end

