-- ==== Sys2Proof/Machine/Reserved.lean ====
section
/-! DEFINITION. The reserved operations: each raises E_ILLEGAL_REQ, whatever its other bits
(spec/30_encoding.md R77, spec/60_exceptions.md R221). -/

namespace Sys2Proof.Machine

/-- OP 0x0, R77. -/
def execReservedOp0 (_x : BitVec 28) (s : State) : Host.Outcome State Fault Refusal :=
  .next (raiseIllegal s)

/-- OP 0x5, R77. -/
def execReservedOp5 (_x : BitVec 28) (s : State) : Host.Outcome State Fault Refusal :=
  .next (raiseIllegal s)

/-- OP 0x6, R77. -/
def execReservedOp6 (_x : BitVec 28) (s : State) : Host.Outcome State Fault Refusal :=
  .next (raiseIllegal s)

/-- OP 0x7, R77. -/
def execReservedOp7 (_x : BitVec 28) (s : State) : Host.Outcome State Fault Refusal :=
  .next (raiseIllegal s)

end Sys2Proof.Machine
end

