-- ==== Sys2Proof/Machine/Sequencer.lean ====
section
/-! DEFINITION. The Initialization Sequencer: INIT, its init ROM, and the twenty panel commands the ROM
holds (spec/41_init_sequencer.md). -/

namespace Sys2Proof.Machine

/-! ## Setup -/

/-- The DC pin becomes an output at a level the spec leaves open (R122, R32). -/
def setupDc (s : State) : State :=
  { emit (.pinOut s.cfg.pinDc (Config.freeLevel s.draws)) s with
    dcLine := .at (Config.freeLevel s.draws), draws := s.draws + 1 }

/-- The CS pin becomes an output, deasserted (R122). -/
def setupCs (s : State) : State :=
  { emit (.pinOut s.cfg.pinCs .hi) s with csLine := .at .hi }

/-- An event for an optional pin, if the pin is present (R122). -/
def emitIfPresent (pin : Word) (e : Event) (s : State) : State :=
  if pinPresent pin then emit e s else s

/-- The PWM path, if there is a backlight pin (R122, R33). -/
def setupPwm (s : State) : State :=
  if pinPresent s.cfg.pinBl then
    { emit (.pwmInit s.cfg.pinBl s.cfg.pwmWrap) s with pwmOn := true, pwmLevel := .unspec }
  else s

/-- The pins of the serial bus and the vsync input (R122). -/
def setupPins (s : State) : State :=
  emitIfPresent s.cfg.pinVsync (.pinIn s.cfg.pinVsync)
    (emitIfPresent s.cfg.pinMiso (.pinFn s.cfg.pinMiso .spi)
      (emit (.pinFn s.cfg.pinMosi .spi) (emit (.pinFn s.cfg.pinSck .spi) s)))

/-- `setup()` (R122). -/
def setup (s : State) : State :=
  setupPwm (setupPins (setupCs (setupDc (emit (.busInit s.cfg.busId s.cfg.clockHz) s))))

/-! ## The init ROM -/

/-- One entry `(slot, params, delay_ms)` of the init ROM (R124). -/
structure RomEntry where
  slot : Slot
  params : DataSource
  delayMs : Nat
deriving DecidableEq, Repr

/-- `N_STEPS` (R124). -/
def stepCount : Nat := 20

/-- The init ROM (R124). Two entries take their bytes from the derived configuration (R125). -/
def initRom (c : Cfg) : List RomEntry :=
  [⟨.swreset, none, 150⟩,
   ⟨.slpout, none, 500⟩,
   ⟨.frmctr1, some c.initParams.frmctr1, 0⟩,
   ⟨.frmctr2, some c.initParams.frmctr2, 0⟩,
   ⟨.frmctr3, some c.initParams.frmctr3, 0⟩,
   ⟨.invctr, some c.initParams.invctr, 0⟩,
   ⟨.pwrctlA, some c.initParams.pwrctlA, 0⟩,
   ⟨.pwrctlB, some c.initParams.pwrctlB, 0⟩,
   ⟨.pwrctlC, some c.initParams.pwrctlC, 0⟩,
   ⟨.pwrctlD, some c.initParams.pwrctlD, 0⟩] ++
  [⟨.vmctr1, some c.initParams.vmctr1, 0⟩,
   ⟨.invon, none, 0⟩,
   ⟨.madctl, some c.initParams.madctl, 0⟩,
   ⟨.colmod, some c.initParams.colmod, 0⟩,
   ⟨.caset, some c.winC, 0⟩,
   ⟨.raset, some c.winR, 0⟩,
   ⟨.gmctrp1, some c.initParams.gmctrp1, 0⟩,
   ⟨.gmctrn1, some c.initParams.gmctrn1, 0⟩,
   ⟨.noron, none, 100⟩,
   ⟨.dispon, none, 100⟩]

/-- The ROM entry the step counter points at (R30). -/
def romEntry (s : State) : Option RomEntry := (initRom s.cfg)[s.seqPc.toNat]?

/-! ## One step of the sequence -/

/-- The settle delay of a step: none where the ROM says 0 (R124, R126). -/
def settleDelay (ms : Nat) (s : State) : State :=
  if ms = 0 then { s with phase := .seq } else emit (.delay ms) { s with phase := .delay }

/-- The end of a step: the delay, then `pc <- pc + 1` (R30, R120). -/
def endSeqStep (delayMs : Nat) (s : State) : State :=
  let t := settleDelay delayMs s
  { t with seqPc := t.seqPc + 1 }

/-- One pass of INIT's loop: the frame of a panel command, then its delay (R120). -/
def seqStep (op : Byte) (src : DataSource) (delayMs : Nat) (s : State) : Sent :=
  (frame op src { s with phase := .seq }).andThen (fun t => .done (endSeqStep delayMs t))

/-- E_TRANSPORT inside INIT: the rest of the sequence is skipped and `init_done` is not set (R226). -/
def abortInit (s : State) : State := abortTransport (releaseSeqPc s)

/-- A panel command of the sequence, run as one step. -/
def panelStep (op : Byte) (src : DataSource) (delayMs : Nat) (s : State) : State :=
  (seqStep op src delayMs s).settle id abortInit

/-! ## INIT -/

/-- INIT's loop, at most `n` passes: it ends when the step counter has left the ROM (R30, R120, R125). -/
def runSequence : Nat → State → Sent
  | 0, s => .done s
  | n + 1, s =>
    match romEntry s with
    | none => .done s
    | some e =>
      (seqStep (opcByte s.cfg.opc e.slot) e.params e.delayMs s).andThen (runSequence n)

/-- The end of the sequence: INIT has completed (R120, R121). -/
def finishInit (s : State) : State :=
  respond (statusWord codeOk) (releaseFrame (releaseSeqPc { s with initDone := true }))

/-- INIT's setup, and the sequence about to begin at step 0 (R30, R120). -/
def startSequence (s : State) : State :=
  { setup { s with phase := .setup } with phase := .seq, seqPc := 0 }

/-- INIT once its fault check has passed: setup, and the sequence if asked (R120, R128). -/
def runInit (auto : Bool) (s : State) : State :=
  if auto then (runSequence stepCount (startSequence s)).settle finishInit abortInit
  else respond (statusWord codeOk) { setup { s with phase := .setup } with initDone := true }

/-- INIT (R120). -/
def execInit (auto : Bool) (s : State) : Host.Outcome State Fault Refusal :=
  match faultGate s with
  | .ended t => .next t
  | .pass => .next (runInit auto s)

/-! ## The panel commands of the ROM (R130 to R149) -/

/-- Step 0, R130. -/
def execSwreset (s : State) : Host.Outcome State Fault Refusal :=
  .next (panelStep s.cfg.opc.swreset none 150 s)

/-- Step 1, R131. -/
def execSlpout (s : State) : Host.Outcome State Fault Refusal :=
  .next (panelStep s.cfg.opc.slpout none 500 s)

/-- Step 2, R132. -/
def execFrmctr1 (s : State) : Host.Outcome State Fault Refusal :=
  .next (panelStep s.cfg.opc.frmctr1 (some s.cfg.initParams.frmctr1) 0 s)

/-- Step 3, R133. -/
def execFrmctr2 (s : State) : Host.Outcome State Fault Refusal :=
  .next (panelStep s.cfg.opc.frmctr2 (some s.cfg.initParams.frmctr2) 0 s)

/-- Step 4, R134. -/
def execFrmctr3 (s : State) : Host.Outcome State Fault Refusal :=
  .next (panelStep s.cfg.opc.frmctr3 (some s.cfg.initParams.frmctr3) 0 s)

/-- Step 5, R135. -/
def execInvctr (s : State) : Host.Outcome State Fault Refusal :=
  .next (panelStep s.cfg.opc.invctr (some s.cfg.initParams.invctr) 0 s)

/-- Step 6, R136. -/
def execPwrctlA (s : State) : Host.Outcome State Fault Refusal :=
  .next (panelStep s.cfg.opc.pwrctlA (some s.cfg.initParams.pwrctlA) 0 s)

/-- Step 7, R137. -/
def execPwrctlB (s : State) : Host.Outcome State Fault Refusal :=
  .next (panelStep s.cfg.opc.pwrctlB (some s.cfg.initParams.pwrctlB) 0 s)

/-- Step 8, R138. -/
def execPwrctlC (s : State) : Host.Outcome State Fault Refusal :=
  .next (panelStep s.cfg.opc.pwrctlC (some s.cfg.initParams.pwrctlC) 0 s)

/-- Step 9, R139. -/
def execPwrctlD (s : State) : Host.Outcome State Fault Refusal :=
  .next (panelStep s.cfg.opc.pwrctlD (some s.cfg.initParams.pwrctlD) 0 s)

/-- Step 10, R140. -/
def execVmctr1 (s : State) : Host.Outcome State Fault Refusal :=
  .next (panelStep s.cfg.opc.vmctr1 (some s.cfg.initParams.vmctr1) 0 s)

/-- Step 11, R141. -/
def execInvon (s : State) : Host.Outcome State Fault Refusal :=
  .next (panelStep s.cfg.opc.invon none 0 s)

/-- Step 12, R142. -/
def execMadctl (s : State) : Host.Outcome State Fault Refusal :=
  .next (panelStep s.cfg.opc.madctl (some s.cfg.initParams.madctl) 0 s)

/-- Step 13, R143. -/
def execColmod (s : State) : Host.Outcome State Fault Refusal :=
  .next (panelStep s.cfg.opc.colmod (some s.cfg.initParams.colmod) 0 s)

/-- Step 14, R144. -/
def execCaset (s : State) : Host.Outcome State Fault Refusal :=
  .next (panelStep s.cfg.opc.caset (some s.cfg.winC) 0 s)

/-- Step 15, R145. -/
def execRaset (s : State) : Host.Outcome State Fault Refusal :=
  .next (panelStep s.cfg.opc.raset (some s.cfg.winR) 0 s)

/-- Step 16, R146. -/
def execGmctrp1 (s : State) : Host.Outcome State Fault Refusal :=
  .next (panelStep s.cfg.opc.gmctrp1 (some s.cfg.initParams.gmctrp1) 0 s)

/-- Step 17, R147. -/
def execGmctrn1 (s : State) : Host.Outcome State Fault Refusal :=
  .next (panelStep s.cfg.opc.gmctrn1 (some s.cfg.initParams.gmctrn1) 0 s)

/-- Step 18, R148. -/
def execNoron (s : State) : Host.Outcome State Fault Refusal :=
  .next (panelStep s.cfg.opc.noron none 100 s)

/-- Step 19, R149. -/
def execDispon (s : State) : Host.Outcome State Fault Refusal :=
  .next (panelStep s.cfg.opc.dispon none 100 s)

end Sys2Proof.Machine
end

