-- ==== Sys2Proof/Machine/Dispatch.lean ====
section
/-! DEFINITION. One arm per instruction, each one call of the instruction's meaning. -/

namespace Sys2Proof.Machine

/-- The meaning of an instruction. -/
def exec (i : Instr) (s : State) : Host.Outcome State Fault Refusal :=
  match i with
  | .init auto => Sys2Proof.Machine.execInit auto s
  | .command opcode data => Sys2Proof.Machine.execCommand opcode data s
  | .update dontBlock => Sys2Proof.Machine.execUpdate dontBlock s
  | .setBacklight brightness => Sys2Proof.Machine.execSetBacklight brightness s
  | .getBus => Sys2Proof.Machine.execGetBus s
  | .getCs => Sys2Proof.Machine.execGetCs s
  | .getDc => Sys2Proof.Machine.execGetDc s
  | .getSck => Sys2Proof.Machine.execGetSck s
  | .getMosi => Sys2Proof.Machine.execGetMosi s
  | .getMiso => Sys2Proof.Machine.execGetMiso s
  | .getBl => Sys2Proof.Machine.execGetBl s
  | .getVsync => Sys2Proof.Machine.execGetVsync s
  | .reservedOp0 x => Sys2Proof.Machine.execReservedOp0 x s
  | .reservedOp5 x => Sys2Proof.Machine.execReservedOp5 x s
  | .reservedOp6 x => Sys2Proof.Machine.execReservedOp6 x s
  | .reservedOp7 x => Sys2Proof.Machine.execReservedOp7 x s
  | .swreset => Sys2Proof.Machine.execSwreset s
  | .slpout => Sys2Proof.Machine.execSlpout s
  | .frmctr1 => Sys2Proof.Machine.execFrmctr1 s
  | .frmctr2 => Sys2Proof.Machine.execFrmctr2 s
  | .frmctr3 => Sys2Proof.Machine.execFrmctr3 s
  | .invctr => Sys2Proof.Machine.execInvctr s
  | .pwrctlA => Sys2Proof.Machine.execPwrctlA s
  | .pwrctlB => Sys2Proof.Machine.execPwrctlB s
  | .pwrctlC => Sys2Proof.Machine.execPwrctlC s
  | .pwrctlD => Sys2Proof.Machine.execPwrctlD s
  | .vmctr1 => Sys2Proof.Machine.execVmctr1 s
  | .invon => Sys2Proof.Machine.execInvon s
  | .madctl => Sys2Proof.Machine.execMadctl s
  | .colmod => Sys2Proof.Machine.execColmod s
  | .caset => Sys2Proof.Machine.execCaset s
  | .raset => Sys2Proof.Machine.execRaset s
  | .gmctrp1 => Sys2Proof.Machine.execGmctrp1 s
  | .gmctrn1 => Sys2Proof.Machine.execGmctrn1 s
  | .noron => Sys2Proof.Machine.execNoron s
  | .dispon => Sys2Proof.Machine.execDispon s
  | .ramwr => Sys2Proof.Machine.execRamwr s

end Sys2Proof.Machine
end

