-- ==== Sys2Proof/Machine/Fetch.lean ====
section
/-! DEFINITION. Where a step finds its instruction, how one is placed there, and what a step does.

A request is fetched from the words the host offers on the request port (spec/30_encoding.md R70). While
INIT's sequence runs, the panel command is fetched from the init ROM at the step counter
(spec/10_state.md R30). UPDATE's write-memory command is due once its checks have passed (R160). -/

namespace Sys2Proof.Machine

/-- The words the host offers before its next framebuffer store. -/
def offeredWords : List HostAct → List Word
  | .offer w :: acts => w :: offeredWords acts
  | _ => []

/-- The request the port offers, if there are enough words for it. -/
def offeredRequest (s : State) : Decoded := decode (.req (offeredWords s.host))

/-- Accepting a request of `n` words: they are taken and the port is busy (R70, R74). -/
def acceptRequest (n : Nat) (s : State) : State := { s with host := s.host.drop n, busy := true }

/-- The panel command the sequencer is about to emit (R30). -/
def sequencedCommand (s : State) : Option Instr := (romEntry s).map (fun e => Instr.ofSlot e.slot)

/-- The ROM index of a panel command, in the order of spec/41_init_sequencer.md R124. -/
def romIndex : Instr → Option Nat
  | .swreset => some 0
  | .slpout => some 1
  | .frmctr1 => some 2
  | .frmctr2 => some 3
  | .frmctr3 => some 4
  | .invctr => some 5
  | .pwrctlA => some 6
  | .pwrctlB => some 7
  | .pwrctlC => some 8
  | .pwrctlD => some 9
  | .vmctr1 => some 10
  | .invon => some 11
  | .madctl => some 12
  | .colmod => some 13
  | .caset => some 14
  | .raset => some 15
  | .gmctrp1 => some 16
  | .gmctrn1 => some 17
  | .noron => some 18
  | .dispon => some 19
  | .init _ | .command _ _ | .update _ | .setBacklight _ => none
  | .getBus | .getCs | .getDc | .getSck | .getMosi | .getMiso | .getBl | .getVsync => none
  | .reservedOp0 _ | .reservedOp5 _ | .reservedOp6 _ | .reservedOp7 _ | .ramwr => none

/-- The block inside INIT, about to run step `k` of the sequence. -/
def atSequenceStep (k : Nat) (s : State) : State :=
  { s with busy := true, phase := .seq, seqPc := BitVec.ofNat 8 k, ramwrDue := false }

/-- The block inside UPDATE, about to run its write-memory frame. -/
def atTransfer (s : State) : State := { s with busy := true, phase := .frame, ramwrDue := true }

/-- The block ready for a request, with these words the next the host offers. -/
def atRequest (ws : List Word) (s : State) : State :=
  { s with busy := false, phase := .idle, ramwrDue := false, host := ws.map .offer ++ s.host }

/-- The state whose next step fetches the instruction of `nbits` bits `w` (log entry 10). -/
def placeCode (s : State) (nbits w : Nat) : State :=
  if nbits = 8 then
    match decodeTableWord nbits w with
    | some .ramwr => atTransfer s
    | some i =>
      match romIndex i with
      | some k => atSequenceStep k s
      | none => s
    | none => s
  else atRequest (tableWords nbits w) s

/-! ## What a step does -/

/-- A step with the request port ready (R70, R77, R221). Log entries 8, 11 and 12. -/
def stepReady (s : State) : Host.Outcome State Fault Refusal :=
  match s.host with
  | [] => .next s
  | .store a b :: acts => .next (hostStore a b { s with host := acts })
  | .offer _ :: _ =>
    match offeredRequest s with
    | .instr i n => exec i (acceptRequest n s)
    | .illegal _ => .next (raiseIllegal (acceptRequest 1 s))
    | .incomplete => .next s

/-- A step inside INIT's sequence: the panel command at the step counter, or the end of INIT (R30, R120). -/
def stepSequence (s : State) : Host.Outcome State Fault Refusal :=
  match sequencedCommand s with
  | some i => exec i s
  | none => .next (finishInit s)

/-- A step inside a request. Log entries 8, 16 and 22. -/
def stepBusy (s : State) : Host.Outcome State Fault Refusal :=
  match s.phase with
  | .seq => stepSequence s
  | .delay => stepSequence s
  | .frame => if s.ramwrDue then exec .ramwr s else .next s
  | .resp => .next (endUpdate s)
  | .idle => .refused .insideRequest
  | .setup => .refused .insideRequest

end Sys2Proof.Machine
end

