-- ==== Sys2Proof/Machine/Step.lean ====
section
/-! DEFINITION. One step of the machine.

With the request port ready, a step is the host's next act: a store to the framebuffer, or a request,
which runs to completion (spec/20_memory.md R61). With nothing to do, or with only part of a COMMAND
offered, the block waits. With the port busy, the block is inside INIT or UPDATE and runs its next
panel command, or it hangs at a byte the bus never accepts (R58). -/

namespace Sys2Proof.Machine

/-- One step. -/
def step (s : State) : Host.Outcome State Fault Refusal :=
  if s.busy then stepBusy s else stepReady s

/-- `s` with the instruction of `nbits` bits `w` placed where the next step fetches it. -/
def State.withFetchWord (s : State) (nbits w : Nat) : State := placeCode s nbits w

end Sys2Proof.Machine
end

