-- ==== Sys2Proof/Machine/Observe.lean ====
section
/-! DEFINITION. What is observed of the block: the form of a frame in events (spec/30_encoding.md R82),
the views of the trace (spec/10_state.md R41), the end of a run and its observation (R42). -/

namespace Sys2Proof.Machine

/-- The bracketed part of a frame: present exactly when the frame has a data phase (R82). -/
def dataEvents : Option (List Byte) → List Event
  | none => []
  | some ds => .dc .hi :: ds.map .tx

/-- A whole frame in events (R82). -/
def frameEvents (op : Byte) (src : Option (List Byte)) : List Event :=
  [.cs .lo, .dc .lo, .tx op] ++ dataEvents src ++ [.cs .hi]

/-- How many bytes a frame offers the bus. -/
def frameLength : Option (List Byte) → Nat
  | none => 1
  | some ds => 1 + ds.length

/-- The bus after it has answered `n` bytes. -/
def Bus.skip (n : Nat) (b : Bus) : Bus := { b with waits := b.waits.drop n }

/-- Whether an event belongs to the bus projection (R41). -/
def Event.onBus : Event → Bool
  | .cs _ | .dc _ | .tx _ | .delay _ => true
  | .busInit _ _ | .pinOut _ _ | .pinFn _ _ | .pinIn _ | .pwmInit _ _ | .pwmLevel _ | .resp _ => false

/-- Whether an event is a byte on the bus. -/
abbrev Event.isTx (e : Event) : Bool := e matches .tx _

/-- The length of a settle delay, where an event is one (R126). -/
def Event.delayMs : Event → Option Nat
  | .delay ms => some ms
  | .busInit _ _ | .pinOut _ _ | .pinFn _ _ | .pinIn _ | .pwmInit _ _ => none
  | .cs _ | .dc _ | .tx _ | .pwmLevel _ | .resp _ => none

/-- The bus projection of a trace: all that the panel can observe (R41). -/
def busProjection (es : List Event) : List Event := es.filter Event.onBus

/-- What a trace says of the lines and the PWM. -/
structure Lines where
  cs : Line
  dc : Line
  pwmOn : Bool
  pwmLevel : PwmLevel
deriving DecidableEq, Repr

/-- The line-level view, one event at a time (R41; the PWM after R33). -/
def Lines.after (c : Cfg) (v : Lines) : Event → Lines
  | .cs l => { v with cs := .at l }
  | .dc l => { v with dc := .at l }
  | .pinOut pin l =>
    if pin = c.pinDc then { v with dc := .at l }
    else if pin = c.pinCs then { v with cs := .at l } else v
  | .pwmInit _ _ => { v with pwmOn := true, pwmLevel := .unspec }
  | .pwmLevel l => { v with pwmLevel := .value l }
  | .busInit _ _ | .pinFn _ _ | .pinIn _ | .tx _ | .delay _ | .resp _ => v

/-- The line-level view of a trace that starts at reset (R32, R33, R41). -/
def linesOf (c : Cfg) (es : List Event) : Lines := es.foldl (Lines.after c) ⟨.z, .z, false, .unspec⟩

/-- The line registers of a state. -/
def State.lines (s : State) : Lines := ⟨s.csLine, s.dcLine, s.pwmOn, s.pwmLevel⟩

/-- The end of a run (R42). Whether a host with only framebuffer stores left has ended its run the spec
leaves open; here it has not. DESIGN CHOICE, log entry 26. -/
def runEnded (s : State) : Bool :=
  decide (s.phase = .idle) && !s.busy && s.host.isEmpty

/-- The observation at the end of a run (R42). -/
structure Observation where
  trace : List Event
  fault : Byte
  pwmLevel : PwmLevel
  csLine : Line
  dcLine : Line
deriving DecidableEq, Repr

/-- What is observed of a state (R42). -/
def observe (s : State) : Observation := ⟨s.trace, s.fault, s.pwmLevel, s.csLine, s.dcLine⟩

end Sys2Proof.Machine
end

