-- ==== Sys2Proof/Safety.lean ====
section
/-! DEFINITION. The terms statements use: the premises of a request that completes, the framing rule of
the bus as a scan of the trace, and the invariants of the machine. -/

namespace Sys2Proof.Machine

/-! ## Premises -/

/-- BUS_PROGRESS: the bus accepts every byte it will be offered, within the time limit if there is one
(spec/20_memory.md R58, spec/60_exceptions.md R226). -/
abbrev BusProgress (s : State) : Prop :=
  (∀ a ∈ s.bus.waits, a.inTime s.cfg.timeoutMs = true) ∧ s.bus.rest.inTime s.cfg.timeoutMs = true

/-- The block is initialised and has no fault (R225, R222). -/
abbrev Operational (s : State) : Prop := s.fault = codeOk ∧ s.initDone = true

/-- The block hangs at a byte the bus does not accept (R58). -/
abbrev Hung (s : State) : Prop := s.busy = true ∧ s.phase = .frame ∧ s.ramwrDue = false

/-- `n` steps one after another, up to the first stop. -/
def stepTimes : Nat → State → Host.Outcome State Fault Refusal
  | 0, s => .next s
  | n + 1, s =>
    match step s with
    | .next t => stepTimes n t
    | .fault r => .fault r
    | .refused r => .refused r

/-! ## The framing rule (spec/40_bus_transport.md R100 to R102) -/

/-- Where the trace stands with respect to a frame. -/
inductive FramePos where
  | outside | asserted | commandLine | opcodeSent | dataLine
deriving DecidableEq, Repr

/-- Which event may come next. Inside a frame only that frame's own `Dc` and `Tx` events may (R102). A
frame ends after its opcode or its data bytes; E_TRANSPORT may end it earlier (R226). -/
def FramePos.next : FramePos → Event → Option FramePos
  | .outside, .cs .lo => some .asserted
  | .outside, .cs .hi => none
  | .outside, .dc _ => none
  | .outside, .tx _ => none
  | .outside, _ => some .outside
  | .asserted, .dc .lo => some .commandLine
  | .commandLine, .tx _ => some .opcodeSent
  | .commandLine, .cs .hi => some .outside
  | .opcodeSent, .dc .hi => some .dataLine
  | .opcodeSent, .cs .hi => some .outside
  | .dataLine, .tx _ => some .dataLine
  | .dataLine, .cs .hi => some .outside
  | _, _ => none

/-- A scan of events from a position; none where an event breaks the framing rule. -/
def scanFrom (p : FramePos) (es : List Event) : Option FramePos := es.foldlM FramePos.next p

/-! ## Invariants -/

/-- The configuration is the one reset computed, and a configuration that fails its check has left a
fault (spec/10_state.md R22, R23, R27; spec/60_exceptions.md R223). -/
abbrev ConfigInv (s : State) : Prop :=
  s.cfg = Cfg.load s.cfg.toParams ∧ (s.fault = codeOk → cfgCheck s.cfg.toParams = codeOk)

/-- A state between two steps: idle and ready, or inside a request that runs without a fault (R29, R225). -/
abbrev PhaseInv (s : State) : Prop :=
  (s.busy = false → s.phase = .idle ∧ s.ramwrDue = false) ∧
  (s.busy = true → s.fault = codeOk ∧ s.phase ≠ .idle ∧ s.phase ≠ .setup ∧
    (s.ramwrDue = true → s.phase = .frame))

/-- The trace obeys the framing rule, and a frame is open only where the block hangs (R101, R102). -/
abbrev FramingInv (s : State) : Prop :=
  scanFrom .outside s.trace = some .outside ∨
  (Hung s ∧ (scanFrom .outside s.trace).isSome = true)

/-- The line registers hold what the trace last drove them to (R32, R33, R41). -/
abbrev LinesInv (s : State) : Prop := s.lines = linesOf s.cfg s.trace

/-- Once the block is initialised, and while INIT runs its sequence, CS is deasserted between two steps
unless the block hangs inside a frame (R101, R122). -/
abbrev ChipSelectInv (s : State) : Prop :=
  (s.initDone = true ∨ s.busy = true) → ¬ Hung s → s.csLine = .at .hi

/-- The framebuffer space keeps its canonical form. -/
abbrev MemoryInv (s : State) : Prop := s.mem.wf

end Sys2Proof.Machine
end

