-- ==== Sys2Proof/Certificates/Slice0/Obligations.lean ====
section
/-! DEFINITION. The statements about the block. Each says which rule of spec/ it formalises. Where a
latch value or the DC level after setup is free, the statement is about some value of it. -/

open Sys2Proof Sys2Proof.Machine

/-! ## Reset and configuration -/

/-- R43: what reset leaves, for every configuration and whatever the block held before. The latches, the
step counter and the model's own `ramwrDue` hold some value. The derived values of a configuration that fails
its check are log entry 18's, and that reset keeps memory and the other agents is log entry 25's. -/
def Obligations.ResetLeavesSpecValues : Prop :=
  ∀ (p : Params) (s : State), ∃ (pc op : Byte) (d : List Byte) (x : Word) (due : Bool),
    State.resetBlock p s = { s with
      cfg := { p with
        offC := BitVec.ofInt 8 (((p.ctrlW.toNat : Int) - p.width.toNat) / 2)
        offR := BitVec.ofInt 8 (((p.ctrlH.toNat : Int) - p.height.toNat) / 2)
        endC := p.width.toNat + ((p.ctrlW.toNat : Int) - p.width.toNat) / 2 - 1
        endR := p.height.toNat + ((p.ctrlH.toNat : Int) - p.height.toNat) / 2 - 1
        winC := [0, BitVec.ofInt 8 (((p.ctrlW.toNat : Int) - p.width.toNat) / 2), 0,
          BitVec.ofInt 8 (p.width.toNat + ((p.ctrlW.toNat : Int) - p.width.toNat) / 2 - 1)]
        winR := [0, BitVec.ofInt 8 (((p.ctrlH.toNat : Int) - p.height.toNat) / 2), 0,
          BitVec.ofInt 8 (p.height.toNat + ((p.ctrlH.toNat : Int) - p.height.toNat) / 2 - 1)]
        nPix := p.width.toNat * p.height.toNat
        nBytes := 2 * (p.width.toNat * p.height.toNat) }
      fault := cfgCheck p, initDone := false, busy := false, phase := .idle,
      csLine := .z, dcLine := .z, pwmOn := false, pwmLevel := .unspec, trace := [],
      ramwrDue := due, seqPc := pc, opR := op, dataR := d, idx := x }

/-- R24, R25, on the reference configuration of spec/95 section 0: the source's worked example. -/
def Obligations.ReferenceGeometryMatchesTheExample : Prop :=
  State.reset.fault = 0 ∧ State.reset.cfg.offC = 2 ∧ State.reset.cfg.offR = 17 ∧
    State.reset.cfg.winC = [0, 2, 0, 129] ∧ State.reset.cfg.winR = [0, 17, 0, 144] ∧
    State.reset.cfg.nBytes = 32768

/-- R24, R25, R26: in a configuration that passes its check, the offsets centre the window, no bit of a
window is lost, and a transfer has at most 131072 bytes. -/
def Obligations.ValidConfigurationHasExactWindows : Prop :=
  ∀ p : Params, cfgCheck p = codeOk →
    let c := Cfg.load p
    let w := p.width.toNat
    let h := p.height.toNat
    let oc := (p.ctrlW.toNat - w) / 2
    let oh := (p.ctrlH.toNat - h) / 2
    w ≤ 256 ∧ h ≤ 256 ∧ w + oc - 1 ≤ 255 ∧ h + oh - 1 ≤ 255 ∧
    c.offC.toNat = oc ∧ c.offR.toNat = oh ∧
    c.winC.map BitVec.toNat = [0, oc, 0, w + oc - 1] ∧ c.winR.map BitVec.toNat = [0, oh, 0, h + oh - 1] ∧
    c.nBytes = 2 * w * h ∧ c.nBytes ≤ 131072

/-- The pins of a configuration, mandatory first (R27). -/
def pinList (p : Params) : List Word :=
  [p.pinCs, p.pinDc, p.pinSck, p.pinMosi, p.pinMiso, p.pinBl, p.pinVsync]

/-- The geometry condition of R27. -/
def GeometryLegal (p : Params) : Prop :=
  1 ≤ p.width.toNat ∧ p.width.toNat ≤ p.ctrlW.toNat ∧ 1 ≤ p.height.toNat ∧ p.height.toNat ≤ p.ctrlH.toNat ∧
  p.width.toNat + (p.ctrlW.toNat - p.width.toNat) / 2 - 1 ≤ 255 ∧
  p.height.toNat + (p.ctrlH.toNat - p.height.toNat) / 2 - 1 ≤ 255

/-- The pin condition of R27. -/
def PinsLegal (p : Params) : Prop :=
  (∀ q ∈ [p.pinCs, p.pinDc, p.pinSck, p.pinMosi], 0 ≤ q.toInt ∧ q.toInt ≤ (p.numPins.toNat : Int) - 1) ∧
  (∀ q ∈ [p.pinMiso, p.pinBl, p.pinVsync],
    q.toInt = -1 ∨ (0 ≤ q.toInt ∧ q.toInt ≤ (p.numPins.toNat : Int) - 1)) ∧
  (pinList p).Pairwise (fun q r => q.toInt = -1 ∨ q.toInt ≠ r.toInt)

/-- The framebuffer condition of R27. -/
def FramebufferLegal (p : Params) : Prop :=
  p.fbLen.toNat = p.width.toNat * p.height.toNat ∧ p.fbBase.toNat + 2 * p.fbLen.toNat ≤ 2 ^ 32

/-- R27: reset checks the configuration, takes the first condition that fails, geometry before pins
before framebuffer, and leaves its code in `st.fault`. -/
def Obligations.ConfigCheckTakesFirstFailure : Prop :=
  ∀ (p : Params) (s : State),
    let t := State.resetBlock p s
    (¬ GeometryLegal p → t.fault = 0x01) ∧
    (GeometryLegal p → ¬ PinsLegal p → t.fault = 0x02) ∧
    (GeometryLegal p → PinsLegal p → ¬ FramebufferLegal p → t.fault = 0x03) ∧
    (GeometryLegal p → PinsLegal p → FramebufferLegal p → t.fault = 0x00)

/-! ## Encoding -/

/-- Spec/95 section 2.1 and the opcode table: words written out from the encodings decode to what they
stand for. -/
def Obligations.WrittenWordsDecode : Prop :=
  decode (.req [0x10000001]) = .instr (.init true) 1 ∧
  decode (.req [0x20000029]) = .instr (.command 0x29 none) 1 ∧
  decode (.req [0x200001E0, 5, 0x04030201, 0xAABBCC05]) =
    .instr (.command 0xE0 (some [1, 2, 3, 4, 5])) 4 ∧
  decode (.req [0x20000100, 0]) = .instr (.command 0 (some [])) 2 ∧
  decode (.req [0x30000001]) = .instr (.update true) 1 ∧
  decode (.req [0x400000FF]) = .instr (.setBacklight 255) 1 ∧
  decode (.req [0xE0000000]) = .instr .getBl 1 ∧
  decode (.req [0x50000000]) = .instr (.reservedOp5 0) 1 ∧
  decode (.req [0x10000002]) = .illegal .initReservedBits ∧
  decode (.panel 0xE0) = .instr .gmctrp1 1 ∧ decode (.panel 0x2C) = .instr .ramwr 1

/-- R71, R73, R78, R85: decoding what the encoder writes, with any words after it, gives the
instruction back with every operand, and takes exactly its words. -/
def Obligations.DecodeInvertsEncode : Prop :=
  ∀ (i : Instr) (rest : List Word), i.WellFormed →
    decode ((encode i).followedBy rest) = .instr i (encode i).size

/-- R71, R77: where a request is decoded, the instruction is well formed, and but for COMMAND's data words
(whose padding R73 ignores) encoding it gives back the very words taken. -/
def Obligations.EncodeInvertsDecode : Prop :=
  ∀ (ws : List Word) (i : Instr) (n : Nat), decode (.req ws) = .instr i n →
    i.WellFormed ∧ n ≤ ws.length ∧
    ((∀ op d, i ≠ .command op (some d)) → encode i = .req (ws.take n))

/-- A reserved operation, by the top nibble (R77). -/
def ReservedOp (w : Word) : Prop :=
  w.toNat / 2 ^ 28 = 0 ∨ w.toNat / 2 ^ 28 = 5 ∨ w.toNat / 2 ^ 28 = 6 ∨ w.toNat / 2 ^ 28 = 7

/-- A word of an operation that acts or answers, with a bit set that the table of R71 marks 0. -/
def ReservedBitSet (w : Word) : Prop :=
  ((w.toNat / 2 ^ 28 = 1 ∨ w.toNat / 2 ^ 28 = 3) ∧ 2 ≤ w.toNat % 2 ^ 28) ∨
  (w.toNat / 2 ^ 28 = 2 ∧ 2 ^ 9 ≤ w.toNat % 2 ^ 28) ∨
  (w.toNat / 2 ^ 28 = 4 ∧ 2 ^ 8 ≤ w.toNat % 2 ^ 28) ∨
  (8 ≤ w.toNat / 2 ^ 28 ∧ 1 ≤ w.toNat % 2 ^ 28)

/-- R73: a first word of operation 2 with no reserved bit set decodes to COMMAND with opcode `W[7:0]`. With
bit 8 clear it takes no other word. With bit 8 set, a length word `L` and at least `ceil(L/4)` words after it,
whatever they hold, it has `L` data bytes, byte `k` being bits `[8(k mod 4)+7 : 8(k mod 4)]` of data word
`k // 4`. And nothing else after a first word and a length word decodes to a COMMAND with data. -/
def Obligations.CommandDataBytesComeFromTheWords : Prop :=
  ∀ (w : Word) (ws : List Word),
    (w.toNat / 2 ^ 28 = 2 → ¬ ReservedBitSet w →
      (w.toNat / 2 ^ 8 % 2 = 0 → decode (.req (w :: ws)) = .instr (.command (BitVec.ofNat 8 w.toNat) none) 1) ∧
      ∀ (len : Word) (vs : List Word), ws = len :: vs → w.toNat / 2 ^ 8 % 2 = 1 →
        (len.toNat + 3) / 4 ≤ vs.length →
        ∃ d : List Byte,
          decode (.req (w :: ws)) =
            .instr (.command (BitVec.ofNat 8 w.toNat) (some d)) (2 + (len.toNat + 3) / 4) ∧
          d.length = len.toNat ∧
          ∀ k, k < len.toNat →
            d[k]? = some (BitVec.ofNat 8 ((vs.getD (k / 4) 0).toNat / 2 ^ (8 * (k % 4))))) ∧
    ∀ (op : Byte) (d : List Byte) (n : Nat), decode (.req (w :: ws)) = .instr (.command op (some d)) n →
      w.toNat / 2 ^ 28 = 2 ∧ ¬ ReservedBitSet w ∧ w.toNat / 2 ^ 8 % 2 = 1 ∧
      ∃ (len : Word) (vs : List Word), ws = len :: vs ∧ (len.toNat + 3) / 4 ≤ vs.length

/-- R78: the length of a request, from its first word and its length word. -/
def Obligations.RequestLengthFollowsTheFirstWord : Prop :=
  ∀ (w : Word) (ws : List Word) (i : Instr) (n : Nat), decode (.req (w :: ws)) = .instr i n →
    n = if w.toNat / 2 ^ 28 = 2 ∧ w.toNat / 2 ^ 8 % 2 = 1
      then 2 + ((ws.headD 0).toNat + 3) / 4 else 1

/-- R77: the decoder refuses exactly the words with a reserved bit set; a reserved operation decodes to
its own row, whatever its other bits. -/
def Obligations.DecoderRefusesExactlyReservedBits : Prop :=
  ∀ (w : Word) (rest : List Word),
    ((∃ e, decode (.req (w :: rest)) = .illegal e) ↔ ReservedBitSet w) ∧
    (w.toNat / 2 ^ 28 = 0 → decode (.req (w :: rest)) = .instr (.reservedOp0 (BitVec.ofNat 28 w.toNat)) 1) ∧
    (w.toNat / 2 ^ 28 = 5 → decode (.req (w :: rest)) = .instr (.reservedOp5 (BitVec.ofNat 28 w.toNat)) 1) ∧
    (w.toNat / 2 ^ 28 = 6 → decode (.req (w :: rest)) = .instr (.reservedOp6 (BitVec.ofNat 28 w.toNat)) 1) ∧
    (w.toNat / 2 ^ 28 = 7 → decode (.req (w :: rest)) = .instr (.reservedOp7 (BitVec.ofNat 28 w.toNat)) 1)

/-! ## Steps -/

/-- R70, R74: a ready block runs the request its port offers, with the request's words taken and the
port busy. -/
def Obligations.ReadyBlockRunsTheOfferedRequest : Prop :=
  ∀ (s : State) (w : Word) (acts : List HostAct) (i : Instr) (n : Nat),
    s.busy = false → s.host = .offer w :: acts →
    decode (.req (offeredWords s.host)) = .instr i n →
    step s = exec i { s with host := s.host.drop n, busy := true }

/-- R20, R42, R62: a ready block with nothing offered, or with only part of a request offered, waits; a
framebuffer store of the host takes effect on that byte alone. -/
def Obligations.ReadyBlockWaitsForTheHost : Prop :=
  ∀ s : State, s.busy = false →
    (s.host = [] → step s = .next s) ∧
    (∀ w acts, s.host = .offer w :: acts → decode (.req (offeredWords s.host)) = .incomplete →
      step s = .next s) ∧
    (∀ a b acts, s.host = .store a b :: acts → s.mem.wf →
      ∃ m, step s = .next { s with host := acts, mem := m } ∧ m.wf ∧
        m.read a.toNat = b ∧ ∀ x, x ≠ a.toNat → m.read x = s.mem.read x)

/-- R42: where a run has ended nothing more happens, and the observation stays. -/
def Obligations.EndedRunStaysEnded : Prop :=
  ∀ s : State, runEnded s = true → ∃ t, step s = .next t ∧ observe t = observe s ∧ runEnded t = true

/-- R30, R160: inside INIT a step runs the panel command the step counter points at in the init ROM;
inside UPDATE it runs the write-memory command when that is due. -/
def Obligations.BusyBlockRunsItsOwnCommand : Prop :=
  ∀ s : State, s.busy = true →
    (∀ e, (s.phase = .seq ∨ s.phase = .delay) → (initRom s.cfg)[s.seqPc.toNat]? = some e →
      step s = exec (.ofSlot e.slot) s) ∧
    (s.phase = .frame → s.ramwrDue = true → step s = exec .ramwr s)

/-- R30, R42, R58, R120, R160: past its last step INIT completes, after its frame UPDATE responds, and a
block that hangs stays as it is. -/
def Obligations.BusyBlockEndsOrHangs : Prop :=
  ∀ s : State, s.busy = true →
    ((s.phase = .seq ∨ s.phase = .delay) → 20 ≤ s.seqPc.toNat →
      ∃ pc o x n, step s = .next { s with
        initDone := true, busy := false, phase := .idle, seqPc := pc, opR := o, idx := x, draws := n,
        trace := s.trace ++ [.resp 0] }) ∧
    (s.phase = .resp →
      ∃ o x n, step s = .next { s with
        busy := false, phase := .idle, opR := o, idx := x, draws := n, trace := s.trace ++ [.resp 0] }) ∧
    (s.phase = .frame → s.ramwrDue = false → step s = .next s)

/-- R77, R221, R224: a word that is illegal, by its operation or by a reserved bit, is taken alone; the
block emits only the response 5, and keeps a fault it already has. -/
def Obligations.IllegalWordRaisesIllegalRequest : Prop :=
  ∀ (s : State) (w : Word) (acts : List HostAct),
    s.busy = false → s.host = .offer w :: acts → (ReservedOp w ∨ ReservedBitSet w) →
    step s = .next { s with
      busy := false, phase := .idle, host := acts,
      fault := if s.fault = 0 then 5 else s.fault,
      trace := s.trace ++ [.resp 5] }

/-- R77, R221: the four reserved operations raise E_ILLEGAL_REQ, whatever their other bits. -/
def Obligations.ReservedOperationsRaiseIllegalRequest : Prop :=
  ∀ (x : BitVec 28) (i : Instr),
    i = .reservedOp0 x ∨ i = .reservedOp5 x ∨ i = .reservedOp6 x ∨ i = .reservedOp7 x →
    ∀ s : State, exec i s = .next { s with
      busy := false, phase := .idle, fault := if s.fault = 0 then 5 else s.fault,
      trace := s.trace ++ [.resp 5] }

/-! ## Checks before a request's own work -/

/-- R225: a block with a fault answers INIT, COMMAND, UPDATE and SET_BACKLIGHT with the stored code and
changes nothing else. -/
def Obligations.FaultedBlockAnswersStoredCode : Prop :=
  ∀ (s : State) (i : Instr), s.fault ≠ 0 →
    ((∃ a, i = .init a) ∨ (∃ op d, i = .command op d) ∨ (∃ b, i = .update b) ∨
      (∃ b, i = .setBacklight b)) →
    exec i s = .next { s with
      busy := false, phase := .idle, trace := s.trace ++ [.resp (s.fault.setWidth 32)] }

/-- R222, R224: before any INIT has completed, COMMAND, UPDATE and SET_BACKLIGHT raise E_NOT_INIT. -/
def Obligations.RequestBeforeInitRaisesNotInit : Prop :=
  ∀ (s : State) (i : Instr), s.fault = 0 → s.initDone = false →
    ((∃ op d, i = .command op d) ∨ (∃ b, i = .update b) ∨ (∃ b, i = .setBacklight b)) →
    exec i s = .next { s with
      busy := false, phase := .idle, fault := 4, trace := s.trace ++ [.resp 4] }

/-- R161, R224: UPDATE with a framebuffer size that does not match raises E_CONFIG_FB and sends nothing. -/
def Obligations.UpdateSizeMismatchRaisesConfigFault : Prop :=
  ∀ (s : State) (b : Bool), Operational s →
    s.cfg.fbLen.toNat ≠ s.cfg.width.toNat * s.cfg.height.toNat →
    exec (.update b) s = .next { s with
      busy := false, phase := .idle, fault := 3, trace := s.trace ++ [.resp 3] }

/-! ## COMMAND and UPDATE -/

/-- R82, R100, R104: COMMAND sends one frame, whatever the opcode, with a data phase exactly when it has
data, and then responds 0. Nothing else changes but the latches. -/
def Obligations.CommandSendsOneFrame : Prop :=
  ∀ (s : State) (op : Byte) (data : Option (List Byte)), Operational s → BusProgress s →
    ∃ o d x n, exec (.command op data) s = .next { s with
      busy := false, phase := .idle, csLine := .at .hi,
      dcLine := .at (match data with | none => .lo | some _ => .hi),
      trace := s.trace ++ [.cs .lo, .dc .lo, .tx op] ++
        (match data with | none => [] | some ds => .dc .hi :: ds.map .tx) ++ [.cs .hi, .resp 0],
      bus := s.bus.skip (frameLength data), opR := o, dataR := d, idx := x, draws := n }

/-- R54, R57, R160, R164: UPDATE sends the write-memory opcode and then the `2·width·height` framebuffer
bytes in ascending address order, and no more, in one frame; it leaves every byte of memory as it was. The
model's own `ramwrDue` holds some value. -/
def Obligations.UpdateStreamsTheFramebuffer : Prop :=
  ∀ (s : State) (b : Bool), ConfigInv s → Operational s → BusProgress s → s.foreign = [] →
    ∃ o x n due, exec (.update b) s = .next { s with
      busy := false, phase := .idle, csLine := .at .hi, dcLine := .at .hi, ramwrDue := due,
      trace := s.trace ++ [.cs .lo, .dc .lo, .tx s.cfg.opc.ramwr, .dc .hi] ++
        (List.range (2 * (s.cfg.width.toNat * s.cfg.height.toNat))).map
          (fun j => .tx (s.mem.read (s.cfg.fbBase.toNat + j))) ++ [.cs .hi, .resp 0],
      bus := s.bus.skip (1 + 2 * (s.cfg.width.toNat * s.cfg.height.toNat)),
      opR := o, idx := x, draws := n }

/-- R62: where another agent writes the framebuffer during an UPDATE, each byte sent is the old or the
new value of that byte, and the agent's writes stand afterwards. -/
def Obligations.RacedUpdateSendsOldOrNewBytes : Prop :=
  ∀ (s : State) (b : Bool), ConfigInv s → Operational s → BusProgress s →
    ∃ bytes : List Byte,
      bytes.length = 2 * (s.cfg.width.toNat * s.cfg.height.toNat) ∧
      (∀ j v, bytes[j]? = some v →
        v = s.mem.read (s.cfg.fbBase.toNat + j) ∨
        v = (s.mem.writeAll s.foreign).read (s.cfg.fbBase.toNat + j)) ∧
      ∃ o x n, exec (.update b) s = .next { s with
        busy := false, phase := .idle, csLine := .at .hi, dcLine := .at .hi, ramwrDue := false,
        trace := s.trace ++ [.cs .lo, .dc .lo, .tx s.cfg.opc.ramwr, .dc .hi] ++ bytes.map .tx ++
          [.cs .hi, .resp 0],
        bus := s.bus.skip (1 + bytes.length), mem := s.mem.writeAll s.foreign, foreign := [],
        opR := o, idx := x, draws := n }

/-- R162: `dont_block` has no effect. -/
def Obligations.DontBlockHasNoEffect : Prop :=
  ∀ s : State, exec (.update true) s = exec (.update false) s

/-- R160: the write-memory command of UPDATE, as the block's own step: the frame of UPDATE, after which the
response is left to return. -/
def Obligations.WriteMemoryCommandSendsTheFramebuffer : Prop :=
  ∀ s : State, ConfigInv s → s.fault = 0 → BusProgress s → s.foreign = [] →
    ∃ n, exec .ramwr s = .next { s with
      phase := .resp, csLine := .at .hi, dcLine := .at .hi, ramwrDue := false,
      trace := s.trace ++ [.cs .lo, .dc .lo, .tx s.cfg.opc.ramwr, .dc .hi] ++
        (List.range (2 * (s.cfg.width.toNat * s.cfg.height.toNat))).map
          (fun j => .tx (s.mem.read (s.cfg.fbBase.toNat + j))) ++ [.cs .hi],
      bus := s.bus.skip (1 + 2 * (s.cfg.width.toNat * s.cfg.height.toNat)),
      opR := s.cfg.opc.ramwr,
      idx := BitVec.ofNat 32 (2 * (s.cfg.width.toNat * s.cfg.height.toNat)), draws := n }

/-- R50, R60: no read outside the readable region is made. RAMWR stops exactly where its transfer would
make one (log entry 14: the stop is the model's). -/
def Obligations.TransferOutsideTheRegionStops : Prop :=
  ∀ s : State, exec .ramwr s = .fault .readOutsideFramebuffer ↔
    ¬ ∀ j, j < s.cfg.nBytes → readable s.cfg (s.cfg.fbBase.toNat + j) = true

/-! ## INIT -/

/-- An event of an optional pin: only where the pin is present (R122). -/
def eventIfPresent (pin : Word) (e : Event) : List Event := if pin.toInt = -1 then [] else [e]

/-- The events of `setup()`, with the DC level that the spec leaves open (R122). -/
def setupEvents (c : Cfg) (v : Level) : List Event :=
  [.busInit c.busId c.clockHz, .pinOut c.pinDc v, .pinOut c.pinCs .hi, .pinFn c.pinSck .spi,
    .pinFn c.pinMosi .spi] ++
  eventIfPresent c.pinMiso (.pinFn c.pinMiso .spi) ++
  eventIfPresent c.pinVsync (.pinIn c.pinVsync) ++
  eventIfPresent c.pinBl (.pwmInit c.pinBl c.pwmWrap)

/-- The twenty steps of R124: opcode byte, parameter bytes, delay. -/
def initSteps (c : Cfg) : List (Byte × Option (List Byte) × Nat) :=
  [(c.opc.swreset, none, 150), (c.opc.slpout, none, 500),
   (c.opc.frmctr1, some c.initParams.frmctr1, 0), (c.opc.frmctr2, some c.initParams.frmctr2, 0),
   (c.opc.frmctr3, some c.initParams.frmctr3, 0), (c.opc.invctr, some c.initParams.invctr, 0),
   (c.opc.pwrctlA, some c.initParams.pwrctlA, 0), (c.opc.pwrctlB, some c.initParams.pwrctlB, 0),
   (c.opc.pwrctlC, some c.initParams.pwrctlC, 0), (c.opc.pwrctlD, some c.initParams.pwrctlD, 0),
   (c.opc.vmctr1, some c.initParams.vmctr1, 0), (c.opc.invon, none, 0),
   (c.opc.madctl, some c.initParams.madctl, 0), (c.opc.colmod, some c.initParams.colmod, 0),
   (c.opc.caset, some c.winC, 0), (c.opc.raset, some c.winR, 0),
   (c.opc.gmctrp1, some c.initParams.gmctrp1, 0), (c.opc.gmctrn1, some c.initParams.gmctrn1, 0),
   (c.opc.noron, none, 100), (c.opc.dispon, none, 100)]

/-- The events of one step: its frame, and right after it its delay, where it has one (R126, R127). -/
def stepEvents (e : Byte × Option (List Byte) × Nat) : List Event :=
  frameEvents e.1 e.2.1 ++ (if e.2.2 = 0 then [] else [.delay e.2.2])

/-- The events of the whole sequence (R129). -/
def sequenceEvents (c : Cfg) : List Event := (initSteps c).flatMap stepEvents

/-- The bytes of the whole sequence. -/
def sequenceLength (c : Cfg) : Nat := ((initSteps c).map (fun e => frameLength e.2.1)).sum

/-- R121, R122, R128: INIT with `auto = 0` emits the events of setup and the response, sends no byte, and
marks the block initialised. -/
def Obligations.InitWithoutSequenceOnlySetsUp : Prop :=
  ∀ s : State, s.fault = 0 →
    ∃ v n, exec (.init false) s = .next { s with
      initDone := true, busy := false, phase := .idle, csLine := .at .hi, dcLine := .at v,
      pwmOn := if s.cfg.pinBl.toInt = -1 then s.pwmOn else true,
      pwmLevel := if s.cfg.pinBl.toInt = -1 then s.pwmLevel else .unspec,
      trace := s.trace ++ setupEvents s.cfg v ++ [.resp 0], draws := n }

/-- R120, R124, R129: INIT with `auto = 1` emits the events of setup, then the twenty frames with their
delays, in order and byte for byte, then the response, and marks the block initialised. -/
def Obligations.InitRunsTheWholeSequence : Prop :=
  ∀ s : State, s.fault = 0 → BusProgress s →
    ∃ v pc o x n, exec (.init true) s = .next { s with
      initDone := true, busy := false, phase := .idle, csLine := .at .hi, dcLine := .at .lo,
      pwmOn := if s.cfg.pinBl.toInt = -1 then s.pwmOn else true,
      pwmLevel := if s.cfg.pinBl.toInt = -1 then s.pwmLevel else .unspec,
      trace := s.trace ++ setupEvents s.cfg v ++ sequenceEvents s.cfg ++ [.resp 0],
      bus := s.bus.skip (sequenceLength s.cfg), seqPc := pc, opR := o, idx := x, draws := n }

/-- R121: a second INIT runs everything again; its events equal the first one's but for the DC level. -/
def Obligations.SecondInitRepeatsTheFirst : Prop :=
  ∀ s : State, s.fault = 0 → BusProgress s →
    ∃ t u v1 v2 es, exec (.init true) s = .next t ∧ exec (.init true) t = .next u ∧
      t.trace = s.trace ++ setupEvents s.cfg v1 ++ es ∧
      u.trace = t.trace ++ setupEvents s.cfg v2 ++ es ∧ t.initDone = true ∧ u.initDone = true

/-- R120, R30, R125, R226: INIT is its sequence run step by step: from setup, the step counter at 0, twenty
steps and the end. It holds also where the bus hangs the block; with a time limit, a late byte ends both
after the same, possibly fewer, steps. -/
def Obligations.InitIsItsStepsInOrder : Prop :=
  ∀ s : State, s.fault = 0 → s.busy = true → s.ramwrDue = false →
    ∃ n, n ≤ 21 ∧ (s.cfg.timeoutMs = none → n = 21) ∧
      exec (.init true) s = stepTimes n
        { setup { s with phase := .setup } with phase := .seq, seqPc := 0 }

/-- R160, R226: UPDATE is its write-memory command and its response, as two steps. It holds also where the
bus hangs the block; with a time limit, a late byte ends both after one step. -/
def Obligations.UpdateIsItsFrameThenItsResponse : Prop :=
  ∀ (s : State) (b : Bool), ConfigInv s → Operational s → s.busy = true →
    ∃ n, n ≤ 2 ∧ (s.cfg.timeoutMs = none → n = 2) ∧
      exec (.update b) s = stepTimes n { s with phase := .frame, ramwrDue := true }

/-- R150: where the bus accepts every byte and the parameter sets have the sizes of R123, INIT with
`auto = 1` appends 20 frames, their 20 opcode bytes and between 64 and 71 parameter bytes (65 with the reference
sets), and four delays that add up to 850 ms. -/
def Obligations.SequenceTotals : Prop :=
  ∀ s : State, ConfigInv s → s.fault = 0 → s.cfg.initParams.Legal → BusProgress s →
    ∃ t es, exec (.init true) s = .next t ∧ t.trace = s.trace ++ es ∧
      es.countP (fun e => e = .cs .lo) = 20 ∧ es.countP (fun e => e = .cs .hi) = 20 ∧
      20 + 64 ≤ es.countP Event.isTx ∧ es.countP Event.isTx ≤ 20 + 71 ∧
      (s.cfg.initParams = refInitParams → es.countP Event.isTx = 20 + 65) ∧
      es.filterMap Event.delayMs = [150, 500, 100, 100]

/-! ## The panel commands of the sequence -/

/-- An instruction that sends one panel command, waits its delay, and moves the step counter by one. -/
def SendsPanelCommand (i : Instr) (op : State → Byte) (src : State → Option (List Byte)) (ms : Nat) : Prop :=
  ∀ s : State, BusProgress s →
    exec i s = .next { s with
      phase := if ms = 0 then .seq else .delay, seqPc := s.seqPc + 1, opR := op s,
      idx := (match src s with | none => s.idx | some ds => BitVec.ofNat 32 ds.length),
      csLine := .at .hi, dcLine := .at (match src s with | none => .lo | some _ => .hi),
      bus := s.bus.skip (frameLength (src s)),
      trace := s.trace ++ frameEvents (op s) (src s) ++ (if ms = 0 then [] else [.delay ms]) }

/-- R130, R131, R141, R148, R149: the commands without parameters, with their settle delays. -/
def Obligations.CommandsWithoutParameters : Prop :=
  SendsPanelCommand .swreset (fun s => s.cfg.opc.swreset) (fun _ => none) 150 ∧
  SendsPanelCommand .slpout (fun s => s.cfg.opc.slpout) (fun _ => none) 500 ∧
  SendsPanelCommand .invon (fun s => s.cfg.opc.invon) (fun _ => none) 0 ∧
  SendsPanelCommand .noron (fun s => s.cfg.opc.noron) (fun _ => none) 100 ∧
  SendsPanelCommand .dispon (fun s => s.cfg.opc.dispon) (fun _ => none) 100

/-- R132 to R140, R142, R143: the commands with a fixed parameter set, and no delay. -/
def Obligations.CommandsWithFixedParameters : Prop :=
  SendsPanelCommand .frmctr1 (fun s => s.cfg.opc.frmctr1) (fun s => some s.cfg.initParams.frmctr1) 0 ∧
  SendsPanelCommand .frmctr2 (fun s => s.cfg.opc.frmctr2) (fun s => some s.cfg.initParams.frmctr2) 0 ∧
  SendsPanelCommand .frmctr3 (fun s => s.cfg.opc.frmctr3) (fun s => some s.cfg.initParams.frmctr3) 0 ∧
  SendsPanelCommand .invctr (fun s => s.cfg.opc.invctr) (fun s => some s.cfg.initParams.invctr) 0 ∧
  SendsPanelCommand .pwrctlA (fun s => s.cfg.opc.pwrctlA) (fun s => some s.cfg.initParams.pwrctlA) 0 ∧
  SendsPanelCommand .pwrctlB (fun s => s.cfg.opc.pwrctlB) (fun s => some s.cfg.initParams.pwrctlB) 0 ∧
  SendsPanelCommand .pwrctlC (fun s => s.cfg.opc.pwrctlC) (fun s => some s.cfg.initParams.pwrctlC) 0 ∧
  SendsPanelCommand .pwrctlD (fun s => s.cfg.opc.pwrctlD) (fun s => some s.cfg.initParams.pwrctlD) 0 ∧
  SendsPanelCommand .vmctr1 (fun s => s.cfg.opc.vmctr1) (fun s => some s.cfg.initParams.vmctr1) 0 ∧
  SendsPanelCommand .madctl (fun s => s.cfg.opc.madctl) (fun s => some s.cfg.initParams.madctl) 0 ∧
  SendsPanelCommand .colmod (fun s => s.cfg.opc.colmod) (fun s => some s.cfg.initParams.colmod) 0

/-- R144 to R147: the window commands send the windows reset computed, the gamma commands their tables. -/
def Obligations.WindowAndGammaCommands : Prop :=
  SendsPanelCommand .caset (fun s => s.cfg.opc.caset) (fun s => some s.cfg.winC) 0 ∧
  SendsPanelCommand .raset (fun s => s.cfg.opc.raset) (fun s => some s.cfg.winR) 0 ∧
  SendsPanelCommand .gmctrp1 (fun s => s.cfg.opc.gmctrp1) (fun s => some s.cfg.initParams.gmctrp1) 0 ∧
  SendsPanelCommand .gmctrn1 (fun s => s.cfg.opc.gmctrn1) (fun s => some s.cfg.initParams.gmctrn1) 0

/-! ## The backlight -/

/-- R180, R186: SET_BACKLIGHT writes the duty of its brightness to the level register. -/
def Obligations.SetBacklightWritesTheDuty : Prop :=
  ∀ (s : State) (b : Byte), Operational s → s.cfg.pinBl.toInt ≠ -1 →
    exec (.setBacklight b) s = .next { s with
      busy := false, phase := .idle, pwmLevel := .value (duty b),
      trace := s.trace ++ [.pwmLevel (duty b), .resp 0] }

/-- R185: with no backlight pin SET_BACKLIGHT writes nothing and responds 0. -/
def Obligations.SetBacklightWithoutPinWritesNothing : Prop :=
  ∀ (s : State) (b : Byte), Operational s → s.cfg.pinBl.toInt = -1 →
    exec (.setBacklight b) s = .next { s with
      busy := false, phase := .idle, trace := s.trace ++ [.resp 0] }

/-- R181: every entry of the table is `(b/255)^2.8 × 65535` rounded to the nearest integer, half up. Both
sides of `d − 1/2 ≤ (b/255)^(14/5) × 65535 < d + 1/2` are multiplied by 2 and raised to the fifth
power, which keeps their order where the left side is positive. -/
def Obligations.DutyTableIsTheRoundedGammaCurve : Prop :=
  ∀ b : Byte,
    ((duty b).toNat = 0 ∨
      (2 * (duty b).toNat - 1) ^ 5 * 255 ^ 14 ≤ 2 ^ 5 * b.toNat ^ 14 * 65535 ^ 5) ∧
    2 ^ 5 * b.toNat ^ 14 * 65535 ^ 5 < (2 * (duty b).toNat + 1) ^ 5 * 255 ^ 14

/-- R183: the duty of 0 is 0, of 255 it is 65535, it never falls, and it grows from 5 upward. -/
def Obligations.DutyRisesFromZeroToFull : Prop :=
  duty 0 = 0 ∧ duty 255 = 65535 ∧ duty 128 = 9514 ∧
  (∀ b c : Byte, b < c → duty b ≤ duty c) ∧ (∀ b c : Byte, 5 ≤ b → b < c → duty b < duty c)

/-! ## The accessors -/

/-- R201 to R208: the word of each accessor decodes to it, and it responds with its configuration value, an
absent pin as all ones, and changes nothing but the port and the trace, before INIT and with any fault. -/
def Obligations.AccessorsAnswerTheConfiguration : Prop :=
  ∀ s : State,
    let answers := fun (code : Word) (i : Instr) (w : Word) =>
      decode (.req [code]) = .instr i 1 ∧
      exec i s = .next { s with busy := false, phase := .idle, trace := s.trace ++ [.resp w] }
    answers 0x80000000 .getBus s.cfg.busId ∧ answers 0x90000000 .getCs s.cfg.pinCs ∧
    answers 0xA0000000 .getDc s.cfg.pinDc ∧ answers 0xB0000000 .getSck s.cfg.pinSck ∧
    answers 0xC0000000 .getMosi s.cfg.pinMosi ∧ answers 0xD0000000 .getMiso s.cfg.pinMiso ∧
    answers 0xE0000000 .getBl s.cfg.pinBl ∧ answers 0xF0000000 .getVsync s.cfg.pinVsync ∧
    (∀ pin : Word, pin.toInt = -1 → pin = 0xFFFFFFFF)

/-! ## The bus stalls -/

/-- The events of a frame before its byte `k`, byte 0 being the opcode (R100). -/
def frameEventsBefore (k : Nat) (op : Byte) (data : Option (List Byte)) : List Event :=
  if k = 0 then [.cs .lo, .dc .lo]
  else [.cs .lo, .dc .lo, .tx op, .dc .hi] ++ ((data.getD []).take (k - 1)).map .tx

/-- The bus accepts the next `k` bytes in time, and then not the one after them. -/
def StallsAtByte (k : Nat) (s : State) : Prop :=
  (∀ j < k, (s.bus.skip j).answer.inTime s.cfg.timeoutMs = true) ∧
  (s.bus.skip k).answer.inTime s.cfg.timeoutMs = false

/-- R58: with no time limit, a byte the bus never accepts leaves the block stuck in FRAME, busy, with the
bytes before it sent and no response; and it stays so. -/
def Obligations.StalledCommandHangs : Prop :=
  ∀ (s : State) (op : Byte) (data : Option (List Byte)) (k : Nat), Operational s → s.busy = true →
    s.ramwrDue = false → s.cfg.timeoutMs = none → k < frameLength data → StallsAtByte k s →
    ∃ d t, exec (.command op data) s = .next t ∧ step t = .next t ∧
      t = { s with
        phase := .frame, opR := op, dataR := d, csLine := .at .lo,
        idx := if k = 0 then s.idx else BitVec.ofNat 32 (k - 1),
        dcLine := if k = 0 then .at .lo else .at .hi,
        bus := s.bus.skip k, trace := s.trace ++ frameEventsBefore k op data }

/-- R58: a byte of its frame that the bus never accepts hangs an UPDATE in the same way. -/
def Obligations.StalledUpdateHangs : Prop :=
  ∀ (s : State) (b : Bool) (k : Nat), ConfigInv s → Operational s → s.busy = true → s.foreign = [] →
    s.cfg.timeoutMs = none → k < 1 + 2 * (s.cfg.width.toNat * s.cfg.height.toNat) → StallsAtByte k s →
    ∃ n t, exec (.update b) s = .next t ∧ step t = .next t ∧
      t = { s with
        phase := .frame, opR := s.cfg.opc.ramwr, csLine := .at .lo, ramwrDue := false,
        idx := if k = 0 then s.idx else BitVec.ofNat 32 (k - 1),
        dcLine := if k = 0 then .at .lo else .at .hi,
        bus := s.bus.skip k, draws := n,
        trace := s.trace ++ frameEventsBefore k s.cfg.opc.ramwr
          (some ((List.range (2 * (s.cfg.width.toNat * s.cfg.height.toNat))).map
            (fun j => s.mem.read (s.cfg.fbBase.toNat + j)))) }

/-- R58: a byte of the sequence that the bus never accepts hangs an INIT, with the part of the sequence
before that byte sent, no response, and `init_done` as it was. -/
def Obligations.StalledInitHangs : Prop :=
  ∀ (s : State) (k : Nat), s.fault = 0 → s.busy = true → s.ramwrDue = false → s.cfg.timeoutMs = none →
    k < sequenceLength s.cfg → StallsAtByte k s →
    ∃ v es b d pc o x n t, exec (.init true) s = .next t ∧ step t = .next t ∧
      t = { s with
        phase := .frame, csLine := .at .lo, dcLine := .at d,
        pwmOn := if s.cfg.pinBl.toInt = -1 then s.pwmOn else true,
        pwmLevel := if s.cfg.pinBl.toInt = -1 then s.pwmLevel else .unspec,
        trace := s.trace ++ setupEvents s.cfg v ++ es,
        bus := s.bus.skip k, seqPc := pc, opR := o, idx := x, draws := n } ∧
      es ++ [.tx b] <+: sequenceEvents s.cfg ∧ es.countP Event.isTx = k

/-- R226: with a time limit, a byte not accepted within it ends a COMMAND: the bytes already sent stay sent,
CS is released, and E_TRANSPORT is raised. -/
def Obligations.LateByteRaisesTransportFault : Prop :=
  ∀ (s : State) (op : Byte) (data : Option (List Byte)) (k : Nat), Operational s →
    s.cfg.timeoutMs.isSome = true → k < frameLength data → StallsAtByte k s →
    ∃ o d x n, exec (.command op data) s = .next { s with
      busy := false, phase := .idle, fault := 6, csLine := .at .hi,
      dcLine := if k = 0 then .at .lo else .at .hi,
      trace := s.trace ++ frameEventsBefore k op data ++ [.cs .hi, .resp 6],
      bus := s.bus.skip (k + 1), opR := o, dataR := d, idx := x, draws := n }

/-- R226: a late byte inside an UPDATE ends it in the same way. -/
def Obligations.LateByteEndsAnUpdate : Prop :=
  ∀ (s : State) (b : Bool) (k : Nat), ConfigInv s → Operational s → s.foreign = [] →
    s.cfg.timeoutMs.isSome = true → k < 1 + 2 * (s.cfg.width.toNat * s.cfg.height.toNat) →
    StallsAtByte k s →
    ∃ o x n, exec (.update b) s = .next { s with
      busy := false, phase := .idle, fault := 6, csLine := .at .hi, ramwrDue := false,
      dcLine := if k = 0 then .at .lo else .at .hi,
      trace := s.trace ++ frameEventsBefore k s.cfg.opc.ramwr
        (some ((List.range (2 * (s.cfg.width.toNat * s.cfg.height.toNat))).map
          (fun j => s.mem.read (s.cfg.fbBase.toNat + j)))) ++ [.cs .hi, .resp 6],
      bus := s.bus.skip (k + 1), opR := o, idx := x, draws := n }

/-- R226: a late byte inside INIT skips the rest of the sequence and does not set `init_done`. What was
sent is the part of the sequence before that byte. -/
def Obligations.LateByteSkipsTheRestOfInit : Prop :=
  ∀ (s : State) (k : Nat), s.fault = 0 → s.cfg.timeoutMs.isSome = true →
    k < sequenceLength s.cfg → StallsAtByte k s →
    ∃ v es b d pc o x n, exec (.init true) s = .next { s with
        busy := false, phase := .idle, fault := 6, csLine := .at .hi, dcLine := .at d,
        pwmOn := if s.cfg.pinBl.toInt = -1 then s.pwmOn else true,
        pwmLevel := if s.cfg.pinBl.toInt = -1 then s.pwmLevel else .unspec,
        trace := s.trace ++ setupEvents s.cfg v ++ es ++ [.cs .hi, .resp 6],
        bus := s.bus.skip (k + 1), seqPc := pc, opR := o, idx := x, draws := n } ∧
      es ++ [.tx b] <+: sequenceEvents s.cfg ∧ es.countP (fun e => e matches .tx _) = k

/-! ## Rules about the whole machine -/

/-- R22, R121, R225, R40: no step changes the configuration, clears a fault or undoes INIT, and a step only
appends to the trace. -/
def Obligations.NoStepUndoesConfigurationOrFault : Prop :=
  ∀ s t : State, step s = .next t →
    t.cfg = s.cfg ∧ (s.fault ≠ 0 → t.fault = s.fault) ∧ (s.initDone = true → t.initDone = true) ∧
    s.trace <+: t.trace

/-- R220, R224: a step that sets the fault sets one of the four codes a request can raise, where none was
stored, and its last event is the response with that code. -/
def Obligations.RaisedFaultIsAnswered : Prop :=
  ∀ s t : State, step s = .next t → t.fault ≠ s.fault →
    s.fault = 0 ∧ (t.fault = 3 ∨ t.fault = 4 ∨ t.fault = 5 ∨ t.fault = 6) ∧
    ∃ es, t.trace = s.trace ++ es ++ [.resp (t.fault.setWidth 32)]

/-- The host's requests: the REQ32 rows of the opcode table. -/
def IsRequest (i : Instr) : Prop := ∃ ws, encode i = .req ws

/-- R76, R70: a request that does not hang completes with exactly one response, its last event, and the port
is ready again. -/
def Obligations.RequestEndsWithOneResponse : Prop :=
  ∀ (s t : State) (i : Instr), IsRequest i → (BusProgress s ∨ s.cfg.timeoutMs.isSome = true) →
    exec i s = .next t →
    t.busy = false ∧ t.phase = .idle ∧
    ∃ es w, t.trace = s.trace ++ es ++ [.resp w] ∧ ∀ r, Event.resp r ∉ es

/-- R128, R180, R200, R221: only INIT with its sequence, COMMAND, UPDATE and the panel commands they send
reach the bus; the panel observes nothing of any other request. -/
def Obligations.OtherRequestsSendNothingOnTheBus : Prop :=
  ∀ (s t : State) (i : Instr), IsRequest i → i ≠ .init true → (∀ op d, i ≠ .command op d) →
    (∀ b, i ≠ .update b) → exec i s = .next t → busProjection t.trace = busProjection s.trace

/-- R28: only INIT marks the block initialised. -/
def Obligations.OnlyInitMarksInitialised : Prop :=
  ∀ (s t : State) (i : Instr), exec i s = .next t → s.initDone = false → t.initDone = true →
    ∃ auto, i = .init auto

/-- R33, R180, R186: only INIT and SET_BACKLIGHT touch the PWM, and SET_BACKLIGHT only its level. -/
def Obligations.OnlyInitAndBacklightTouchThePwm : Prop :=
  ∀ (s t : State) (i : Instr), exec i s = .next t → (∀ auto, i ≠ .init auto) →
    t.pwmOn = s.pwmOn ∧ (t.pwmLevel ≠ s.pwmLevel → ∃ b, i = .setBacklight b)

/-- R120, R260: INIT is the only request that emits a delay, and among its commands only the four with a
settle time do. -/
def Obligations.OnlyInitAndItsCommandsDelay : Prop :=
  ∀ (s t : State) (i : Instr) (es : List Event) (ms : Nat), exec i s = .next t →
    t.trace = s.trace ++ es → Event.delay ms ∈ es →
    i = .init true ∨ (i = .swreset ∧ ms = 150) ∨ (i = .slpout ∧ ms = 500) ∨
      (i = .noron ∧ ms = 100) ∨ (i = .dispon ∧ ms = 100)

/-- R50, R160, R166: the block never writes the framebuffer. No instruction changes a byte of it unless
another agent's writes race with a transfer. -/
def Obligations.BlockNeverWritesTheFramebuffer : Prop :=
  ∀ (s t : State) (i : Instr), exec i s = .next t → s.foreign = [] → t.mem = s.mem

/-! ## Invariants -/

/-- R22, R23, R27, R29, R225: from every state with its configuration as reset computed it, and its phase and
fault in order, a step answers a next state of the same kind. No such state stops. -/
def Obligations.OrderlyStateNeverStops : Prop :=
  ∀ s : State, ConfigInv s → PhaseInv s → ∃ t, step s = .next t ∧ ConfigInv t ∧ PhaseInv t

/-- R100, R101, R102: every step keeps the framing rule: a frame's events are its own, it ends before
anything else happens, and it stays open only where the block hangs inside it. -/
def Obligations.StepKeepsFraming : Prop :=
  ∀ s t : State, PhaseInv s → FramingInv s → step s = .next t → FramingInv t

/-- R32, R33, R41: every step keeps the line registers and the PWM registers equal to what the trace last
drove them to. -/
def Obligations.StepKeepsLinesOnTheTrace : Prop :=
  ∀ s t : State, ConfigInv s → LinesInv s → step s = .next t → LinesInv t

/-- R101, R122: once the block is initialised, and while INIT runs its sequence, CS is deasserted after every
step that does not leave the block hanging inside a frame. -/
def Obligations.StepKeepsChipSelectDeasserted : Prop :=
  ∀ s t : State, PhaseInv s → ChipSelectInv s → step s = .next t → ChipSelectInv t

/-- Every step keeps the framebuffer space in its canonical form (the model's form of R50). -/
def Obligations.StepKeepsMemoryCanonical : Prop :=
  ∀ s t : State, MemoryInv s → step s = .next t → MemoryInv t

/-- The invariants hold after reset, for every configuration. -/
def Obligations.ResetMeetsTheInvariants : Prop :=
  (ConfigInv State.reset ∧ PhaseInv State.reset ∧ FramingInv State.reset ∧ LinesInv State.reset ∧
    ChipSelectInv State.reset ∧ MemoryInv State.reset) ∧
  ∀ (p : Params) (s : State), MemoryInv s →
    let t := State.resetBlock p s
    ConfigInv t ∧ PhaseInv t ∧ FramingInv t ∧ LinesInv t ∧ ChipSelectInv t ∧ MemoryInv t
end

