-- ==== Sys2Proof/Laws/Memory.lean ====
section
/-! SUPPORT. The framebuffer space: reading after writing, and the canonical form. -/

namespace Sys2Proof.Machine

@[simp] theorem Memory.read_nil (a : Nat) : Memory.read [] a = unlistedByte := rfl

theorem Memory.read_cons (x : Nat) (v : Byte) (m : Memory) (a : Nat) :
    Memory.read ((x, v) :: m) a = if x = a then v else Memory.read m a := rfl

/-- An address no entry lists reads as an unlisted byte. -/
theorem Memory.read_unlisted {m : Memory} {a : Nat} (h : ∀ c ∈ m, c.1 ≠ a) :
    m.read a = unlistedByte := by
  induction m with
  | nil => rfl
  | cons c m ih =>
    rw [Memory.read_cons, if_neg (h c (List.mem_cons_self))]
    exact ih fun d hd => h d (List.mem_cons_of_mem _ hd)

theorem Memory.read_write_other {m : Memory} {a x : Nat} (b : Byte) (h : x ≠ a) :
    (m.write a b).read x = m.read x := by
  induction m with
  | nil => unfold Memory.write; split <;> simp [Memory.read, Ne.symm h]
  | cons c m ih =>
    obtain ⟨y, v⟩ := c
    unfold Memory.write
    split
    · split <;> simp [Memory.read, Ne.symm h]
    · split
      · subst_vars
        split <;> simp [Memory.read, Ne.symm h]
      · simp [Memory.read, ih]

theorem Memory.read_write_same {m : Memory} (hm : m.Pairwise (fun c d => c.1 < d.1)) (a : Nat) (b : Byte) :
    (m.write a b).read a = b := by
  induction m with
  | nil =>
    unfold Memory.write
    split <;> simp_all [Memory.read]
  | cons c m ih =>
    obtain ⟨y, v⟩ := c
    rw [List.pairwise_cons] at hm
    unfold Memory.write
    split
    · split
      · rename_i hlt hb
        subst hb
        apply Memory.read_unlisted
        intro d hd
        rcases List.mem_cons.1 hd with rfl | hd
        · simp; omega
        · have := hm.1 d hd; simp at this; omega
      · simp [Memory.read]
    · split
      · rename_i hy
        subst hy
        split
        · rename_i hb
          subst hb
          apply Memory.read_unlisted
          intro d hd
          have := hm.1 d hd
          simp at this
          omega
        · simp [Memory.read]
      · simp only [Memory.read]
        rw [if_neg (by omega)]
        exact ih hm.2

/-- What a write can leave listed: what was there, or the byte written. -/
theorem Memory.mem_write {m : Memory} {a : Nat} {b : Byte} {c : Host.Cell} (h : c ∈ m.write a b) :
    c ∈ m ∨ (c = (a, b) ∧ b ≠ unlistedByte) := by
  induction m with
  | nil =>
    unfold Memory.write at h
    split at h
    · simp at h
    · exact Or.inr ⟨by simpa using h, by assumption⟩
  | cons d m ih =>
    obtain ⟨y, v⟩ := d
    unfold Memory.write at h
    split at h
    · split at h
      · exact Or.inl h
      · rcases List.mem_cons.1 h with rfl | h
        · exact Or.inr ⟨rfl, by assumption⟩
        · exact Or.inl h
    · split at h
      · split at h
        · exact Or.inl (List.mem_cons_of_mem _ h)
        · rcases List.mem_cons.1 h with rfl | h
          · exact Or.inr ⟨rfl, by assumption⟩
          · exact Or.inl (List.mem_cons_of_mem _ h)
      · rcases List.mem_cons.1 h with rfl | h
        · exact Or.inl List.mem_cons_self
        · exact (ih h).imp (List.mem_cons_of_mem _) id

theorem Memory.write_pairwise {m : Memory} (hm : m.Pairwise (fun c d => c.1 < d.1)) (a : Nat) (b : Byte) :
    (m.write a b).Pairwise (fun c d => c.1 < d.1) := by
  induction m with
  | nil => unfold Memory.write; split <;> simp
  | cons d m ih =>
    obtain ⟨y, v⟩ := d
    have hm' := List.pairwise_cons.1 hm
    unfold Memory.write
    split
    · rename_i hlt
      split
      · exact hm
      · refine List.pairwise_cons.2 ⟨fun e he => ?_, hm⟩
        rcases List.mem_cons.1 he with rfl | he
        · exact hlt
        · have := hm'.1 e he; simp at this ⊢; omega
    · split
      · rename_i hy
        subst hy
        split
        · exact hm'.2
        · exact List.pairwise_cons.2 ⟨hm'.1, hm'.2⟩
      · refine List.pairwise_cons.2 ⟨fun e he => ?_, ih hm'.2⟩
        rcases Memory.mem_write he with he | ⟨rfl, -⟩
        · exact hm'.1 e he
        · simp; omega

/-- A write inside the 32-bit space keeps the canonical form. -/
theorem Memory.write_wf {m : Memory} (hm : m.wf) {a : Nat} (ha : a < 2 ^ 32) (b : Byte) :
    (m.write a b).wf := by
  refine ⟨Memory.write_pairwise hm.1 a b, fun c hc => ?_⟩
  rcases Memory.mem_write hc with h | ⟨rfl, hb⟩
  · exact hm.2 c h
  · exact ⟨hb, ha⟩

theorem Memory.writeAll_wf {m : Memory} (hm : m.wf) (cs : List Host.Cell) : (m.writeAll cs).wf := by
  induction cs generalizing m with
  | nil => exact hm
  | cons c cs ih =>
    obtain ⟨a, b⟩ := c
    unfold Memory.writeAll
    apply ih
    split
    · exact Memory.write_wf hm (by assumption) b
    · exact hm

@[simp] theorem Memory.writeAll_nil (m : Memory) : m.writeAll [] = m := rfl

/-- An address no other agent writes reads as before its writes. -/
theorem Memory.read_writeAll_other {m : Memory} {a : Nat} (cs : List Host.Cell) (h : ∀ c ∈ cs, c.1 ≠ a) :
    (m.writeAll cs).read a = m.read a := by
  induction cs generalizing m with
  | nil => rfl
  | cons c cs ih =>
    obtain ⟨x, b⟩ := c
    unfold Memory.writeAll
    rw [ih fun d hd => h d (List.mem_cons_of_mem _ hd)]
    split
    · exact Memory.read_write_other b (Ne.symm (h _ List.mem_cons_self))
    · rfl

end Sys2Proof.Machine
end

