-- ==== Sys2Proof/Laws/State.lean ====
section
/-! SUPPORT. One lemma per field per state update: what each shared operation leaves in each field of
the state, true by unfolding. -/

namespace Sys2Proof.Machine

/-! ## emit -/

@[simp] theorem emit_cfg (e : Event) (s : State) : (emit e s).cfg = s.cfg := rfl
@[simp] theorem emit_initDone (e : Event) (s : State) : (emit e s).initDone = s.initDone := rfl
@[simp] theorem emit_busy (e : Event) (s : State) : (emit e s).busy = s.busy := rfl
@[simp] theorem emit_fault (e : Event) (s : State) : (emit e s).fault = s.fault := rfl
@[simp] theorem emit_phase (e : Event) (s : State) : (emit e s).phase = s.phase := rfl
@[simp] theorem emit_seqPc (e : Event) (s : State) : (emit e s).seqPc = s.seqPc := rfl
@[simp] theorem emit_opR (e : Event) (s : State) : (emit e s).opR = s.opR := rfl
@[simp] theorem emit_dataR (e : Event) (s : State) : (emit e s).dataR = s.dataR := rfl
@[simp] theorem emit_idx (e : Event) (s : State) : (emit e s).idx = s.idx := rfl
@[simp] theorem emit_csLine (e : Event) (s : State) : (emit e s).csLine = s.csLine := rfl
@[simp] theorem emit_dcLine (e : Event) (s : State) : (emit e s).dcLine = s.dcLine := rfl
@[simp] theorem emit_pwmOn (e : Event) (s : State) : (emit e s).pwmOn = s.pwmOn := rfl
@[simp] theorem emit_pwmLevel (e : Event) (s : State) : (emit e s).pwmLevel = s.pwmLevel := rfl
@[simp] theorem emit_trace (e : Event) (s : State) : (emit e s).trace = s.trace ++ [e] := rfl
@[simp] theorem emit_mem (e : Event) (s : State) : (emit e s).mem = s.mem := rfl
@[simp] theorem emit_foreign (e : Event) (s : State) : (emit e s).foreign = s.foreign := rfl
@[simp] theorem emit_host (e : Event) (s : State) : (emit e s).host = s.host := rfl
@[simp] theorem emit_bus (e : Event) (s : State) : (emit e s).bus = s.bus := rfl
@[simp] theorem emit_draws (e : Event) (s : State) : (emit e s).draws = s.draws := rfl
@[simp] theorem emit_ramwrDue (e : Event) (s : State) : (emit e s).ramwrDue = s.ramwrDue := rfl

/-! ## driveCs -/

@[simp] theorem driveCs_cfg (l : Level) (s : State) : (driveCs l s).cfg = s.cfg := rfl
@[simp] theorem driveCs_initDone (l : Level) (s : State) : (driveCs l s).initDone = s.initDone := rfl
@[simp] theorem driveCs_busy (l : Level) (s : State) : (driveCs l s).busy = s.busy := rfl
@[simp] theorem driveCs_fault (l : Level) (s : State) : (driveCs l s).fault = s.fault := rfl
@[simp] theorem driveCs_phase (l : Level) (s : State) : (driveCs l s).phase = s.phase := rfl
@[simp] theorem driveCs_seqPc (l : Level) (s : State) : (driveCs l s).seqPc = s.seqPc := rfl
@[simp] theorem driveCs_opR (l : Level) (s : State) : (driveCs l s).opR = s.opR := rfl
@[simp] theorem driveCs_dataR (l : Level) (s : State) : (driveCs l s).dataR = s.dataR := rfl
@[simp] theorem driveCs_idx (l : Level) (s : State) : (driveCs l s).idx = s.idx := rfl
@[simp] theorem driveCs_csLine (l : Level) (s : State) : (driveCs l s).csLine = .at l := rfl
@[simp] theorem driveCs_dcLine (l : Level) (s : State) : (driveCs l s).dcLine = s.dcLine := rfl
@[simp] theorem driveCs_pwmOn (l : Level) (s : State) : (driveCs l s).pwmOn = s.pwmOn := rfl
@[simp] theorem driveCs_pwmLevel (l : Level) (s : State) : (driveCs l s).pwmLevel = s.pwmLevel := rfl
@[simp] theorem driveCs_trace (l : Level) (s : State) : (driveCs l s).trace = s.trace ++ [.cs l] := rfl
@[simp] theorem driveCs_mem (l : Level) (s : State) : (driveCs l s).mem = s.mem := rfl
@[simp] theorem driveCs_foreign (l : Level) (s : State) : (driveCs l s).foreign = s.foreign := rfl
@[simp] theorem driveCs_host (l : Level) (s : State) : (driveCs l s).host = s.host := rfl
@[simp] theorem driveCs_bus (l : Level) (s : State) : (driveCs l s).bus = s.bus := rfl
@[simp] theorem driveCs_draws (l : Level) (s : State) : (driveCs l s).draws = s.draws := rfl
@[simp] theorem driveCs_ramwrDue (l : Level) (s : State) : (driveCs l s).ramwrDue = s.ramwrDue := rfl

/-! ## driveDc -/

@[simp] theorem driveDc_cfg (l : Level) (s : State) : (driveDc l s).cfg = s.cfg := rfl
@[simp] theorem driveDc_initDone (l : Level) (s : State) : (driveDc l s).initDone = s.initDone := rfl
@[simp] theorem driveDc_busy (l : Level) (s : State) : (driveDc l s).busy = s.busy := rfl
@[simp] theorem driveDc_fault (l : Level) (s : State) : (driveDc l s).fault = s.fault := rfl
@[simp] theorem driveDc_phase (l : Level) (s : State) : (driveDc l s).phase = s.phase := rfl
@[simp] theorem driveDc_seqPc (l : Level) (s : State) : (driveDc l s).seqPc = s.seqPc := rfl
@[simp] theorem driveDc_opR (l : Level) (s : State) : (driveDc l s).opR = s.opR := rfl
@[simp] theorem driveDc_dataR (l : Level) (s : State) : (driveDc l s).dataR = s.dataR := rfl
@[simp] theorem driveDc_idx (l : Level) (s : State) : (driveDc l s).idx = s.idx := rfl
@[simp] theorem driveDc_csLine (l : Level) (s : State) : (driveDc l s).csLine = s.csLine := rfl
@[simp] theorem driveDc_dcLine (l : Level) (s : State) : (driveDc l s).dcLine = .at l := rfl
@[simp] theorem driveDc_pwmOn (l : Level) (s : State) : (driveDc l s).pwmOn = s.pwmOn := rfl
@[simp] theorem driveDc_pwmLevel (l : Level) (s : State) : (driveDc l s).pwmLevel = s.pwmLevel := rfl
@[simp] theorem driveDc_trace (l : Level) (s : State) : (driveDc l s).trace = s.trace ++ [.dc l] := rfl
@[simp] theorem driveDc_mem (l : Level) (s : State) : (driveDc l s).mem = s.mem := rfl
@[simp] theorem driveDc_foreign (l : Level) (s : State) : (driveDc l s).foreign = s.foreign := rfl
@[simp] theorem driveDc_host (l : Level) (s : State) : (driveDc l s).host = s.host := rfl
@[simp] theorem driveDc_bus (l : Level) (s : State) : (driveDc l s).bus = s.bus := rfl
@[simp] theorem driveDc_draws (l : Level) (s : State) : (driveDc l s).draws = s.draws := rfl
@[simp] theorem driveDc_ramwrDue (l : Level) (s : State) : (driveDc l s).ramwrDue = s.ramwrDue := rfl

/-! ## respond -/

@[simp] theorem respond_cfg (w : Word) (s : State) : (respond w s).cfg = s.cfg := rfl
@[simp] theorem respond_initDone (w : Word) (s : State) : (respond w s).initDone = s.initDone := rfl
@[simp] theorem respond_busy (w : Word) (s : State) : (respond w s).busy = false := rfl
@[simp] theorem respond_fault (w : Word) (s : State) : (respond w s).fault = s.fault := rfl
@[simp] theorem respond_phase (w : Word) (s : State) : (respond w s).phase = .idle := rfl
@[simp] theorem respond_seqPc (w : Word) (s : State) : (respond w s).seqPc = s.seqPc := rfl
@[simp] theorem respond_opR (w : Word) (s : State) : (respond w s).opR = s.opR := rfl
@[simp] theorem respond_dataR (w : Word) (s : State) : (respond w s).dataR = s.dataR := rfl
@[simp] theorem respond_idx (w : Word) (s : State) : (respond w s).idx = s.idx := rfl
@[simp] theorem respond_csLine (w : Word) (s : State) : (respond w s).csLine = s.csLine := rfl
@[simp] theorem respond_dcLine (w : Word) (s : State) : (respond w s).dcLine = s.dcLine := rfl
@[simp] theorem respond_pwmOn (w : Word) (s : State) : (respond w s).pwmOn = s.pwmOn := rfl
@[simp] theorem respond_pwmLevel (w : Word) (s : State) : (respond w s).pwmLevel = s.pwmLevel := rfl
@[simp] theorem respond_trace (w : Word) (s : State) : (respond w s).trace = s.trace ++ [.resp w] := rfl
@[simp] theorem respond_mem (w : Word) (s : State) : (respond w s).mem = s.mem := rfl
@[simp] theorem respond_foreign (w : Word) (s : State) : (respond w s).foreign = s.foreign := rfl
@[simp] theorem respond_host (w : Word) (s : State) : (respond w s).host = s.host := rfl
@[simp] theorem respond_bus (w : Word) (s : State) : (respond w s).bus = s.bus := rfl
@[simp] theorem respond_draws (w : Word) (s : State) : (respond w s).draws = s.draws := rfl
@[simp] theorem respond_ramwrDue (w : Word) (s : State) : (respond w s).ramwrDue = s.ramwrDue := rfl

/-! ## raise -/

@[simp] theorem raise_cfg (c : Byte) (s : State) : (raise c s).cfg = s.cfg := rfl
@[simp] theorem raise_initDone (c : Byte) (s : State) : (raise c s).initDone = s.initDone := rfl
@[simp] theorem raise_busy (c : Byte) (s : State) : (raise c s).busy = false := rfl
@[simp] theorem raise_fault (c : Byte) (s : State) : (raise c s).fault = stickyFault s.fault c := rfl
@[simp] theorem raise_phase (c : Byte) (s : State) : (raise c s).phase = .idle := rfl
@[simp] theorem raise_seqPc (c : Byte) (s : State) : (raise c s).seqPc = s.seqPc := rfl
@[simp] theorem raise_opR (c : Byte) (s : State) : (raise c s).opR = s.opR := rfl
@[simp] theorem raise_dataR (c : Byte) (s : State) : (raise c s).dataR = s.dataR := rfl
@[simp] theorem raise_idx (c : Byte) (s : State) : (raise c s).idx = s.idx := rfl
@[simp] theorem raise_csLine (c : Byte) (s : State) : (raise c s).csLine = s.csLine := rfl
@[simp] theorem raise_dcLine (c : Byte) (s : State) : (raise c s).dcLine = s.dcLine := rfl
@[simp] theorem raise_pwmOn (c : Byte) (s : State) : (raise c s).pwmOn = s.pwmOn := rfl
@[simp] theorem raise_pwmLevel (c : Byte) (s : State) : (raise c s).pwmLevel = s.pwmLevel := rfl
@[simp] theorem raise_trace (c : Byte) (s : State) : (raise c s).trace = s.trace ++ [.resp (statusWord c)] := rfl
@[simp] theorem raise_mem (c : Byte) (s : State) : (raise c s).mem = s.mem := rfl
@[simp] theorem raise_foreign (c : Byte) (s : State) : (raise c s).foreign = s.foreign := rfl
@[simp] theorem raise_host (c : Byte) (s : State) : (raise c s).host = s.host := rfl
@[simp] theorem raise_bus (c : Byte) (s : State) : (raise c s).bus = s.bus := rfl
@[simp] theorem raise_draws (c : Byte) (s : State) : (raise c s).draws = s.draws := rfl
@[simp] theorem raise_ramwrDue (c : Byte) (s : State) : (raise c s).ramwrDue = s.ramwrDue := rfl

/-! ## raiseIllegal -/

@[simp] theorem raiseIllegal_cfg (s : State) : (raiseIllegal s).cfg = s.cfg := rfl
@[simp] theorem raiseIllegal_initDone (s : State) : (raiseIllegal s).initDone = s.initDone := rfl
@[simp] theorem raiseIllegal_busy (s : State) : (raiseIllegal s).busy = false := rfl
@[simp] theorem raiseIllegal_fault (s : State) : (raiseIllegal s).fault = stickyFault s.fault codeIllegalReq := rfl
@[simp] theorem raiseIllegal_phase (s : State) : (raiseIllegal s).phase = .idle := rfl
@[simp] theorem raiseIllegal_seqPc (s : State) : (raiseIllegal s).seqPc = s.seqPc := rfl
@[simp] theorem raiseIllegal_opR (s : State) : (raiseIllegal s).opR = s.opR := rfl
@[simp] theorem raiseIllegal_dataR (s : State) : (raiseIllegal s).dataR = s.dataR := rfl
@[simp] theorem raiseIllegal_idx (s : State) : (raiseIllegal s).idx = s.idx := rfl
@[simp] theorem raiseIllegal_csLine (s : State) : (raiseIllegal s).csLine = s.csLine := rfl
@[simp] theorem raiseIllegal_dcLine (s : State) : (raiseIllegal s).dcLine = s.dcLine := rfl
@[simp] theorem raiseIllegal_pwmOn (s : State) : (raiseIllegal s).pwmOn = s.pwmOn := rfl
@[simp] theorem raiseIllegal_pwmLevel (s : State) : (raiseIllegal s).pwmLevel = s.pwmLevel := rfl
@[simp] theorem raiseIllegal_trace (s : State) : (raiseIllegal s).trace = s.trace ++ [.resp (statusWord codeIllegalReq)] := rfl
@[simp] theorem raiseIllegal_mem (s : State) : (raiseIllegal s).mem = s.mem := rfl
@[simp] theorem raiseIllegal_foreign (s : State) : (raiseIllegal s).foreign = s.foreign := rfl
@[simp] theorem raiseIllegal_host (s : State) : (raiseIllegal s).host = s.host := rfl
@[simp] theorem raiseIllegal_bus (s : State) : (raiseIllegal s).bus = s.bus := rfl
@[simp] theorem raiseIllegal_draws (s : State) : (raiseIllegal s).draws = s.draws := rfl
@[simp] theorem raiseIllegal_ramwrDue (s : State) : (raiseIllegal s).ramwrDue = s.ramwrDue := rfl

/-! ## releaseFrame -/

@[simp] theorem releaseFrame_cfg (s : State) : (releaseFrame s).cfg = s.cfg := rfl
@[simp] theorem releaseFrame_initDone (s : State) : (releaseFrame s).initDone = s.initDone := rfl
@[simp] theorem releaseFrame_busy (s : State) : (releaseFrame s).busy = s.busy := rfl
@[simp] theorem releaseFrame_fault (s : State) : (releaseFrame s).fault = s.fault := rfl
@[simp] theorem releaseFrame_phase (s : State) : (releaseFrame s).phase = s.phase := rfl
@[simp] theorem releaseFrame_seqPc (s : State) : (releaseFrame s).seqPc = s.seqPc := rfl
@[simp] theorem releaseFrame_opR (s : State) : (releaseFrame s).opR = Config.freeOpR s.draws := rfl
@[simp] theorem releaseFrame_dataR (s : State) : (releaseFrame s).dataR = s.dataR := rfl
@[simp] theorem releaseFrame_idx (s : State) : (releaseFrame s).idx = Config.freeIdx s.draws := rfl
@[simp] theorem releaseFrame_csLine (s : State) : (releaseFrame s).csLine = s.csLine := rfl
@[simp] theorem releaseFrame_dcLine (s : State) : (releaseFrame s).dcLine = s.dcLine := rfl
@[simp] theorem releaseFrame_pwmOn (s : State) : (releaseFrame s).pwmOn = s.pwmOn := rfl
@[simp] theorem releaseFrame_pwmLevel (s : State) : (releaseFrame s).pwmLevel = s.pwmLevel := rfl
@[simp] theorem releaseFrame_trace (s : State) : (releaseFrame s).trace = s.trace := rfl
@[simp] theorem releaseFrame_mem (s : State) : (releaseFrame s).mem = s.mem := rfl
@[simp] theorem releaseFrame_foreign (s : State) : (releaseFrame s).foreign = s.foreign := rfl
@[simp] theorem releaseFrame_host (s : State) : (releaseFrame s).host = s.host := rfl
@[simp] theorem releaseFrame_bus (s : State) : (releaseFrame s).bus = s.bus := rfl
@[simp] theorem releaseFrame_draws (s : State) : (releaseFrame s).draws = s.draws + 1 := rfl
@[simp] theorem releaseFrame_ramwrDue (s : State) : (releaseFrame s).ramwrDue = s.ramwrDue := rfl

/-! ## releaseData -/

@[simp] theorem releaseData_cfg (s : State) : (releaseData s).cfg = s.cfg := rfl
@[simp] theorem releaseData_initDone (s : State) : (releaseData s).initDone = s.initDone := rfl
@[simp] theorem releaseData_busy (s : State) : (releaseData s).busy = s.busy := rfl
@[simp] theorem releaseData_fault (s : State) : (releaseData s).fault = s.fault := rfl
@[simp] theorem releaseData_phase (s : State) : (releaseData s).phase = s.phase := rfl
@[simp] theorem releaseData_seqPc (s : State) : (releaseData s).seqPc = s.seqPc := rfl
@[simp] theorem releaseData_opR (s : State) : (releaseData s).opR = s.opR := rfl
@[simp] theorem releaseData_dataR (s : State) : (releaseData s).dataR = Config.freeDataR s.draws := rfl
@[simp] theorem releaseData_idx (s : State) : (releaseData s).idx = s.idx := rfl
@[simp] theorem releaseData_csLine (s : State) : (releaseData s).csLine = s.csLine := rfl
@[simp] theorem releaseData_dcLine (s : State) : (releaseData s).dcLine = s.dcLine := rfl
@[simp] theorem releaseData_pwmOn (s : State) : (releaseData s).pwmOn = s.pwmOn := rfl
@[simp] theorem releaseData_pwmLevel (s : State) : (releaseData s).pwmLevel = s.pwmLevel := rfl
@[simp] theorem releaseData_trace (s : State) : (releaseData s).trace = s.trace := rfl
@[simp] theorem releaseData_mem (s : State) : (releaseData s).mem = s.mem := rfl
@[simp] theorem releaseData_foreign (s : State) : (releaseData s).foreign = s.foreign := rfl
@[simp] theorem releaseData_host (s : State) : (releaseData s).host = s.host := rfl
@[simp] theorem releaseData_bus (s : State) : (releaseData s).bus = s.bus := rfl
@[simp] theorem releaseData_draws (s : State) : (releaseData s).draws = s.draws + 1 := rfl
@[simp] theorem releaseData_ramwrDue (s : State) : (releaseData s).ramwrDue = s.ramwrDue := rfl

/-! ## releaseSeqPc -/

@[simp] theorem releaseSeqPc_cfg (s : State) : (releaseSeqPc s).cfg = s.cfg := rfl
@[simp] theorem releaseSeqPc_initDone (s : State) : (releaseSeqPc s).initDone = s.initDone := rfl
@[simp] theorem releaseSeqPc_busy (s : State) : (releaseSeqPc s).busy = s.busy := rfl
@[simp] theorem releaseSeqPc_fault (s : State) : (releaseSeqPc s).fault = s.fault := rfl
@[simp] theorem releaseSeqPc_phase (s : State) : (releaseSeqPc s).phase = s.phase := rfl
@[simp] theorem releaseSeqPc_seqPc (s : State) : (releaseSeqPc s).seqPc = Config.freeSeqPc s.draws := rfl
@[simp] theorem releaseSeqPc_opR (s : State) : (releaseSeqPc s).opR = s.opR := rfl
@[simp] theorem releaseSeqPc_dataR (s : State) : (releaseSeqPc s).dataR = s.dataR := rfl
@[simp] theorem releaseSeqPc_idx (s : State) : (releaseSeqPc s).idx = s.idx := rfl
@[simp] theorem releaseSeqPc_csLine (s : State) : (releaseSeqPc s).csLine = s.csLine := rfl
@[simp] theorem releaseSeqPc_dcLine (s : State) : (releaseSeqPc s).dcLine = s.dcLine := rfl
@[simp] theorem releaseSeqPc_pwmOn (s : State) : (releaseSeqPc s).pwmOn = s.pwmOn := rfl
@[simp] theorem releaseSeqPc_pwmLevel (s : State) : (releaseSeqPc s).pwmLevel = s.pwmLevel := rfl
@[simp] theorem releaseSeqPc_trace (s : State) : (releaseSeqPc s).trace = s.trace := rfl
@[simp] theorem releaseSeqPc_mem (s : State) : (releaseSeqPc s).mem = s.mem := rfl
@[simp] theorem releaseSeqPc_foreign (s : State) : (releaseSeqPc s).foreign = s.foreign := rfl
@[simp] theorem releaseSeqPc_host (s : State) : (releaseSeqPc s).host = s.host := rfl
@[simp] theorem releaseSeqPc_bus (s : State) : (releaseSeqPc s).bus = s.bus := rfl
@[simp] theorem releaseSeqPc_draws (s : State) : (releaseSeqPc s).draws = s.draws + 1 := rfl
@[simp] theorem releaseSeqPc_ramwrDue (s : State) : (releaseSeqPc s).ramwrDue = s.ramwrDue := rfl

/-! ## landForeign -/

@[simp] theorem landForeign_cfg (s : State) : (landForeign s).cfg = s.cfg := rfl
@[simp] theorem landForeign_initDone (s : State) : (landForeign s).initDone = s.initDone := rfl
@[simp] theorem landForeign_busy (s : State) : (landForeign s).busy = s.busy := rfl
@[simp] theorem landForeign_fault (s : State) : (landForeign s).fault = s.fault := rfl
@[simp] theorem landForeign_phase (s : State) : (landForeign s).phase = s.phase := rfl
@[simp] theorem landForeign_seqPc (s : State) : (landForeign s).seqPc = s.seqPc := rfl
@[simp] theorem landForeign_opR (s : State) : (landForeign s).opR = s.opR := rfl
@[simp] theorem landForeign_dataR (s : State) : (landForeign s).dataR = s.dataR := rfl
@[simp] theorem landForeign_idx (s : State) : (landForeign s).idx = s.idx := rfl
@[simp] theorem landForeign_csLine (s : State) : (landForeign s).csLine = s.csLine := rfl
@[simp] theorem landForeign_dcLine (s : State) : (landForeign s).dcLine = s.dcLine := rfl
@[simp] theorem landForeign_pwmOn (s : State) : (landForeign s).pwmOn = s.pwmOn := rfl
@[simp] theorem landForeign_pwmLevel (s : State) : (landForeign s).pwmLevel = s.pwmLevel := rfl
@[simp] theorem landForeign_trace (s : State) : (landForeign s).trace = s.trace := rfl
@[simp] theorem landForeign_mem (s : State) : (landForeign s).mem = s.mem.writeAll s.foreign := rfl
@[simp] theorem landForeign_foreign (s : State) : (landForeign s).foreign = [] := rfl
@[simp] theorem landForeign_host (s : State) : (landForeign s).host = s.host := rfl
@[simp] theorem landForeign_bus (s : State) : (landForeign s).bus = s.bus := rfl
@[simp] theorem landForeign_draws (s : State) : (landForeign s).draws = s.draws + s.cfg.nBytes := rfl
@[simp] theorem landForeign_ramwrDue (s : State) : (landForeign s).ramwrDue = s.ramwrDue := rfl

/-! ## hostStore -/

@[simp] theorem hostStore_cfg (a : Word) (b : Byte) (s : State) : (hostStore a b s).cfg = s.cfg := rfl
@[simp] theorem hostStore_initDone (a : Word) (b : Byte) (s : State) : (hostStore a b s).initDone = s.initDone := rfl
@[simp] theorem hostStore_busy (a : Word) (b : Byte) (s : State) : (hostStore a b s).busy = s.busy := rfl
@[simp] theorem hostStore_fault (a : Word) (b : Byte) (s : State) : (hostStore a b s).fault = s.fault := rfl
@[simp] theorem hostStore_phase (a : Word) (b : Byte) (s : State) : (hostStore a b s).phase = s.phase := rfl
@[simp] theorem hostStore_seqPc (a : Word) (b : Byte) (s : State) : (hostStore a b s).seqPc = s.seqPc := rfl
@[simp] theorem hostStore_opR (a : Word) (b : Byte) (s : State) : (hostStore a b s).opR = s.opR := rfl
@[simp] theorem hostStore_dataR (a : Word) (b : Byte) (s : State) : (hostStore a b s).dataR = s.dataR := rfl
@[simp] theorem hostStore_idx (a : Word) (b : Byte) (s : State) : (hostStore a b s).idx = s.idx := rfl
@[simp] theorem hostStore_csLine (a : Word) (b : Byte) (s : State) : (hostStore a b s).csLine = s.csLine := rfl
@[simp] theorem hostStore_dcLine (a : Word) (b : Byte) (s : State) : (hostStore a b s).dcLine = s.dcLine := rfl
@[simp] theorem hostStore_pwmOn (a : Word) (b : Byte) (s : State) : (hostStore a b s).pwmOn = s.pwmOn := rfl
@[simp] theorem hostStore_pwmLevel (a : Word) (b : Byte) (s : State) : (hostStore a b s).pwmLevel = s.pwmLevel := rfl
@[simp] theorem hostStore_trace (a : Word) (b : Byte) (s : State) : (hostStore a b s).trace = s.trace := rfl
@[simp] theorem hostStore_mem (a : Word) (b : Byte) (s : State) : (hostStore a b s).mem = s.mem.write a.toNat b := rfl
@[simp] theorem hostStore_foreign (a : Word) (b : Byte) (s : State) : (hostStore a b s).foreign = s.foreign := rfl
@[simp] theorem hostStore_host (a : Word) (b : Byte) (s : State) : (hostStore a b s).host = s.host := rfl
@[simp] theorem hostStore_bus (a : Word) (b : Byte) (s : State) : (hostStore a b s).bus = s.bus := rfl
@[simp] theorem hostStore_draws (a : Word) (b : Byte) (s : State) : (hostStore a b s).draws = s.draws := rfl
@[simp] theorem hostStore_ramwrDue (a : Word) (b : Byte) (s : State) : (hostStore a b s).ramwrDue = s.ramwrDue := rfl

/-! ## acceptRequest -/

@[simp] theorem acceptRequest_cfg (n : Nat) (s : State) : (acceptRequest n s).cfg = s.cfg := rfl
@[simp] theorem acceptRequest_initDone (n : Nat) (s : State) : (acceptRequest n s).initDone = s.initDone := rfl
@[simp] theorem acceptRequest_busy (n : Nat) (s : State) : (acceptRequest n s).busy = true := rfl
@[simp] theorem acceptRequest_fault (n : Nat) (s : State) : (acceptRequest n s).fault = s.fault := rfl
@[simp] theorem acceptRequest_phase (n : Nat) (s : State) : (acceptRequest n s).phase = s.phase := rfl
@[simp] theorem acceptRequest_seqPc (n : Nat) (s : State) : (acceptRequest n s).seqPc = s.seqPc := rfl
@[simp] theorem acceptRequest_opR (n : Nat) (s : State) : (acceptRequest n s).opR = s.opR := rfl
@[simp] theorem acceptRequest_dataR (n : Nat) (s : State) : (acceptRequest n s).dataR = s.dataR := rfl
@[simp] theorem acceptRequest_idx (n : Nat) (s : State) : (acceptRequest n s).idx = s.idx := rfl
@[simp] theorem acceptRequest_csLine (n : Nat) (s : State) : (acceptRequest n s).csLine = s.csLine := rfl
@[simp] theorem acceptRequest_dcLine (n : Nat) (s : State) : (acceptRequest n s).dcLine = s.dcLine := rfl
@[simp] theorem acceptRequest_pwmOn (n : Nat) (s : State) : (acceptRequest n s).pwmOn = s.pwmOn := rfl
@[simp] theorem acceptRequest_pwmLevel (n : Nat) (s : State) : (acceptRequest n s).pwmLevel = s.pwmLevel := rfl
@[simp] theorem acceptRequest_trace (n : Nat) (s : State) : (acceptRequest n s).trace = s.trace := rfl
@[simp] theorem acceptRequest_mem (n : Nat) (s : State) : (acceptRequest n s).mem = s.mem := rfl
@[simp] theorem acceptRequest_foreign (n : Nat) (s : State) : (acceptRequest n s).foreign = s.foreign := rfl
@[simp] theorem acceptRequest_host (n : Nat) (s : State) : (acceptRequest n s).host = s.host.drop n := rfl
@[simp] theorem acceptRequest_bus (n : Nat) (s : State) : (acceptRequest n s).bus = s.bus := rfl
@[simp] theorem acceptRequest_draws (n : Nat) (s : State) : (acceptRequest n s).draws = s.draws := rfl
@[simp] theorem acceptRequest_ramwrDue (n : Nat) (s : State) : (acceptRequest n s).ramwrDue = s.ramwrDue := rfl

/-! ## writePwmLevel -/

@[simp] theorem writePwmLevel_cfg (v : Half) (s : State) : (writePwmLevel v s).cfg = s.cfg := rfl
@[simp] theorem writePwmLevel_initDone (v : Half) (s : State) : (writePwmLevel v s).initDone = s.initDone := rfl
@[simp] theorem writePwmLevel_busy (v : Half) (s : State) : (writePwmLevel v s).busy = s.busy := rfl
@[simp] theorem writePwmLevel_fault (v : Half) (s : State) : (writePwmLevel v s).fault = s.fault := rfl
@[simp] theorem writePwmLevel_phase (v : Half) (s : State) : (writePwmLevel v s).phase = s.phase := rfl
@[simp] theorem writePwmLevel_seqPc (v : Half) (s : State) : (writePwmLevel v s).seqPc = s.seqPc := rfl
@[simp] theorem writePwmLevel_opR (v : Half) (s : State) : (writePwmLevel v s).opR = s.opR := rfl
@[simp] theorem writePwmLevel_dataR (v : Half) (s : State) : (writePwmLevel v s).dataR = s.dataR := rfl
@[simp] theorem writePwmLevel_idx (v : Half) (s : State) : (writePwmLevel v s).idx = s.idx := rfl
@[simp] theorem writePwmLevel_csLine (v : Half) (s : State) : (writePwmLevel v s).csLine = s.csLine := rfl
@[simp] theorem writePwmLevel_dcLine (v : Half) (s : State) : (writePwmLevel v s).dcLine = s.dcLine := rfl
@[simp] theorem writePwmLevel_pwmOn (v : Half) (s : State) : (writePwmLevel v s).pwmOn = s.pwmOn := rfl
@[simp] theorem writePwmLevel_pwmLevel (v : Half) (s : State) : (writePwmLevel v s).pwmLevel = .value v := rfl
@[simp] theorem writePwmLevel_trace (v : Half) (s : State) : (writePwmLevel v s).trace = s.trace ++ [.pwmLevel v] := rfl
@[simp] theorem writePwmLevel_mem (v : Half) (s : State) : (writePwmLevel v s).mem = s.mem := rfl
@[simp] theorem writePwmLevel_foreign (v : Half) (s : State) : (writePwmLevel v s).foreign = s.foreign := rfl
@[simp] theorem writePwmLevel_host (v : Half) (s : State) : (writePwmLevel v s).host = s.host := rfl
@[simp] theorem writePwmLevel_bus (v : Half) (s : State) : (writePwmLevel v s).bus = s.bus := rfl
@[simp] theorem writePwmLevel_draws (v : Half) (s : State) : (writePwmLevel v s).draws = s.draws := rfl
@[simp] theorem writePwmLevel_ramwrDue (v : Half) (s : State) : (writePwmLevel v s).ramwrDue = s.ramwrDue := rfl

end Sys2Proof.Machine
end

