-- ==== Sys2Proof/Laws/Transport.lean ====
section
/-! SUPPORT. What the frame primitive can do: it goes through, or it stalls at its first byte the bus
does not accept in time. Callers cite these and do not unfold the frame. -/

namespace Sys2Proof.Machine

/-! ## The bus -/

/-- The bus accepts the next `k` bytes in time. -/
abbrev InTimeUpTo (k : Nat) (s : State) : Prop :=
  ∀ j < k, (s.bus.skip j).answer.inTime s.cfg.timeoutMs = true

/-- The bus does not accept byte `k` in time. -/
abbrev LateAt (k : Nat) (s : State) : Prop :=
  (s.bus.skip k).answer.inTime s.cfg.timeoutMs = false

@[simp] theorem Bus.skip_zero (b : Bus) : b.skip 0 = b := rfl

@[simp] theorem Bus.advance_eq_skip (b : Bus) : b.advance = b.skip 1 := by
  unfold Bus.advance Bus.skip; simp

@[simp] theorem Bus.skip_skip (m n : Nat) (b : Bus) : (b.skip m).skip n = b.skip (m + n) := by
  unfold Bus.skip; simp

theorem Bus.answer_mem (b : Bus) (j : Nat) :
    (b.skip j).answer ∈ b.waits ∨ (b.skip j).answer = b.rest := by
  unfold Bus.answer Bus.skip
  cases h : b.waits.drop j with
  | nil => exact Or.inr rfl
  | cons a as => exact Or.inl (List.drop_subset j b.waits (by rw [h]; exact List.mem_cons_self))

/-- BUS_PROGRESS is that every byte is accepted in time. -/
theorem inTimeUpTo_of_progress {s : State} (h : BusProgress s) (k : Nat) : InTimeUpTo k s := by
  intro j _
  rcases Bus.answer_mem s.bus j with hm | hr
  · exact h.1 _ hm
  · rw [hr]; exact h.2

theorem busProgress_skip {s t : State} (n : Nat) (h : BusProgress s) (hb : t.bus = s.bus.skip n)
    (hc : t.cfg = s.cfg) : BusProgress t := by
  unfold BusProgress
  rw [hb, hc]
  exact ⟨fun a ha => h.1 a (List.drop_subset n _ ha), h.2⟩

/-- Either the next `n` bytes are accepted in time, or there is a first one that is not. -/
theorem inTime_or_late (n : Nat) (s : State) :
    InTimeUpTo n s ∨ ∃ k < n, InTimeUpTo k s ∧ LateAt k s := by
  induction n with
  | zero => exact Or.inl fun j hj => absurd hj (Nat.not_lt_zero j)
  | succ n ih =>
    rcases ih with h | ⟨k, hk, h⟩
    · cases hn : (s.bus.skip n).answer.inTime s.cfg.timeoutMs with
      | true =>
        refine Or.inl fun j hj => ?_
        rcases Nat.lt_succ_iff_lt_or_eq.1 hj with hj | rfl
        · exact h j hj
        · exact hn
      | false => exact Or.inr ⟨n, Nat.lt_succ_self n, h, hn⟩
    · exact Or.inr ⟨k, Nat.lt_succ_of_lt hk, h⟩

@[simp] theorem Sent.done_andThen (s : State) (k : State → Sent) : (Sent.done s).andThen k = k s := rfl

@[simp] theorem Sent.done_settle (s : State) (k a : State → State) : (Sent.done s).settle k a = k s := rfl

@[simp] theorem stall_andThen (s : State) (k : State → Sent) : (stall s).andThen k = stall s := by
  unfold stall; split <;> rfl

/-- How work that stalls ends: it hangs, or it is given up (R58, R226). -/
theorem stall_settle (s : State) (k a : State → State) :
    (stall s).settle k a = if s.cfg.timeoutMs.isNone then s else a { s with bus := s.bus.skip 1 } := by
  unfold stall; split <;> simp [Sent.settle]

/-! ## One byte -/

theorem txByte_inTime {b : Byte} {s : State} (h : s.bus.answer.inTime s.cfg.timeoutMs = true) :
    txByte b s = .done { s with bus := s.bus.skip 1, trace := s.trace ++ [.tx b] } := by
  unfold txByte; rw [if_pos h, Bus.advance_eq_skip]; rfl

theorem txByte_late {b : Byte} {s : State} (h : s.bus.answer.inTime s.cfg.timeoutMs = false) :
    txByte b s = stall s := by
  unfold txByte; rw [if_neg (by simp [h])]

/-! ## The data phase -/

theorem sendData_inTime {ds : List Byte} {s : State} (h : InTimeUpTo ds.length s) :
    sendData ds s = .done { s with
      idx := s.idx + BitVec.ofNat 32 ds.length, bus := s.bus.skip ds.length,
      trace := s.trace ++ ds.map .tx } := by
  induction ds generalizing s with
  | nil => simp [sendData]
  | cons b ds ih =>
    unfold sendData
    rw [txByte_inTime (h 0 (by simp))]
    rw [Sent.done_andThen, ih]
    · simp only [Bus.skip_skip, List.map_cons, List.append_assoc, List.singleton_append, List.length_cons]
      congr 2
      · rw [Nat.add_comm ds.length 1, BitVec.ofNat_add, BitVec.add_assoc]; rfl
      · rw [Nat.add_comm]
    · intro j hj
      simp only [Bus.skip_skip]
      rw [Nat.add_comm]
      exact h (j + 1) (by simpa using hj)

theorem sendData_late {ds : List Byte} {s : State} {k : Nat} (hk : k < ds.length)
    (h : InTimeUpTo k s) (hl : LateAt k s) :
    sendData ds s = stall { s with
      idx := s.idx + BitVec.ofNat 32 k, bus := s.bus.skip k,
      trace := s.trace ++ (ds.take k).map .tx } := by
  induction ds generalizing s k with
  | nil => simp at hk
  | cons b ds ih =>
    unfold sendData
    cases k with
    | zero =>
      rw [txByte_late (by simpa [LateAt] using hl), stall_andThen]
      simp only [List.take_zero, List.map_nil, List.append_nil, Bus.skip_zero, BitVec.add_zero]
    | succ k =>
      rw [txByte_inTime (h 0 (by simp))]
      rw [Sent.done_andThen, ih (k := k) (by simpa using hk)]
      · simp only [Bus.skip_skip, List.take_succ_cons, List.map_cons, List.append_assoc, List.singleton_append]
        congr 2
        · rw [Nat.add_comm k 1, BitVec.ofNat_add, BitVec.add_assoc]; rfl
        · rw [Nat.add_comm]
      · intro j hj
        simp only [Bus.skip_skip]
        rw [Nat.add_comm]
        exact h (j + 1) (by omega)
      · unfold LateAt at hl ⊢
        simp only [Bus.skip_skip]
        rw [Nat.add_comm]
        exact hl

/-! ## The frame -/

/-- What `st.idx` holds after a frame that went through. -/
def idxAfter (src : DataSource) (s : State) : Word :=
  match src with
  | none => s.idx
  | some ds => BitVec.ofNat 32 ds.length

/-- The level of DC after a frame: data where there is a data phase (R34). -/
def dcAfter (src : DataSource) : Level := if src.isSome then .hi else .lo

/-- The state after a frame that went through. -/
def afterFrame (op : Byte) (src : DataSource) (s : State) : State :=
  { s with
    phase := .frame, opR := op, idx := idxAfter src s, csLine := .at .hi, dcLine := .at (dcAfter src),
    bus := s.bus.skip (frameLength src), trace := s.trace ++ frameEvents op src }

/-- The events of a frame before its byte `k`, byte 0 being the opcode. -/
def eventsBefore (k : Nat) (op : Byte) (src : DataSource) : List Event :=
  match k with
  | 0 => [.cs .lo, .dc .lo]
  | k + 1 => [.cs .lo, .dc .lo, .tx op, .dc .hi] ++ ((src.getD []).take k).map .tx

/-- The DC line while a frame stalls at its byte `k`. -/
def stalledDc (k : Nat) : Line := if k = 0 then .at .lo else .at .hi

/-- The byte counter while a frame stalls at its byte `k` (R31). -/
def stalledIdx (k : Nat) (s : State) : Word := if k = 0 then s.idx else BitVec.ofNat 32 (k - 1)

/-- The state of a frame that stalls at its byte `k`. -/
def stalledFrame (k : Nat) (op : Byte) (src : DataSource) (s : State) : State :=
  { s with
    phase := .frame, opR := op, idx := stalledIdx k s, csLine := .at .lo, dcLine := stalledDc k,
    bus := s.bus.skip k, trace := s.trace ++ eventsBefore k op src }

/-- A frame whose bytes are all accepted in time (R100). -/
theorem frame_inTime {op : Byte} {src : DataSource} {s : State} (h : InTimeUpTo (frameLength src) s) :
    frame op src s = .done (afterFrame op src s) := by
  unfold frame
  have h0 : (driveDc .lo (driveCs .lo { s with phase := .frame, opR := op })).bus.answer.inTime
      (driveDc .lo (driveCs .lo { s with phase := .frame, opR := op })).cfg.timeoutMs = true := by
    simpa using h 0 (by cases src <;> simp [frameLength])
  rw [txByte_inTime h0, Sent.done_andThen]
  cases src with
  | none =>
    simp [dataPhase, driveCs, driveDc, emit, afterFrame, frameEvents, dataEvents, idxAfter,
      dcAfter, frameLength]
  | some ds =>
    simp only [dataPhase]
    rw [sendData_inTime]
    · simp [driveCs, driveDc, emit, afterFrame, frameEvents, dataEvents, idxAfter, dcAfter,
        frameLength]
    · intro j hj
      have := h (1 + j) (by simpa [frameLength] using hj)
      simpa [driveDc, emit] using this

/-- A frame that stalls at its byte `k` (R58, R226). -/
theorem frame_late {op : Byte} {src : DataSource} {s : State} {k : Nat} (hk : k < frameLength src)
    (h : InTimeUpTo k s) (hl : LateAt k s) :
    frame op src s = stall (stalledFrame k op src s) := by
  unfold frame
  cases k with
  | zero =>
    rw [txByte_late (by simpa [LateAt] using hl), stall_andThen, stall_andThen]
    simp [driveCs, driveDc, emit, stalledFrame, stalledDc, stalledIdx, eventsBefore]
  | succ k =>
    have h0 : (driveDc .lo (driveCs .lo { s with phase := .frame, opR := op })).bus.answer.inTime
        (driveDc .lo (driveCs .lo { s with phase := .frame, opR := op })).cfg.timeoutMs = true := by
      simpa using h 0 (by simp)
    rw [txByte_inTime h0, Sent.done_andThen]
    cases src with
    | none => simp [frameLength] at hk
    | some ds =>
      simp only [dataPhase]
      rw [sendData_late (k := k) (by simp [frameLength] at hk; omega), stall_andThen]
      · simp [driveCs, driveDc, emit, stalledFrame, stalledDc, stalledIdx, eventsBefore, Nat.add_comm]
      · intro j hj
        have := h (1 + j) (by omega)
        simpa [driveDc, emit] using this
      · have : k + 1 = 1 + k := by omega
        rw [this] at hl
        simpa [driveDc, emit, LateAt] using hl

/-- The frame primitive, said once: it goes through, or it stalls at one of its bytes. -/
theorem frame_cases (op : Byte) (src : DataSource) (s : State) :
    frame op src s = .done (afterFrame op src s) ∨
    ∃ k < frameLength src, InTimeUpTo k s ∧ LateAt k s ∧ frame op src s = stall (stalledFrame k op src s) := by
  rcases inTime_or_late (frameLength src) s with h | ⟨k, hk, h, hl⟩
  · exact Or.inl (frame_inTime h)
  · exact Or.inr ⟨k, hk, h, hl, frame_late hk h hl⟩

end Sys2Proof.Machine
end

