-- ==== Sys2Proof/Laws/Requests.lean ====
section
/-! SUPPORT. The checks before a request's own work, said once (spec/60_exceptions.md R227), and what each
request does once they have passed. -/

namespace Sys2Proof.Machine

/-! ## Gates -/

theorem faultGate_pass {s : State} (h : s.fault = 0) : faultGate s = .pass := by
  unfold faultGate; rw [if_pos h]

theorem faultGate_ended {s : State} (h : s.fault ≠ 0) :
    faultGate s = .ended (respond (statusWord s.fault) s) := by
  unfold faultGate; rw [if_neg h]

theorem initGate_pass {s : State} (h : Operational s) : initGate s = .pass := by
  unfold initGate; rw [faultGate_pass h.1]; simp [h.2]

theorem initGate_faulted {s : State} (h : s.fault ≠ 0) :
    initGate s = .ended (respond (statusWord s.fault) s) := by
  unfold initGate; rw [faultGate_ended h]

theorem initGate_notInit {s : State} (h : s.fault = 0) (hi : s.initDone = false) :
    initGate s = .ended (raise codeNotInit s) := by
  unfold initGate; rw [faultGate_pass h]; simp [hi]

/-- What the first gate can answer. -/
theorem faultGate_cases (s : State) :
    (s.fault = 0 ∧ faultGate s = .pass) ∨
    (s.fault ≠ 0 ∧ faultGate s = .ended (respond (statusWord s.fault) s)) := by
  by_cases h : s.fault = 0
  · exact Or.inl ⟨h, faultGate_pass h⟩
  · exact Or.inr ⟨h, faultGate_ended h⟩

/-- What the second gate can answer. -/
theorem initGate_cases (s : State) :
    (Operational s ∧ initGate s = .pass) ∨
    (s.fault ≠ 0 ∧ initGate s = .ended (respond (statusWord s.fault) s)) ∨
    (s.fault = 0 ∧ s.initDone = false ∧ initGate s = .ended (raise codeNotInit s)) := by
  by_cases h : s.fault = 0
  · by_cases hi : s.initDone = true
    · exact Or.inl ⟨⟨h, hi⟩, initGate_pass ⟨h, hi⟩⟩
    · have hi := Bool.eq_false_iff.2 hi
      exact Or.inr (Or.inr ⟨h, hi, initGate_notInit h hi⟩)
  · exact Or.inr (Or.inl ⟨h, initGate_faulted h⟩)

theorem stickyFault_clear {s r : Byte} (h : s = 0) : stickyFault s r = r := if_pos h

theorem stickyFault_kept {s r : Byte} (h : s ≠ 0) : stickyFault s r = s := if_neg h

/-! ## Pins -/

/-- A pin is absent exactly when its number is −1 (R8, R200). -/
theorem noPin_iff (p : Word) : p.toInt = -1 ↔ p = noPin := by
  constructor
  · intro h; apply BitVec.eq_of_toInt_eq; rw [h]; decide
  · rintro rfl; decide

theorem pinPresent_of_ne {p : Word} (h : p.toInt ≠ -1) : pinPresent p = true := by
  have h' : p ≠ noPin := fun e => h ((noPin_iff p).2 e)
  simpa [pinPresent] using h'

theorem pinPresent_of_eq {p : Word} (h : p.toInt = -1) : pinPresent p = false := by
  simp [pinPresent, (noPin_iff p).1 h]

/-! ## COMMAND and UPDATE past their gates -/

theorem execCommand_pass {s : State} (h : Operational s) (op : Byte) (data : Option (List Byte)) :
    execCommand op data s = .next ((frame op data { s with dataR := data.getD s.dataR }).settle endCommand
      (fun t => abortTransport (releaseData t))) := by
  unfold execCommand; rw [initGate_pass h]

theorem execInit_pass {s : State} (h : s.fault = 0) (auto : Bool) :
    execInit auto s = .next (runInit auto s) := by
  unfold execInit; rw [faultGate_pass h]

/-- In a configuration that passes its check UPDATE's transfer lies in the readable region, and its size
matches (R27, R161). -/
theorem transfer_of_config {s : State} (hc : ConfigInv s) (h : s.fault = 0) :
    sizeMatches s.cfg = true ∧ transferReadable s.cfg s.cfg.nBytes = true ∧
    s.cfg.nBytes = 2 * (s.cfg.width.toNat * s.cfg.height.toNat) := by
  have hk := hc.2 h
  have hn : s.cfg.nBytes = 2 * (s.cfg.width.toNat * s.cfg.height.toNat) := by
    rw [hc.1]; rfl
  unfold cfgCheck at hk
  split at hk
  · cases hk
  split at hk
  · cases hk
  split at hk
  · cases hk
  rename_i hf
  rw [Bool.not_eq_true, Bool.not_eq_false'] at hf
  have hf := of_decide_eq_true hf
  unfold pixelCount at hf
  refine ⟨by simp [sizeMatches, hf.1], ?_, hn⟩
  simp only [transferReadable, decide_eq_true_eq]
  omega

theorem execUpdate_pass {s : State} (hc : ConfigInv s) (h : Operational s) (b : Bool) :
    execUpdate b s = .next ((ramwrFrame s).settle endUpdate abortTransport) := by
  obtain ⟨hs, ht, -⟩ := transfer_of_config hc h.1
  unfold execUpdate; rw [initGate_pass h]; simp [hs, ht]

theorem execRamwr_pass {s : State} (hc : ConfigInv s) (h : s.fault = 0) :
    execRamwr s = .next ((ramwrFrame s).settle (fun t => { t with phase := .resp }) abortTransport) := by
  obtain ⟨-, ht, -⟩ := transfer_of_config hc h
  unfold execRamwr; simp [ht]

/-! ## How requests end, as one update of the state each -/

theorem respond_eq (w : Word) (s : State) :
    respond w s = { s with busy := false, phase := .idle, trace := s.trace ++ [.resp w] } := rfl

theorem raise_eq (code : Byte) (s : State) :
    raise code s = { s with
      busy := false, phase := .idle, fault := stickyFault s.fault code,
      trace := s.trace ++ [.resp (statusWord code)] } := rfl

theorem endCommand_eq (s : State) :
    endCommand s = { s with
      busy := false, phase := .idle, opR := Config.freeOpR s.draws, idx := Config.freeIdx s.draws,
      dataR := Config.freeDataR (s.draws + 1), draws := s.draws + 2, trace := s.trace ++ [.resp 0] } := rfl

theorem endUpdate_eq (s : State) :
    endUpdate s = { s with
      busy := false, phase := .idle, opR := Config.freeOpR s.draws, idx := Config.freeIdx s.draws,
      draws := s.draws + 1, trace := s.trace ++ [.resp 0] } := rfl

theorem abortTransport_eq (s : State) :
    abortTransport s = { s with
      busy := false, phase := .idle, fault := stickyFault s.fault codeTransport, csLine := .at .hi,
      opR := Config.freeOpR s.draws, idx := Config.freeIdx s.draws, draws := s.draws + 1,
      trace := s.trace ++ [.cs .hi, .resp 6] } := by
  unfold abortTransport
  rw [raise_eq]
  ext1 <;> simp [releaseFrame, driveCs, emit, statusWord]

/-- With no other writer a transfer leaves the memory as it is (R62). -/
theorem landForeign_quiet {s : State} (h : s.foreign = []) :
    landForeign s = { s with draws := s.draws + s.cfg.nBytes } := by
  unfold landForeign; rw [h]; ext1 <;> simp

/-! ## The framebuffer's bytes -/

/-- With no other writer a transfer reads memory as it is (R57). -/
theorem framebufferBytes_quiet {s : State} (h : s.foreign = []) :
    framebufferBytes s = (List.range s.cfg.nBytes).map (fun j => s.mem.read (s.cfg.fbBase.toNat + j)) := by
  unfold framebufferBytes framebufferByte
  simp [h]

/-- With another writer each byte is the old or the new one (R62). -/
theorem framebufferByte_cases (s : State) (j : Nat) :
    framebufferByte s j = s.mem.read (s.cfg.fbBase.toNat + j) ∨
    framebufferByte s j = (s.mem.writeAll s.foreign).read (s.cfg.fbBase.toNat + j) := by
  unfold framebufferByte
  dsimp only
  split
  · split
    · exact Or.inr rfl
    · exact Or.inl rfl
  · exact Or.inl rfl

@[simp] theorem framebufferBytes_length (s : State) : (framebufferBytes s).length = s.cfg.nBytes := by
  simp [framebufferBytes]

end Sys2Proof.Machine
end

