-- ==== Sys2Proof/Laws/Sequencer.lean ====
section
/-! SUPPORT. The sequencer: what setup leaves, what one step of the sequence leaves, and what the whole
sequence leaves, where the bus accepts every byte and where it stalls. -/

namespace Sys2Proof.Machine

/-! ## Setup -/

/-- The event of an optional pin, if the pin is present (R122). -/
def pinTrace (pin : Word) (e : Event) : List Event := if pinPresent pin then [e] else []

/-- The events of setup (R122). -/
def setupTrace (c : Cfg) (v : Level) : List Event :=
  [.busInit c.busId c.clockHz, .pinOut c.pinDc v, .pinOut c.pinCs .hi, .pinFn c.pinSck .spi,
    .pinFn c.pinMosi .spi] ++
  pinTrace c.pinMiso (.pinFn c.pinMiso .spi) ++ pinTrace c.pinVsync (.pinIn c.pinVsync) ++
  pinTrace c.pinBl (.pwmInit c.pinBl c.pwmWrap)

/-- What setup leaves (R122). -/
theorem setup_eq (s : State) :
    setup s = { s with
      csLine := .at .hi, dcLine := .at (Config.freeLevel s.draws), draws := s.draws + 1,
      pwmOn := if pinPresent s.cfg.pinBl then true else s.pwmOn,
      pwmLevel := if pinPresent s.cfg.pinBl then .unspec else s.pwmLevel,
      trace := s.trace ++ setupTrace s.cfg (Config.freeLevel s.draws) } := by
  unfold setup setupPwm setupPins emitIfPresent setupCs setupDc setupTrace pinTrace
  cases h1 : pinPresent s.cfg.pinMiso <;> cases h2 : pinPresent s.cfg.pinVsync <;>
    cases h3 : pinPresent s.cfg.pinBl <;> simp [emit, h1, h2, h3]

/-- What the sequence starts from. -/
theorem startSequence_eq (s : State) :
    startSequence s = { s with
      phase := .seq, seqPc := 0,
      csLine := .at .hi, dcLine := .at (Config.freeLevel s.draws), draws := s.draws + 1,
      pwmOn := if pinPresent s.cfg.pinBl then true else s.pwmOn,
      pwmLevel := if pinPresent s.cfg.pinBl then .unspec else s.pwmLevel,
      trace := s.trace ++ setupTrace s.cfg (Config.freeLevel s.draws) } := by
  unfold startSequence; rw [setup_eq]

@[simp] theorem startSequence_cfg (s : State) : (startSequence s).cfg = s.cfg := by
  rw [startSequence_eq]

@[simp] theorem startSequence_bus (s : State) : (startSequence s).bus = s.bus := by
  rw [startSequence_eq]

@[simp] theorem startSequence_seqPc (s : State) : (startSequence s).seqPc = 0 := rfl

/-! ## The end of INIT -/

theorem finishInit_eq (s : State) :
    finishInit s = { s with
      initDone := true, busy := false, phase := .idle, seqPc := Config.freeSeqPc s.draws,
      opR := Config.freeOpR (s.draws + 1), idx := Config.freeIdx (s.draws + 1), draws := s.draws + 2,
      trace := s.trace ++ [.resp 0] } := rfl

theorem abortInit_eq (s : State) :
    abortInit s = { s with
      busy := false, phase := .idle, fault := stickyFault s.fault codeTransport, csLine := .at .hi,
      seqPc := Config.freeSeqPc s.draws, opR := Config.freeOpR (s.draws + 1),
      idx := Config.freeIdx (s.draws + 1), draws := s.draws + 2,
      trace := s.trace ++ [.cs .hi, .resp 6] } := by
  unfold abortInit; rw [abortTransport_eq]; rfl

/-! ## One step -/

/-- The delay event of a step, where it has one (R124). -/
def delayEvents (ms : Nat) : List Event := if ms = 0 then [] else [.delay ms]

/-- The state after a step of the sequence that went through. -/
def afterSeqStep (op : Byte) (src : DataSource) (ms : Nat) (s : State) : State :=
  { s with
    phase := if ms = 0 then .seq else .delay, seqPc := s.seqPc + 1, opR := op, idx := idxAfter src s,
    csLine := .at .hi, dcLine := .at (dcAfter src), bus := s.bus.skip (frameLength src),
    trace := s.trace ++ (frameEvents op src ++ delayEvents ms) }

theorem seqStep_inTime {op : Byte} {src : DataSource} {s : State} (ms : Nat)
    (h : InTimeUpTo (frameLength src) s) :
    seqStep op src ms s = .done (afterSeqStep op src ms s) := by
  unfold seqStep
  rw [frame_inTime (by exact h), Sent.done_andThen]
  unfold endSeqStep settleDelay afterSeqStep afterFrame delayEvents
  cases src <;> split <;> simp [emit, idxAfter]

theorem seqStep_late {op : Byte} {src : DataSource} {s : State} {k : Nat} (ms : Nat)
    (hk : k < frameLength src) (h : InTimeUpTo k s) (hl : LateAt k s) :
    seqStep op src ms s = stall (stalledFrame k op src s) := by
  unfold seqStep
  rw [frame_late hk (by exact h) (by exact hl), stall_andThen]
  rfl

/-- One step of the sequence, said once. -/
theorem seqStep_cases (op : Byte) (src : DataSource) (ms : Nat) (s : State) :
    seqStep op src ms s = .done (afterSeqStep op src ms s) ∨
    ∃ k < frameLength src, InTimeUpTo k s ∧ LateAt k s ∧
      seqStep op src ms s = stall (stalledFrame k op src s) := by
  rcases inTime_or_late (frameLength src) s with h | ⟨k, hk, h, hl⟩
  · exact Or.inl (seqStep_inTime ms h)
  · exact Or.inr ⟨k, hk, h, hl, seqStep_late ms hk h hl⟩

/-- A panel command as a step of its own, said once: it goes through, it hangs, or it is given up. -/
theorem panelStep_cases (op : Byte) (src : DataSource) (ms : Nat) (s : State) :
    panelStep op src ms s = afterSeqStep op src ms s ∨
    ∃ k < frameLength src, InTimeUpTo k s ∧ LateAt k s ∧
      ((s.cfg.timeoutMs = none ∧ panelStep op src ms s = stalledFrame k op src s) ∨
        (s.cfg.timeoutMs.isSome = true ∧ panelStep op src ms s =
          abortInit { stalledFrame k op src s with bus := s.bus.skip (k + 1) })) := by
  unfold panelStep
  rcases seqStep_cases op src ms s with h | ⟨k, hk, hi, hl, h⟩
  · rw [h]; exact Or.inl rfl
  · refine Or.inr ⟨k, hk, hi, hl, ?_⟩
    rw [h, stall_settle]
    cases ht : s.cfg.timeoutMs with
    | none => exact Or.inl ⟨rfl, by simp [stalledFrame, ht]⟩
    | some t => exact Or.inr ⟨rfl, by simp [stalledFrame, ht]⟩

theorem panelStep_inTime {op : Byte} {src : DataSource} {s : State} (ms : Nat)
    (h : InTimeUpTo (frameLength src) s) : panelStep op src ms s = afterSeqStep op src ms s := by
  unfold panelStep; rw [seqStep_inTime ms h]; rfl

/-! ## The sequence -/

/-- The state after some entries of the ROM went through, one after another. Irreducible, so that no
proof runs the whole ROM by unfolding. -/
@[irreducible] def afterEntries (es : List RomEntry) (s : State) : State :=
  es.foldl (fun t e => afterSeqStep (opcByte t.cfg.opc e.slot) e.params e.delayMs t) s

/-- The events of some entries of the ROM. -/
def entryEvents (o : Opc) (es : List RomEntry) : List Event :=
  es.flatMap (fun e => frameEvents (opcByte o e.slot) e.params ++ delayEvents e.delayMs)

/-- How many bytes some entries of the ROM offer the bus. -/
def entryLength (es : List RomEntry) : Nat := (es.map (fun e => frameLength e.params)).sum

@[simp] theorem afterEntries_nil (s : State) : afterEntries [] s = s := by unfold afterEntries; rfl

@[simp] theorem afterEntries_cons (e : RomEntry) (es : List RomEntry) (s : State) :
    afterEntries (e :: es) s =
      afterEntries es (afterSeqStep (opcByte s.cfg.opc e.slot) e.params e.delayMs s) := by
  unfold afterEntries; rfl

/-- The DC line after some entries: command or data, as the last one has a data phase (R34). -/
def lastDc (es : List RomEntry) (d : Line) : Line := es.foldl (fun _ e => .at (dcAfter e.params)) d

/-- What some entries leave, but for the frame latches and the phase. -/
theorem afterEntries_eq (es : List RomEntry) (s : State) :
    ∃ o x ph, afterEntries es s = { s with
      opR := o, idx := x, phase := ph, dcLine := lastDc es s.dcLine,
      csLine := if es = [] then s.csLine else .at .hi,
      seqPc := s.seqPc + BitVec.ofNat 8 es.length, bus := s.bus.skip (entryLength es),
      trace := s.trace ++ entryEvents s.cfg.opc es } := by
  induction es generalizing s with
  | nil => exact ⟨s.opR, s.idx, s.phase, by simp [entryLength, entryEvents, lastDc]⟩
  | cons e es ih =>
    obtain ⟨o, x, ph, h⟩ := ih (afterSeqStep (opcByte s.cfg.opc e.slot) e.params e.delayMs s)
    refine ⟨o, x, ph, ?_⟩
    rw [afterEntries_cons, h]
    have hpc : s.seqPc + 1 + BitVec.ofNat 8 es.length = s.seqPc + BitVec.ofNat 8 (es.length + 1) := by
      rw [Nat.add_comm, BitVec.ofNat_add, BitVec.add_assoc]; rfl
    apply State.ext <;> first
      | rfl
      | exact hpc
      | simp [afterSeqStep, entryLength, entryEvents]

/-- The ROM has `N_STEPS` entries (R124). -/
theorem initRom_length (c : Cfg) : (initRom c).length = stepCount := rfl

@[simp] theorem afterEntries_cfg (es : List RomEntry) (s : State) : (afterEntries es s).cfg = s.cfg := by
  obtain ⟨_, _, _, h⟩ := afterEntries_eq es s; rw [h]

theorem entryLength_cons (e : RomEntry) (es : List RomEntry) :
    entryLength (e :: es) = frameLength e.params + entryLength es := by simp [entryLength]

/-- INIT's loop from any step, said once: the rest of the sequence goes through, or it stalls at byte `k` of
the frame of one of its entries. -/
theorem runSequence_cases (n : Nat) (s : State) (hn : s.seqPc.toNat + n = stepCount) :
    (InTimeUpTo (entryLength ((initRom s.cfg).drop s.seqPc.toNat)) s ∧
      runSequence n s = .done (afterEntries ((initRom s.cfg).drop s.seqPc.toNat) s)) ∨
    ∃ pre e post k, (initRom s.cfg).drop s.seqPc.toNat = pre ++ e :: post ∧
      k < frameLength e.params ∧ InTimeUpTo (entryLength pre + k) s ∧ LateAt (entryLength pre + k) s ∧
      runSequence n s = stall (stalledFrame k (opcByte s.cfg.opc e.slot) e.params (afterEntries pre s)) := by
  induction n generalizing s with
  | zero =>
    have : (initRom s.cfg).drop s.seqPc.toNat = [] :=
      List.drop_eq_nil_of_le (by rw [initRom_length]; omega)
    rw [this, afterEntries_nil]; exact Or.inl ⟨fun j hj => absurd hj (Nat.not_lt_zero j), rfl⟩
  | succ n ih =>
    have hlt : s.seqPc.toNat < (initRom s.cfg).length := by rw [initRom_length]; omega
    have hrom : romEntry s = some (initRom s.cfg)[s.seqPc.toNat] := List.getElem?_eq_getElem hlt
    rw [List.drop_eq_getElem_cons hlt]
    generalize (initRom s.cfg)[s.seqPc.toNat] = e at hrom
    unfold runSequence
    simp only [hrom]
    rcases inTime_or_late (frameLength e.params) s with h | ⟨k, hk, hi, hl⟩
    · rw [seqStep_inTime _ h, Sent.done_andThen, entryLength_cons, afterEntries_cons]
      have hpc : (s.seqPc + 1).toNat = s.seqPc.toNat + 1 := by
        have := s.seqPc.isLt
        unfold stepCount at hn
        rw [BitVec.toNat_add]
        exact Nat.mod_eq_of_lt (by simp; omega)
      have hd : ∀ m, InTimeUpTo m (afterSeqStep (opcByte s.cfg.opc e.slot) e.params e.delayMs s) →
          InTimeUpTo (frameLength e.params + m) s := by
        intro m hm j hj
        by_cases hj' : j < frameLength e.params
        · exact h j hj'
        · have := hm (j - frameLength e.params) (by omega)
          simp only [afterSeqStep, Bus.skip_skip] at this
          rwa [show frameLength e.params + (j - frameLength e.params) = j by omega] at this
      rcases ih (afterSeqStep (opcByte s.cfg.opc e.slot) e.params e.delayMs s)
          (by simp only [afterSeqStep, hpc]; omega) with ⟨hi, hr⟩ | ⟨pre, f, post, k, hp, hk, hi, hl, hr⟩
      · simp only [afterSeqStep, hpc] at hi hr
        exact Or.inl ⟨hd _ hi, hr⟩
      · refine Or.inr ⟨e :: pre, f, post, k, ?_, hk, ?_, ?_, by rw [afterEntries_cons]; exact hr⟩
        · simp only [afterSeqStep, hpc] at hp
          rw [hp, List.cons_append]
        · rw [entryLength_cons, Nat.add_assoc]; exact hd _ hi
        · rw [entryLength_cons, Nat.add_assoc]
          simpa only [LateAt, afterSeqStep, Bus.skip_skip] using hl
    · refine Or.inr ⟨[], e, _, k, rfl, hk, by simpa [entryLength] using hi,
        by simpa [entryLength] using hl, ?_⟩
      rw [seqStep_late _ hk hi hl, stall_andThen, afterEntries_nil]
/-- INIT's loop where every byte is accepted in time. -/
theorem runSequence_inTime (n : Nat) (s : State) (hn : s.seqPc.toNat + n = stepCount)
    (h : InTimeUpTo (entryLength ((initRom s.cfg).drop s.seqPc.toNat)) s) :
    runSequence n s = .done (afterEntries ((initRom s.cfg).drop s.seqPc.toNat) s) := by
  rcases runSequence_cases n s hn with ⟨-, hr⟩ | ⟨pre, e, post, k, hp, hk, -, hl, -⟩
  · exact hr
  · have : entryLength pre + k < entryLength ((initRom s.cfg).drop s.seqPc.toNat) := by
      rw [hp]; simp [entryLength]; omega
    rw [LateAt, h _ this] at hl
    cases hl

/-! ## The whole of INIT -/

/-- INIT with its sequence, said once: the whole ROM goes through, or it stalls at byte `k` of the frame of
one of its entries (R58, R120, R226). -/
theorem execInit_sequence {s : State} (h : s.fault = 0) :
    (InTimeUpTo (entryLength (initRom s.cfg)) s ∧
      execInit true s = .next (finishInit (afterEntries (initRom s.cfg) (startSequence s)))) ∨
    ∃ pre e post k, initRom s.cfg = pre ++ e :: post ∧ k < frameLength e.params ∧
      InTimeUpTo (entryLength pre + k) s ∧ LateAt (entryLength pre + k) s ∧
      execInit true s = .next ((stall (stalledFrame k (opcByte s.cfg.opc e.slot) e.params
        (afterEntries pre (startSequence s)))).settle finishInit abortInit) := by
  rw [execInit_pass h]
  unfold runInit
  rw [if_pos rfl]
  have hr := runSequence_cases stepCount (startSequence s) rfl
  simp only [InTimeUpTo, LateAt, startSequence_cfg, startSequence_seqPc, startSequence_bus] at hr
  rcases hr with ⟨hi, hr⟩ | ⟨pre, e, post, k, hp, hk, hi, hl, hr⟩
  · rw [hr]; exact Or.inl ⟨hi, rfl⟩
  · rw [hr]; exact Or.inr ⟨pre, e, post, k, hp, hk, hi, hl, rfl⟩

end Sys2Proof.Machine
end

