-- ==== Sys2Proof/Laws/Framing.lean ====
section
/-! SUPPORT. The events of frames: how many bytes they send, what a stalled frame has sent, and where the
framing scan stands after them (spec/40_bus_transport.md R100 to R102). -/

namespace Sys2Proof.Machine

theorem countP_map_tx (ds : List Byte) : (ds.map Event.tx).countP Event.isTx = ds.length := by
  induction ds with
  | nil => rfl
  | cons d ds ih => rw [List.map_cons, List.countP_cons, ih]; rfl

/-- A frame sends as many bytes as its length says (R82). -/
theorem countP_frameEvents (op : Byte) (src : DataSource) :
    (frameEvents op src).countP Event.isTx = frameLength src := by
  cases src with
  | none => rfl
  | some ds =>
    unfold frameEvents
    rw [List.countP_append, List.countP_append]
    show 1 + (Event.dc .hi :: ds.map .tx).countP Event.isTx + 0 = 1 + ds.length
    rw [List.countP_cons, countP_map_tx]; rfl

/-- A frame that stalls at its byte `k` has sent `k` bytes. -/
theorem countP_eventsBefore {k : Nat} {src : DataSource} (op : Byte) (hk : k < frameLength src) :
    (eventsBefore k op src).countP Event.isTx = k := by
  cases src with
  | none => obtain rfl : k = 0 := by simp [frameLength] at hk; omega
            rfl
  | some ds =>
    cases k with
    | zero => rfl
    | succ k =>
      simp only [frameLength] at hk
      unfold eventsBefore
      rw [List.countP_append, countP_map_tx, List.length_take]
      show 1 + min k ds.length = _
      omega

/-- What a stalled frame has sent, and the byte it stalls at, begin the frame (R226). -/
theorem eventsBefore_prefix {k : Nat} {src : DataSource} (op : Byte) (hk : k < frameLength src) :
    ∃ b, eventsBefore k op src ++ [.tx b] <+: frameEvents op src := by
  cases k with
  | zero => exact ⟨op, dataEvents src ++ [.cs .hi], by simp [eventsBefore, frameEvents]⟩
  | succ k =>
    cases src with
    | none => simp [frameLength] at hk
    | some ds =>
      have hk' : k < ds.length := by simp [frameLength] at hk; omega
      refine ⟨ds[k], (ds.drop (k + 1)).map .tx ++ [.cs .hi], ?_⟩
      have hd : ds.map Event.tx =
          (ds.take k).map .tx ++ Event.tx ds[k] :: (ds.drop (k + 1)).map .tx := by
        rw [← List.map_cons (f := Event.tx), ← List.map_append]; simp
      simp only [eventsBefore, frameEvents, dataEvents, hd]
      simp

/-! ## Which events are in them -/

/-- An event of a frame: CS, DC or a byte (R82). -/
abbrev Event.ofFrame (e : Event) : Prop := (∃ l, e = .cs l) ∨ (∃ l, e = .dc l) ∨ ∃ b, e = .tx b

theorem ofFrame_map_tx {ds : List Byte} {e : Event} (h : e ∈ ds.map Event.tx) : e.ofFrame := by
  obtain ⟨b, -, rfl⟩ := List.mem_map.1 h
  exact Or.inr (Or.inr ⟨b, rfl⟩)

theorem ofFrame_frameEvents {op : Byte} {src : DataSource} {e : Event} (h : e ∈ frameEvents op src) :
    e.ofFrame := by
  unfold frameEvents at h
  simp only [List.mem_append, List.mem_cons, List.not_mem_nil, or_false] at h
  rcases h with ((rfl | rfl | rfl) | h) | rfl
  · exact Or.inl ⟨_, rfl⟩
  · exact Or.inr (Or.inl ⟨_, rfl⟩)
  · exact Or.inr (Or.inr ⟨_, rfl⟩)
  · cases src with
    | none => cases h
    | some ds =>
      rcases List.mem_cons.1 h with rfl | h
      · exact Or.inr (Or.inl ⟨_, rfl⟩)
      · exact ofFrame_map_tx h
  · exact Or.inl ⟨_, rfl⟩

theorem ofFrame_eventsBefore {k : Nat} {op : Byte} {src : DataSource} {e : Event}
    (h : e ∈ eventsBefore k op src) : e.ofFrame := by
  cases k with
  | zero =>
    simp only [eventsBefore, List.mem_cons, List.not_mem_nil, or_false] at h
    rcases h with rfl | rfl
    · exact Or.inl ⟨_, rfl⟩
    · exact Or.inr (Or.inl ⟨_, rfl⟩)
  | succ k =>
    unfold eventsBefore at h
    rcases List.mem_append.1 h with h | h
    · simp only [List.mem_cons, List.not_mem_nil, or_false] at h
      rcases h with rfl | rfl | rfl | rfl
      · exact Or.inl ⟨_, rfl⟩
      · exact Or.inr (Or.inl ⟨_, rfl⟩)
      · exact Or.inr (Or.inr ⟨_, rfl⟩)
      · exact Or.inr (Or.inl ⟨_, rfl⟩)
    · exact ofFrame_map_tx h

theorem mem_delayEvents {ms : Nat} {e : Event} (h : e ∈ delayEvents ms) : ms ≠ 0 ∧ e = .delay ms := by
  unfold delayEvents at h
  split at h
  · cases h
  · exact ⟨by assumption, by simpa using h⟩

/-- The events of the sequence are those of its frames and its delays (R124). -/
theorem mem_entryEvents {o : Opc} {es : List RomEntry} {e : Event} (h : e ∈ entryEvents o es) :
    e.ofFrame ∨ ∃ ms, e = .delay ms := by
  obtain ⟨f, -, hf⟩ := List.mem_flatMap.1 h
  rcases List.mem_append.1 hf with hf | hf
  · exact Or.inl (ofFrame_frameEvents hf)
  · exact Or.inr ⟨_, (mem_delayEvents hf).2⟩

/-- The events of setup are none of the bus and no response (R122). -/
theorem mem_setupTrace {c : Cfg} {v : Level} {e : Event} (h : e ∈ setupTrace c v) :
    e.onBus = false ∧ (∀ w, e ≠ .resp w) ∧ FramePos.next .outside e = some .outside := by
  unfold setupTrace pinTrace at h
  simp only [List.mem_append, List.mem_cons, List.not_mem_nil, or_false] at h
  rcases h with (((rfl | rfl | rfl | rfl | rfl) | h) | h) | h
  iterate 5 exact ⟨rfl, fun w => by simp, rfl⟩
  all_goals
    split at h
    · simp only [List.mem_cons, List.not_mem_nil, or_false] at h; subst h
      exact ⟨rfl, fun w => by simp, rfl⟩
    · simp at h

/-! ## The scan -/

theorem scanFrom_append (p : FramePos) (es fs : List Event) :
    scanFrom p (es ++ fs) = (scanFrom p es).bind (fun q => scanFrom q fs) := by
  unfold scanFrom; rw [List.foldlM_append]; rfl

@[simp] theorem scanFrom_nil (p : FramePos) : scanFrom p [] = some p := rfl

theorem scanFrom_cons (p : FramePos) (e : Event) (es : List Event) :
    scanFrom p (e :: es) = (p.next e).bind (fun q => scanFrom q es) := rfl

/-- Data bytes stay inside their frame's data phase. -/
theorem scanFrom_txs (ds : List Byte) : scanFrom .dataLine (ds.map .tx) = some .dataLine := by
  induction ds with
  | nil => rfl
  | cons d ds ih => rw [List.map_cons, scanFrom_cons]; exact ih

/-- A whole frame leads from outside to outside. -/
theorem scanFrom_frameEvents (op : Byte) (src : DataSource) :
    scanFrom .outside (frameEvents op src) = some .outside := by
  cases src with
  | none => rfl
  | some ds =>
    unfold frameEvents dataEvents
    rw [scanFrom_append, scanFrom_append]
    show (Option.bind (scanFrom .dataLine (ds.map .tx)) _) = _
    rw [scanFrom_txs]; rfl

/-- Where a stalled frame stands: CS may rise there, and that ends the frame. -/
theorem scanFrom_eventsBefore (k : Nat) (op : Byte) (src : DataSource) :
    ∃ p, scanFrom .outside (eventsBefore k op src) = some p ∧ p.next (.cs .hi) = some .outside := by
  cases k with
  | zero => exact ⟨.commandLine, rfl, rfl⟩
  | succ k =>
    refine ⟨.dataLine, ?_, rfl⟩
    unfold eventsBefore
    rw [scanFrom_append]
    exact scanFrom_txs _

/-- Events outside every frame stay outside. -/
theorem scanFrom_outside {es : List Event} (h : ∀ e ∈ es, FramePos.next .outside e = some .outside) :
    scanFrom .outside es = some .outside := by
  induction es with
  | nil => rfl
  | cons e es ih =>
    rw [scanFrom_cons, h e List.mem_cons_self]
    exact ih fun d hd => h d (List.mem_cons_of_mem _ hd)

theorem scanFrom_setupTrace (c : Cfg) (v : Level) :
    scanFrom .outside (setupTrace c v) = some .outside :=
  scanFrom_outside fun _ he => (mem_setupTrace he).2.2

/-- The frames and delays of ROM entries lead from outside to outside. -/
theorem scanFrom_entryEvents (o : Opc) (es : List RomEntry) :
    scanFrom .outside (entryEvents o es) = some .outside := by
  induction es with
  | nil => rfl
  | cons e es ih =>
    unfold entryEvents at ih ⊢
    rw [List.flatMap_cons, scanFrom_append, scanFrom_append, scanFrom_frameEvents, Option.bind_some]
    have : scanFrom .outside (delayEvents e.delayMs) = some .outside := by
      unfold delayEvents; split <;> rfl
    rw [this, Option.bind_some, ih]

theorem countP_entryEvents (o : Opc) (es : List RomEntry) :
    (entryEvents o es).countP Event.isTx = entryLength es := by
  induction es with
  | nil => rfl
  | cons e es ih =>
    have : (delayEvents e.delayMs).countP Event.isTx = 0 := by
      unfold delayEvents; split <;> rfl
    unfold entryEvents at ih ⊢
    rw [List.flatMap_cons, List.countP_append, List.countP_append, countP_frameEvents, this, ih,
      entryLength_cons]; rfl

end Sys2Proof.Machine
end

