-- ==== Sys2Proof/Laws/Step.lean ====
section
/-! SUPPORT. What a step does, by the state of the block: which case of the step applies. -/

namespace Sys2Proof.Machine

theorem stepTimes_next {s t : State} (n : Nat) (h : step s = .next t) :
    stepTimes (n + 1) s = stepTimes n t := by
  rw [stepTimes, h]

/-! ## The block ready -/

theorem step_ready {s : State} (h : s.busy = false) : step s = stepReady s := by
  unfold step; rw [if_neg (by simp [h])]

theorem step_waits {s : State} (h : s.busy = false) (hh : s.host = []) : step s = .next s := by
  rw [step_ready h]; unfold stepReady; rw [hh]

theorem step_store {s : State} {a : Word} {b : Byte} {acts : List HostAct} (h : s.busy = false)
    (hh : s.host = .store a b :: acts) : step s = .next (hostStore a b { s with host := acts }) := by
  rw [step_ready h]; unfold stepReady; rw [hh]

/-- With a word offered, a step is what the decoder says of the offered words (R70, R77). -/
theorem step_offer {s : State} {w : Word} {acts : List HostAct} (h : s.busy = false)
    (hh : s.host = .offer w :: acts) :
    step s = match offeredRequest s with
      | .instr i n => exec i (acceptRequest n s)
      | .illegal _ => .next (raiseIllegal (acceptRequest 1 s))
      | .incomplete => .next s := by
  rw [step_ready h]; unfold stepReady; rw [hh] <;> cases offeredRequest s <;> rfl

/-! ## The block busy -/

theorem step_busy {s : State} (h : s.busy = true) : step s = stepBusy s := by
  unfold step; rw [if_pos h]

theorem step_in_sequence {s : State} (h : s.busy = true) (hp : s.phase = .seq ∨ s.phase = .delay) :
    step s = stepSequence s := by
  rw [step_busy h]; unfold stepBusy; rcases hp with hp | hp <;> rw [hp]

theorem step_hung {s : State} (h : Hung s) : step s = .next s := by
  rw [step_busy h.1]; unfold stepBusy; rw [h.2.1, h.2.2]; rfl

/-- A hang stays as it is, however many steps it is given (R58). -/
theorem stepTimes_hung {s : State} (h : Hung s) (n : Nat) : stepTimes n s = .next s := by
  induction n with
  | zero => rfl
  | succ n ih => rw [stepTimes_next n (step_hung h), ih]

theorem step_transfer {s : State} (h : s.busy = true) (hp : s.phase = .frame) (hr : s.ramwrDue = true) :
    step s = execRamwr s := by
  rw [step_busy h]; unfold stepBusy; rw [hp, hr]; rfl

theorem step_response {s : State} (h : s.busy = true) (hp : s.phase = .resp) :
    step s = .next (endUpdate s) := by
  rw [step_busy h]; unfold stepBusy; rw [hp]

/-- The panel command of a ROM entry is that entry's step (R124, R130 to R149). -/
theorem exec_ofSlot {c : Cfg} {n : Nat} {e : RomEntry} (h : (initRom c)[n]? = some e) (s : State)
    (hc : s.cfg = c) :
    exec (.ofSlot e.slot) s = .next (panelStep (opcByte s.cfg.opc e.slot) e.params e.delayMs s) := by
  subst hc
  have hm := List.mem_of_getElem? h
  unfold initRom at hm
  simp only [List.cons_append, List.nil_append, List.mem_cons, List.not_mem_nil, or_false] at hm
  rcases hm with rfl | rfl | rfl | rfl | rfl | rfl | rfl | rfl | rfl | rfl | rfl | rfl | rfl | rfl |
    rfl | rfl | rfl | rfl | rfl | rfl <;> rfl

/-- A step inside INIT's sequence: the entry the step counter points at, or the end of INIT (R30). -/
theorem stepSequence_entry {s : State} {e : RomEntry} (h : (initRom s.cfg)[s.seqPc.toNat]? = some e) :
    stepSequence s = .next (panelStep (opcByte s.cfg.opc e.slot) e.params e.delayMs s) := by
  unfold stepSequence sequencedCommand romEntry
  rw [h]
  exact exec_ofSlot h s rfl

theorem stepSequence_end {s : State} (h : (initRom s.cfg)[s.seqPc.toNat]? = none) :
    stepSequence s = .next (finishInit s) := by
  unfold stepSequence sequencedCommand romEntry
  rw [h]; rfl

/-! ## The inversion lemma of step -/

/-- How a step that answered a next state went. -/
inductive Stepped (s t : State) : Prop where
  /-- The block waits for the host, or hangs (R42, R58). -/
  | stays (h : t = s)
  /-- The host stored a framebuffer byte (R62). -/
  | stored (a : Word) (b : Byte) (acts : List HostAct) (hb : s.busy = false)
      (hh : s.host = .store a b :: acts) (h : t = hostStore a b { s with host := acts })
  /-- The offered request ran (R70). -/
  | requested (i : Instr) (n : Nat) (hb : s.busy = false) (hd : offeredRequest s = .instr i n)
      (he : exec i (acceptRequest n s) = .next t)
  /-- The offered word was illegal (R77). -/
  | illegal (hb : s.busy = false) (h : t = raiseIllegal (acceptRequest 1 s))
  /-- A panel command of INIT's sequence ran (R120). -/
  | sequenced (e : RomEntry) (hb : s.busy = true) (hp : s.phase = .seq ∨ s.phase = .delay)
      (hr : (initRom s.cfg)[s.seqPc.toNat]? = some e) (he : exec (.ofSlot e.slot) s = .next t)
  /-- INIT ended (R120). -/
  | finished (hb : s.busy = true) (hp : s.phase = .seq ∨ s.phase = .delay)
      (hr : (initRom s.cfg)[s.seqPc.toNat]? = none) (h : t = finishInit s)
  /-- UPDATE's transfer ran (R160). -/
  | transferred (hb : s.busy = true) (hp : s.phase = .frame) (hr : s.ramwrDue = true)
      (he : exec .ramwr s = .next t)
  /-- UPDATE responded (R160). -/
  | responded (hb : s.busy = true) (hp : s.phase = .resp) (h : t = endUpdate s)

theorem stepSequence_inv {s t : State} (hb : s.busy = true) (hp : s.phase = .seq ∨ s.phase = .delay)
    (h : stepSequence s = .next t) : Stepped s t := by
  cases hr : (initRom s.cfg)[s.seqPc.toNat]? with
  | none => rw [stepSequence_end hr] at h; cases h; exact .finished hb hp hr rfl
  | some e =>
    rw [stepSequence_entry hr, ← exec_ofSlot hr s rfl] at h
    exact .sequenced e hb hp hr h

/-- The inversion lemma: a step that answers a next state went in one of these ways. -/
theorem step_inv {s t : State} (h : step s = .next t) : Stepped s t := by
  cases hb : s.busy with
  | false =>
    rw [step_ready hb] at h
    unfold stepReady at h
    split at h
    · cases h; exact .stays rfl
    · rename_i a b acts hh
      cases h; exact .stored a b acts hb hh rfl
    · split at h
      · rename_i i n hd
        exact .requested i n hb hd h
      · cases h; exact .illegal hb rfl
      · cases h; exact .stays rfl
  | true =>
    rw [step_busy hb] at h
    unfold stepBusy at h
    split at h
    · exact stepSequence_inv hb (Or.inl (by assumption)) h
    · exact stepSequence_inv hb (Or.inr (by assumption)) h
    · split at h
      · exact .transferred hb (by assumption) (by assumption) h
      · cases h; exact .stays rfl
    · cases h; exact .responded hb (by assumption) rfl
    · cases h
    · cases h

end Sys2Proof.Machine
end

