-- ==== Sys2Proof/Laws/Cases.lean ====
section
/-! SUPPORT. Everything each instruction can do, said once: how its checks end it, how it completes, where
it hangs (R58) and where it is given up (R226). Statements over all instructions cite these. -/

namespace Sys2Proof.Machine

/-! ## COMMAND and UPDATE -/

/-- What a COMMAND past its checks sends its frame from. -/
abbrev commandStart (data : Option (List Byte)) (s : State) : State := { s with dataR := data.getD s.dataR }

/-- Everything COMMAND can do. -/
theorem execCommand_cases (op : Byte) (data : Option (List Byte)) (s : State) :
    (s.fault ≠ 0 ∧ execCommand op data s = .next (respond (statusWord s.fault) s)) ∨
    (s.fault = 0 ∧ s.initDone = false ∧ execCommand op data s = .next (raise codeNotInit s)) ∨
    (Operational s ∧ execCommand op data s = .next (endCommand (afterFrame op data (commandStart data s)))) ∨
    (Operational s ∧ ∃ k < frameLength data, LateAt k s ∧
      ((s.cfg.timeoutMs = none ∧
          execCommand op data s = .next (stalledFrame k op data (commandStart data s))) ∨
        (s.cfg.timeoutMs.isSome = true ∧ execCommand op data s = .next (abortTransport (releaseData
          { stalledFrame k op data (commandStart data s) with bus := s.bus.skip (k + 1) }))))) := by
  rcases initGate_cases s with ⟨h, -⟩ | ⟨h, hg⟩ | ⟨h, hi, hg⟩
  · rw [execCommand_pass h]
    rcases frame_cases op data (commandStart data s) with hf | ⟨k, hk, -, hl, hf⟩
    · exact Or.inr (Or.inr (Or.inl ⟨h, by rw [hf]; rfl⟩))
    · refine Or.inr (Or.inr (Or.inr ⟨h, k, hk, hl, ?_⟩))
      rw [hf, stall_settle]
      cases ht : s.cfg.timeoutMs with
      | none => exact Or.inl ⟨rfl, by simp [stalledFrame, ht]⟩
      | some t => exact Or.inr ⟨rfl, by simp [stalledFrame, ht]⟩
  · exact Or.inl ⟨h, by unfold execCommand; rw [hg]⟩
  · exact Or.inr (Or.inl ⟨h, hi, by unfold execCommand; rw [hg]⟩)

/-- What a transfer sends its frame from. -/
abbrev transferStart (s : State) : State := landForeign { s with ramwrDue := false }

/-- Everything the frame of a transfer can do. -/
theorem ramwrFrame_cases (s : State) :
    ramwrFrame s = .done (afterFrame s.cfg.opc.ramwr (some (framebufferBytes s)) (transferStart s)) ∨
    ∃ k < 1 + s.cfg.nBytes, LateAt k s ∧
      ramwrFrame s = stall (stalledFrame k s.cfg.opc.ramwr (some (framebufferBytes s)) (transferStart s)) := by
  rcases frame_cases s.cfg.opc.ramwr (some (framebufferBytes s)) (transferStart s) with
    h | ⟨k, hk, -, hl, h⟩
  · exact Or.inl h
  · exact Or.inr ⟨k, by simpa [frameLength] using hk, hl, h⟩

/-- Everything UPDATE can do. -/
theorem execUpdate_cases (b : Bool) (s : State) :
    (s.fault ≠ 0 ∧ execUpdate b s = .next (respond (statusWord s.fault) s)) ∨
    (s.fault = 0 ∧ s.initDone = false ∧ execUpdate b s = .next (raise codeNotInit s)) ∨
    (Operational s ∧ sizeMatches s.cfg = false ∧ execUpdate b s = .next (raise codeConfigFb s)) ∨
    (Operational s ∧ execUpdate b s = .fault .readOutsideFramebuffer) ∨
    (Operational s ∧ execUpdate b s = .next (endUpdate
      (afterFrame s.cfg.opc.ramwr (some (framebufferBytes s)) (transferStart s)))) ∨
    (Operational s ∧ ∃ k < 1 + s.cfg.nBytes, LateAt k s ∧
      ((s.cfg.timeoutMs = none ∧ execUpdate b s = .next
          (stalledFrame k s.cfg.opc.ramwr (some (framebufferBytes s)) (transferStart s))) ∨
        (s.cfg.timeoutMs.isSome = true ∧ execUpdate b s = .next (abortTransport
          { stalledFrame k s.cfg.opc.ramwr (some (framebufferBytes s)) (transferStart s) with
            bus := s.bus.skip (k + 1) })))) := by
  unfold execUpdate
  rcases initGate_cases s with ⟨h, hg⟩ | ⟨h, hg⟩ | ⟨h, hi, hg⟩
  · rw [hg]
    dsimp only
    cases hs : sizeMatches s.cfg with
    | false => exact Or.inr (Or.inr (Or.inl ⟨h, rfl, rfl⟩))
    | true =>
      cases ht : transferReadable s.cfg s.cfg.nBytes with
      | false => exact Or.inr (Or.inr (Or.inr (Or.inl ⟨h, rfl⟩)))
      | true =>
        rcases ramwrFrame_cases s with hf | ⟨k, hk, hl, hf⟩
        · exact Or.inr (Or.inr (Or.inr (Or.inr (Or.inl ⟨h, by rw [hf]; rfl⟩))))
        · refine Or.inr (Or.inr (Or.inr (Or.inr (Or.inr ⟨h, k, hk, hl, ?_⟩))))
          rw [hf, stall_settle]
          cases hm : s.cfg.timeoutMs with
          | none => exact Or.inl ⟨rfl, by simp [stalledFrame, landForeign, hm]⟩
          | some t => exact Or.inr ⟨rfl, by simp [stalledFrame, landForeign, hm]⟩
  · exact Or.inl ⟨h, by rw [hg]⟩
  · exact Or.inr (Or.inl ⟨h, hi, by rw [hg]⟩)

/-- Everything RAMWR can do. -/
theorem execRamwr_cases (s : State) :
    execRamwr s = .fault .readOutsideFramebuffer ∨
    execRamwr s = .next { afterFrame s.cfg.opc.ramwr (some (framebufferBytes s)) (transferStart s) with
      phase := .resp } ∨
    ∃ k < 1 + s.cfg.nBytes, LateAt k s ∧
      ((s.cfg.timeoutMs = none ∧ execRamwr s = .next
          (stalledFrame k s.cfg.opc.ramwr (some (framebufferBytes s)) (transferStart s))) ∨
        (s.cfg.timeoutMs.isSome = true ∧ execRamwr s = .next (abortTransport
          { stalledFrame k s.cfg.opc.ramwr (some (framebufferBytes s)) (transferStart s) with
            bus := s.bus.skip (k + 1) }))) := by
  unfold execRamwr
  cases ht : transferReadable s.cfg s.cfg.nBytes with
  | false => exact Or.inl rfl
  | true =>
    rcases ramwrFrame_cases s with hf | ⟨k, hk, hl, hf⟩
    · exact Or.inr (Or.inl (by rw [hf]; rfl))
    · refine Or.inr (Or.inr ⟨k, hk, hl, ?_⟩)
      rw [hf, stall_settle]
      cases hm : s.cfg.timeoutMs with
      | none => exact Or.inl ⟨rfl, by simp [stalledFrame, landForeign, hm]⟩
      | some t => exact Or.inr ⟨rfl, by simp [stalledFrame, landForeign, hm]⟩

/-! ## INIT and SET_BACKLIGHT -/

/-- Everything INIT can do. -/
theorem execInit_cases (auto : Bool) (s : State) :
    (s.fault ≠ 0 ∧ execInit auto s = .next (respond (statusWord s.fault) s)) ∨
    (s.fault = 0 ∧ auto = false ∧ execInit auto s = .next
      (respond 0 { setup { s with phase := .setup } with initDone := true })) ∨
    (s.fault = 0 ∧ auto = true ∧ execInit auto s = .next
      (finishInit (afterEntries (initRom s.cfg) (startSequence s)))) ∨
    (s.fault = 0 ∧ auto = true ∧ ∃ pre e post k, initRom s.cfg = pre ++ e :: post ∧
      k < frameLength e.params ∧ LateAt (entryLength pre + k) s ∧
      ((s.cfg.timeoutMs = none ∧ execInit auto s = .next
          (stalledFrame k (opcByte s.cfg.opc e.slot) e.params (afterEntries pre (startSequence s)))) ∨
        (s.cfg.timeoutMs.isSome = true ∧ execInit auto s = .next (abortInit
          { stalledFrame k (opcByte s.cfg.opc e.slot) e.params (afterEntries pre (startSequence s)) with
            bus := (stalledFrame k (opcByte s.cfg.opc e.slot) e.params
              (afterEntries pre (startSequence s))).bus.skip 1 })))) := by
  by_cases h : s.fault = 0
  · cases auto with
    | false => exact Or.inr (Or.inl ⟨h, rfl, execInit_pass h false⟩)
    | true =>
      rcases execInit_sequence h with ⟨-, hr⟩ | ⟨pre, e, post, k, hp, hk, -, hl, hr⟩
      · exact Or.inr (Or.inr (Or.inl ⟨h, rfl, hr⟩))
      · refine Or.inr (Or.inr (Or.inr ⟨h, rfl, pre, e, post, k, hp, hk, hl, ?_⟩))
        rw [hr, stall_settle]
        have hc : (stalledFrame k (opcByte s.cfg.opc e.slot) e.params
            (afterEntries pre (startSequence s))).cfg.timeoutMs = s.cfg.timeoutMs := by simp [stalledFrame]
        rw [hc]
        cases ht : s.cfg.timeoutMs with
        | none => exact Or.inl ⟨rfl, rfl⟩
        | some t => exact Or.inr ⟨rfl, rfl⟩
  · exact Or.inl ⟨h, by unfold execInit; rw [faultGate_ended h]⟩

/-- Everything SET_BACKLIGHT can do. -/
theorem execSetBacklight_cases (b : Byte) (s : State) :
    (s.fault ≠ 0 ∧ execSetBacklight b s = .next (respond (statusWord s.fault) s)) ∨
    (s.fault = 0 ∧ s.initDone = false ∧ execSetBacklight b s = .next (raise codeNotInit s)) ∨
    (Operational s ∧ pinPresent s.cfg.pinBl = true ∧
      execSetBacklight b s = .next (respond 0 (writePwmLevel (duty b) s))) ∨
    (Operational s ∧ pinPresent s.cfg.pinBl = false ∧ execSetBacklight b s = .next (respond 0 s)) := by
  unfold execSetBacklight
  rcases initGate_cases s with ⟨h, hg⟩ | ⟨h, hg⟩ | ⟨h, hi, hg⟩
  · rw [hg]
    cases hp : pinPresent s.cfg.pinBl with
    | true => exact Or.inr (Or.inr (Or.inl ⟨h, rfl, rfl⟩))
    | false => exact Or.inr (Or.inr (Or.inr ⟨h, rfl, rfl⟩))
  · exact Or.inl ⟨h, by rw [hg]⟩
  · exact Or.inr (Or.inl ⟨h, hi, by rw [hg]⟩)

end Sys2Proof.Machine
end

