-- ==== Sys2Proof/Laws/Encoding.lean ====
section
/-! SUPPORT. The fields of a request word as numbers, the encoder's words as numbers, and packing and
unpacking of data bytes. -/

namespace Sys2Proof

/-! ## Fields as numbers -/

theorem opField_toNat (w : Word) : (opField w).toNat = w.toNat / 2 ^ 28 := by
  have := w.isLt
  simp only [opField, BitVec.extractLsb'_toNat, Nat.shiftRight_eq_div_pow]
  omega

/-- A request word decodes by its top nibble (R71). -/
theorem decodeRequest_op {w : Word} {k : Nat} (h : w.toNat / 2 ^ 28 = k) (rest : List Word) :
    decodeRequest w rest = decodeOp k w rest := by
  unfold decodeRequest; rw [opField_toNat, h]

theorem lowByte_toNat (w : Word) : (lowByte w).toNat = w.toNat % 2 ^ 8 := by
  simp [lowByte]

theorem operandField_eq (w : Word) : operandField w = BitVec.ofNat 28 w.toNat := by
  apply BitVec.eq_of_toNat_eq; simp [operandField]

theorem wordByte_eq (w : Word) (k : Nat) : wordByte w k = BitVec.ofNat 8 (w.toNat / 2 ^ (8 * k)) := by
  apply BitVec.eq_of_toNat_eq
  simp only [wordByte, BitVec.extractLsb'_toNat, BitVec.toNat_ofNat, Nat.shiftRight_eq_div_pow]

/-- A bit of `W[27:lo]` is set exactly where the operand bits reach `2^lo` (R71). -/
theorem reservedSet_iff {lo : Nat} (h : lo ≤ 28) (w : Word) :
    reservedSet lo w = true ↔ 2 ^ lo ≤ w.toNat % 2 ^ 28 := by
  have hp : (2 : Nat) ^ 28 = 2 ^ lo * 2 ^ (28 - lo) := by rw [← pow_add]; congr 1; omega
  have h0 : 0 < 2 ^ lo := by positivity
  unfold reservedSet
  rw [bne_iff_ne, Ne, ← BitVec.toNat_inj, BitVec.extractLsb'_toNat, Nat.shiftRight_eq_div_pow, hp,
    ← Nat.mod_mul_right_div_self, show BitVec.toNat (0 : BitVec (28 - lo)) = 0 from BitVec.toNat_zero,
    Nat.div_eq_zero_iff]
  omega

theorem testFlag_iff (w : Word) (k : Nat) : w.getLsbD k = true ↔ w.toNat / 2 ^ k % 2 = 1 := by
  rw [BitVec.getLsbD, Nat.testBit_eq_decide_div_mod_eq]; simp

/-! ## The encoder's words as numbers -/

/-- An append of bit vectors as a number. -/
theorem append_toNat {m n : Nat} (x : BitVec m) (y : BitVec n) :
    (x ++ y).toNat = x.toNat * 2 ^ n + y.toNat := by
  rw [BitVec.toNat_append, ← Nat.shiftLeft_add_eq_or_of_lt y.isLt, Nat.shiftLeft_eq]

theorem flagWord_toNat (op : BitVec 4) (f : Bool) :
    (flagWord op f).toNat = op.toNat * 2 ^ 28 + f.toNat := by
  unfold flagWord; simp only [append_toNat]; cases f <;> simp <;> omega

theorem commandWord_toNat (opcode : Byte) (hasData : Bool) :
    (commandWord opcode hasData).toNat = 2 * 2 ^ 28 + hasData.toNat * 2 ^ 8 + opcode.toNat := by
  unfold commandWord; simp only [append_toNat]; cases hasData <;> simp

theorem opWord_toNat (op : BitVec 4) (x : BitVec 28) :
    (opWord op x).toNat = op.toNat * 2 ^ 28 + x.toNat := append_toNat op x

theorem packWord_toNat (b0 b1 b2 b3 : Byte) : (packWord b0 b1 b2 b3).toNat =
    b3.toNat * 2 ^ 24 + b2.toNat * 2 ^ 16 + b1.toNat * 2 ^ 8 + b0.toNat := by
  unfold packWord; simp only [append_toNat]; omega

/-- The top nibble of a word has sixteen values. -/
theorem decodeRequest_cases (w : Word) (rest : List Word) :
    ∃ k < 16, w.toNat / 2 ^ 28 = k ∧ decodeRequest w rest = decodeOp k w rest :=
  ⟨_, by have := w.isLt; omega, rfl, decodeRequest_op rfl rest⟩

/-- What COMMAND's words decode to (R73). -/
theorem decodeCommand_cases {w : Word} {rest : List Word} {i : Instr} {n : Nat}
    (h : decodeCommand w rest = .instr i n) :
    (w.getLsbD 8 = false ∧ i = .command (lowByte w) none ∧ n = 1) ∨
    ∃ len ws, w.getLsbD 8 = true ∧ rest = len :: ws ∧ dataWords len.toNat ≤ ws.length ∧
      n = 2 + dataWords len.toNat ∧ i = .command (lowByte w)
        (some ((unpackWords (ws.take (dataWords len.toNat))).take len.toNat)) := by
  unfold decodeCommand at h
  split at h
  · rename_i hf
    cases rest with
    | nil => cases h
    | cons len ws =>
      simp only at h
      split at h
      · rename_i hv
        cases h; exact Or.inr ⟨_, _, hf, rfl, hv, rfl, rfl⟩
      · cases h
  · rename_i hf
    cases h; exact Or.inl ⟨by simpa using hf, rfl, rfl⟩

/-- The request words decode to the host's requests alone, never to a panel command (R71, R83). -/
theorem decode_request {ws : List Word} {i : Instr} {n : Nat} (h : decode (.req ws) = .instr i n) :
    ∃ vs, encode i = .req vs := by
  cases ws with
  | nil => cases h
  | cons w rest =>
    obtain ⟨k, hk, -, he⟩ := decodeRequest_cases w rest
    change decodeRequest w rest = _ at h
    rw [he] at h
    unfold decodeOp decodeAccessor at h
    interval_cases k <;> simp only at h <;> (try split at h) <;> (try cases h) <;>
      (try exact ⟨_, rfl⟩)
    rcases decodeCommand_cases h with ⟨-, rfl, -⟩ | ⟨_, _, -, -, -, -, rfl⟩ <;> exact ⟨_, rfl⟩

/-! ## Data bytes -/

theorem wordByte_packWord (b0 b1 b2 b3 : Byte) :
    wordByte (packWord b0 b1 b2 b3) 0 = b0 ∧ wordByte (packWord b0 b1 b2 b3) 1 = b1 ∧
    wordByte (packWord b0 b1 b2 b3) 2 = b2 ∧ wordByte (packWord b0 b1 b2 b3) 3 = b3 := by
  simp only [wordByte_eq, packWord_toNat]
  refine ⟨?_, ?_, ?_, ?_⟩ <;> apply BitVec.eq_of_toNat_eq <;> rw [BitVec.toNat_ofNat] <;> omega

theorem packBytes_length (d : List Byte) : (packBytes d).length = dataWords d.length := by
  fun_induction packBytes d <;> simp_all [dataWords]
  omega

theorem unpackWords_packBytes (d : List Byte) : (unpackWords (packBytes d)).take d.length = d := by
  fun_induction packBytes d <;> simp_all [unpackWords, wordByte_packWord]

theorem unpackWords_length (ws : List Word) : (unpackWords ws).length = 4 * ws.length := by
  induction ws with
  | nil => rfl
  | cons w ws ih => simp [unpackWords, ih]; omega

/-- Byte `k` of unpacked words is byte `k mod 4` of word `k / 4` (R73). -/
theorem unpackWords_getElem? (ws : List Word) (k : Nat) (h : k < 4 * ws.length) :
    (unpackWords ws)[k]? = some (wordByte (ws.getD (k / 4) 0) (k % 4)) := by
  induction ws generalizing k with
  | nil => simp at h
  | cons w ws ih =>
    unfold unpackWords
    match k with
    | 0 => rfl
    | 1 => rfl
    | 2 => rfl
    | 3 => rfl
    | k + 4 =>
      have e1 : (k + 4) / 4 = k / 4 + 1 := by omega
      have e2 : (k + 4) % 4 = k % 4 := by omega
      rw [e1, e2]
      simpa using ih k (by simp at h; omega)

/-- The panel table read both ways (R85). -/
theorem panelTable_both_ways :
    ∀ e ∈ panelTable, encode e.2 = .panel e.1 ∧ decodePanel e.1 = .instr e.2 1 := by
  decide

end Sys2Proof
end

