-- ==== Sys2Proof/Laws/Geometry.lean ====
section
/-! SUPPORT. What the derived configuration values and the configuration check amount to, in natural
numbers. -/

namespace Sys2Proof.Machine

theorem offsetOf_of_le {ctrl size : Half} (h : size.toNat ≤ ctrl.toNat) :
    offsetOf ctrl size = ((ctrl.toNat - size.toNat) / 2 : Nat) := by
  unfold offsetOf
  omega

theorem windowEnd_of_le {ctrl size : Half} (h : size.toNat ≤ ctrl.toNat) (h1 : 1 ≤ size.toNat) :
    windowEnd ctrl size = (size.toNat + (ctrl.toNat - size.toNat) / 2 - 1 : Nat) := by
  unfold windowEnd
  rw [offsetOf_of_le h]
  omega

/-- No bit of a small natural number is lost in a byte. -/
theorem toNat_ofInt_byte {n : Nat} (h : n ≤ 255) : (BitVec.ofInt 8 (n : Int)).toNat = n := by
  rw [BitVec.ofInt_natCast, BitVec.toNat_ofNat]
  omega

theorem geometryOk_iff (p : Params) : geometryOk p = true ↔
    1 ≤ p.width.toNat ∧ p.width.toNat ≤ p.ctrlW.toNat ∧ 1 ≤ p.height.toNat ∧
    p.height.toNat ≤ p.ctrlH.toNat ∧
    p.width.toNat + (p.ctrlW.toNat - p.width.toNat) / 2 - 1 ≤ 255 ∧
    p.height.toNat + (p.ctrlH.toNat - p.height.toNat) / 2 - 1 ≤ 255 := by
  unfold geometryOk windowEnd offsetOf
  rw [decide_eq_true_eq]
  constructor <;> intro h <;> refine ⟨?_, ?_, ?_, ?_, ?_, ?_⟩ <;> omega

theorem pinInRange_iff (p : Params) (pin : Word) : pinInRange p pin = true ↔
    0 ≤ pin.toInt ∧ pin.toInt < p.numPins.toNat := by
  unfold pinInRange
  rw [decide_eq_true_eq]

theorem framebufferOk_iff (p : Params) : framebufferOk p = true ↔
    p.fbLen.toNat = p.width.toNat * p.height.toNat ∧ p.fbBase.toNat + 2 * p.fbLen.toNat ≤ 2 ^ 32 := by
  unfold framebufferOk pixelCount
  rw [decide_eq_true_eq]

/-- The code of the check: that of the first part that fails. -/
theorem cfgCheck_cases (p : Params) :
    (geometryOk p = false ∧ cfgCheck p = codeConfigGeometry) ∨
    (geometryOk p = true ∧ pinsValid p = false ∧ cfgCheck p = codeConfigPin) ∨
    (geometryOk p = true ∧ pinsValid p = true ∧ framebufferOk p = false ∧ cfgCheck p = codeConfigFb) ∨
    (geometryOk p = true ∧ pinsValid p = true ∧ framebufferOk p = true ∧ cfgCheck p = codeOk) := by
  unfold cfgCheck
  cases geometryOk p <;> cases pinsValid p <;> cases framebufferOk p <;> simp

end Sys2Proof.Machine
end

