-- ==== Sys2Proof/Laws/Lines.lean ====
section
/-! SUPPORT. What the events of frames, of the sequence and of setup say of the lines and the PWM
(spec/10_state.md R32, R33, R41). -/

namespace Sys2Proof.Machine

theorem linesOf_append (c : Cfg) (es fs : List Event) :
    linesOf c (es ++ fs) = fs.foldl (Lines.after c) (linesOf c es) := by
  unfold linesOf; rw [List.foldl_append]

/-- Bytes move no line. -/
theorem foldl_after_txs (c : Cfg) (v : Lines) (ds : List Byte) :
    (ds.map Event.tx).foldl (Lines.after c) v = v := by
  induction ds with
  | nil => rfl
  | cons d ds ih => exact ih

/-- A whole frame leaves CS deasserted and DC at its last phase (R34). -/
theorem foldl_after_frameEvents (c : Cfg) (v : Lines) (op : Byte) (src : DataSource) :
    (frameEvents op src).foldl (Lines.after c) v = { v with cs := .at .hi, dc := .at (dcAfter src) } := by
  cases src with
  | none => rfl
  | some ds =>
    have hd : ∀ w : Lines, (dataEvents (some ds)).foldl (Lines.after c) w = { w with dc := .at .hi } :=
      fun w => foldl_after_txs c _ ds
    unfold frameEvents
    rw [List.foldl_append, List.foldl_append, hd]
    rfl

/-- A stalled frame holds CS asserted, and DC as its byte `k` says. -/
theorem foldl_after_eventsBefore (c : Cfg) (v : Lines) (k : Nat) (op : Byte) (src : DataSource) :
    (eventsBefore k op src).foldl (Lines.after c) v =
      { v with cs := .at .lo, dc := stalledDc k } := by
  cases k with
  | zero => rfl
  | succ k =>
    unfold eventsBefore
    rw [List.foldl_append, foldl_after_txs]
    rfl

theorem foldl_after_delayEvents (c : Cfg) (v : Lines) (ms : Nat) :
    (delayEvents ms).foldl (Lines.after c) v = v := by
  unfold delayEvents; split <;> rfl

/-- Setup drives both lines, and starts the PWM where there is a backlight pin. The two pins must
differ, as the configuration check has it (R27, R122). -/
theorem foldl_after_setupTrace {c : Cfg} (h : c.pinCs ≠ c.pinDc) (v : Lines) (l : Level) :
    (setupTrace c l).foldl (Lines.after c) v = { v with
      cs := .at .hi, dc := .at l,
      pwmOn := if pinPresent c.pinBl then true else v.pwmOn,
      pwmLevel := if pinPresent c.pinBl then .unspec else v.pwmLevel } := by
  unfold setupTrace pinTrace
  cases h1 : pinPresent c.pinMiso <;> cases h2 : pinPresent c.pinVsync <;>
    cases h3 : pinPresent c.pinBl <;> simp [Lines.after, h]

/-- What the events of some entries of the ROM say of the lines: what the registers hold after them. -/
theorem foldl_after_entryEvents (c : Cfg) (v : Lines) (o : Opc) (es : List RomEntry) :
    (entryEvents o es).foldl (Lines.after c) v =
      { v with cs := if es = [] then v.cs else .at .hi, dc := lastDc es v.dc } := by
  induction es generalizing v with
  | nil => rfl
  | cons e es ih =>
    unfold entryEvents at ih ⊢
    rw [List.flatMap_cons, List.foldl_append, List.foldl_append, foldl_after_frameEvents,
      foldl_after_delayEvents, ih]
    simp [lastDc]

end Sys2Proof.Machine
end

