-- ==== Sys2Proof/Laws/PerInstr.lean ====
section
/-! SUPPORT. Per instruction: its encoding has the bits that its row of spec/opcode_table.json fixes. -/

namespace Sys2Proof.Laws.EncodedForm

/-- What a row of the opcode table fixes: the bits of the first word from `lo` up, as a number, or a
whole panel byte. -/
inductive Fixed where
  | word (lo value : Nat)
  | byte (value : Nat)

/-- The `fixed` entry of each row of spec/opcode_table.json. -/
def fixedBits : Instr → Fixed
  | .init _ => .word 1 134217728
  | .command _ _ => .word 9 1048576
  | .update _ => .word 1 402653184
  | .setBacklight _ => .word 8 4194304
  | .getBus => .word 0 2147483648
  | .getCs => .word 0 2415919104
  | .getDc => .word 0 2684354560
  | .getSck => .word 0 2952790016
  | .getMosi => .word 0 3221225472
  | .getMiso => .word 0 3489660928
  | .getBl => .word 0 3758096384
  | .getVsync => .word 0 4026531840
  | .reservedOp0 _ => .word 28 0
  | .reservedOp5 _ => .word 28 5
  | .reservedOp6 _ => .word 28 6
  | .reservedOp7 _ => .word 28 7
  | .swreset => .byte 1
  | .slpout => .byte 17
  | .frmctr1 => .byte 177
  | .frmctr2 => .byte 178
  | .frmctr3 => .byte 179
  | .invctr => .byte 180
  | .pwrctlA => .byte 192
  | .pwrctlB => .byte 194
  | .pwrctlC => .byte 195
  | .pwrctlD => .byte 196
  | .vmctr1 => .byte 197
  | .invon => .byte 33
  | .madctl => .byte 54
  | .colmod => .byte 58
  | .caset => .byte 42
  | .raset => .byte 43
  | .gmctrp1 => .byte 224
  | .gmctrn1 => .byte 225
  | .noron => .byte 19
  | .dispon => .byte 41
  | .ramwr => .byte 44

/-- The first word, or the panel byte, has the bits its row fixes. -/
def Statement (i : Instr) : Prop :=
  match fixedBits i, encode i with
  | .word lo value, .req (w :: _) => w.toNat / 2 ^ lo = value
  | .byte value, .panel b => b.toNat = value
  | _, _ => False

theorem init (auto : Bool) : Statement (.init auto) := by
  cases auto <;> rfl

theorem command (opcode : Byte) (data : Option (List Byte)) : Statement (.command opcode data) := by
  have h : ∀ f, (commandWord opcode f).toNat / 2 ^ 9 = 1048576 := by
    intro f; rw [commandWord_toNat]; cases f <;> simp <;> omega
  cases data with
  | none => exact h false
  | some d => exact h true

theorem update (dontBlock : Bool) : Statement (.update dontBlock) := by
  cases dontBlock <;> rfl

theorem setBacklight (brightness : Byte) : Statement (.setBacklight brightness) := by
  show ((4 : BitVec 4) ++ (0 : BitVec 20) ++ brightness : BitVec 32).toNat / 2 ^ 8 = 4194304
  rw [append_toNat, append_toNat]
  have := brightness.isLt
  simp only [BitVec.ofNat_eq_ofNat, BitVec.toNat_ofNat]
  omega

theorem getBus : Statement .getBus := rfl

theorem getCs : Statement .getCs := rfl

theorem getDc : Statement .getDc := rfl

theorem getSck : Statement .getSck := rfl

theorem getMosi : Statement .getMosi := rfl

theorem getMiso : Statement .getMiso := rfl

theorem getBl : Statement .getBl := rfl

theorem getVsync : Statement .getVsync := rfl

theorem reservedOp0 (x : BitVec 28) : Statement (.reservedOp0 x) := by
  show (opWord 0 x).toNat / 2 ^ 28 = 0
  rw [opWord_toNat]
  have := x.isLt
  simp only [BitVec.ofNat_eq_ofNat, BitVec.toNat_ofNat]
  omega

theorem reservedOp5 (x : BitVec 28) : Statement (.reservedOp5 x) := by
  show (opWord 5 x).toNat / 2 ^ 28 = 5
  rw [opWord_toNat]
  have := x.isLt
  simp only [BitVec.ofNat_eq_ofNat, BitVec.toNat_ofNat]
  omega

theorem reservedOp6 (x : BitVec 28) : Statement (.reservedOp6 x) := by
  show (opWord 6 x).toNat / 2 ^ 28 = 6
  rw [opWord_toNat]
  have := x.isLt
  simp only [BitVec.ofNat_eq_ofNat, BitVec.toNat_ofNat]
  omega

theorem reservedOp7 (x : BitVec 28) : Statement (.reservedOp7 x) := by
  show (opWord 7 x).toNat / 2 ^ 28 = 7
  rw [opWord_toNat]
  have := x.isLt
  simp only [BitVec.ofNat_eq_ofNat, BitVec.toNat_ofNat]
  omega

theorem swreset : Statement .swreset := rfl

theorem slpout : Statement .slpout := rfl

theorem frmctr1 : Statement .frmctr1 := rfl

theorem frmctr2 : Statement .frmctr2 := rfl

theorem frmctr3 : Statement .frmctr3 := rfl

theorem invctr : Statement .invctr := rfl

theorem pwrctlA : Statement .pwrctlA := rfl

theorem pwrctlB : Statement .pwrctlB := rfl

theorem pwrctlC : Statement .pwrctlC := rfl

theorem pwrctlD : Statement .pwrctlD := rfl

theorem vmctr1 : Statement .vmctr1 := rfl

theorem invon : Statement .invon := rfl

theorem madctl : Statement .madctl := rfl

theorem colmod : Statement .colmod := rfl

theorem caset : Statement .caset := rfl

theorem raset : Statement .raset := rfl

theorem gmctrp1 : Statement .gmctrp1 := rfl

theorem gmctrn1 : Statement .gmctrn1 := rfl

theorem noron : Statement .noron := rfl

theorem dispon : Statement .dispon := rfl

theorem ramwr : Statement .ramwr := rfl

end Sys2Proof.Laws.EncodedForm
end

