-- ==== Sys2Proof/Laws/Ran.lean ====
section
/-! SUPPORT. The inversion lemma of exec: every next state an instruction can answer, written out as one
update of the state it ran in. Statements over all instructions go through it. -/

namespace Sys2Proof.Machine

/-- Which frame an instruction sends: its opcode, its data, and the memory, the racing writes and the due
transfer after it. -/
inductive SendsFrame (i : Instr) (s : State) (op : Byte) (src : DataSource) (m : Memory)
    (f : List Host.Cell) (r : Bool) : Prop where
  | command (hi : i = .command op src) (ho : Operational s) (hm : m = s.mem) (hf : f = s.foreign)
      (hr : r = s.ramwrDue)
  | transfer (hi : i = .ramwr ∨ (Operational s ∧ ∃ b, i = .update b)) (hop : op = s.cfg.opc.ramwr)
      (hs : src = some (framebufferBytes s)) (hm : m = s.mem.writeAll s.foreign) (hf : f = [])
      (hr : r = false)
  | panel (n : Nat) (e : RomEntry) (he : (initRom s.cfg)[n]? = some e) (hi : i = .ofSlot e.slot)
      (hop : op = opcByte s.cfg.opc e.slot) (hs : src = e.params) (hm : m = s.mem) (hf : f = s.foreign)
      (hr : r = s.ramwrDue)

/-- How an instruction that answered a next state ran. -/
inductive Ran (i : Instr) (s t : State) : Prop where
  /-- A response and nothing else: an accessor, a stored fault, SET_BACKLIGHT with no pin. -/
  | answered (w : Word) (hi : i ≠ .ramwr) (h : t = { s with
      busy := false, phase := .idle, trace := s.trace ++ [.resp w] })
  /-- A fault of the request itself: no byte is sent (R221, R222, R161). -/
  | raised (c : Byte) (hc : c = 3 ∨ c = 4 ∨ c = 5) (hi : i ≠ .ramwr) (h : t = { s with
      busy := false, phase := .idle, fault := stickyFault s.fault c,
      trace := s.trace ++ [.resp (statusWord c)] })
  /-- SET_BACKLIGHT writes the level register (R180). -/
  | lit (b : Byte) (hi : i = .setBacklight b) (ho : Operational s) (h : t = { s with
      busy := false, phase := .idle, pwmLevel := .value (duty b),
      trace := s.trace ++ [.pwmLevel (duty b), .resp 0] })
  /-- INIT with no sequence (R128). -/
  | setUp (v : Level) (n : Nat) (hi : i = .init false) (h0 : s.fault = 0) (h : t = { s with
      initDone := true, busy := false, phase := .idle, csLine := .at .hi, dcLine := .at v, draws := n,
      pwmOn := if pinPresent s.cfg.pinBl then true else s.pwmOn,
      pwmLevel := if pinPresent s.cfg.pinBl then .unspec else s.pwmLevel,
      trace := s.trace ++ setupTrace s.cfg v ++ [.resp 0] })
  /-- INIT with its whole sequence (R120). -/
  | sequenced (v : Level) (pc o : Byte) (x : Word) (n : Nat) (hi : i = .init true) (h0 : s.fault = 0)
      (h : t = { s with
        initDone := true, busy := false, phase := .idle, seqPc := pc, opR := o, idx := x, draws := n,
        csLine := .at .hi, dcLine := .at .lo,
        pwmOn := if pinPresent s.cfg.pinBl then true else s.pwmOn,
        pwmLevel := if pinPresent s.cfg.pinBl then .unspec else s.pwmLevel,
        bus := s.bus.skip (entryLength (initRom s.cfg)),
        trace := s.trace ++ setupTrace s.cfg v ++ entryEvents s.cfg.opc (initRom s.cfg) ++ [.resp 0] })
  /-- INIT hangs at byte `k` of the frame of one of its entries (R58). -/
  | stuckInit (pre post : List RomEntry) (e : RomEntry) (k : Nat) (v : Level) (pc o : Byte) (x : Word)
      (n : Nat) (hi : i = .init true) (h0 : s.fault = 0) (ht : s.cfg.timeoutMs = none)
      (hp : initRom s.cfg = pre ++ e :: post) (hk : k < frameLength e.params)
      (hl : LateAt (entryLength pre + k) s) (h : t = { s with
        phase := .frame, seqPc := pc, opR := o, idx := x, draws := n,
        csLine := .at .lo, dcLine := stalledDc k,
        pwmOn := if pinPresent s.cfg.pinBl then true else s.pwmOn,
        pwmLevel := if pinPresent s.cfg.pinBl then .unspec else s.pwmLevel,
        bus := s.bus.skip (entryLength pre + k),
        trace := s.trace ++ setupTrace s.cfg v ++ entryEvents s.cfg.opc pre ++
          eventsBefore k (opcByte s.cfg.opc e.slot) e.params })
  /-- INIT is given up there (R226). -/
  | gaveUpInit (pre post : List RomEntry) (e : RomEntry) (k : Nat) (v : Level) (pc o : Byte) (x : Word)
      (n : Nat) (hi : i = .init true) (h0 : s.fault = 0) (ht : s.cfg.timeoutMs.isSome = true)
      (hp : initRom s.cfg = pre ++ e :: post) (hk : k < frameLength e.params)
      (hl : LateAt (entryLength pre + k) s) (h : t = { s with
        busy := false, phase := .idle, fault := 6, seqPc := pc, opR := o, idx := x, draws := n,
        csLine := .at .hi, dcLine := stalledDc k,
        pwmOn := if pinPresent s.cfg.pinBl then true else s.pwmOn,
        pwmLevel := if pinPresent s.cfg.pinBl then .unspec else s.pwmLevel,
        bus := s.bus.skip (entryLength pre + k + 1),
        trace := s.trace ++ setupTrace s.cfg v ++ entryEvents s.cfg.opc pre ++
          eventsBefore k (opcByte s.cfg.opc e.slot) e.params ++ [.cs .hi, .resp 6] })
  /-- COMMAND and UPDATE send their frame and respond (R104, R160). -/
  | completed (op : Byte) (src : DataSource) (m : Memory) (f : List Host.Cell) (r : Bool)
      (o : Byte) (d : List Byte) (x : Word) (n : Nat) (hf : SendsFrame i s op src m f r)
      (hi : (∃ d, i = .command op d) ∨ ∃ b, i = .update b) (h : t = { s with
        busy := false, phase := .idle, opR := o, dataR := d, idx := x, draws := n,
        csLine := .at .hi, dcLine := .at (dcAfter src), mem := m, foreign := f, ramwrDue := r,
        bus := s.bus.skip (frameLength src), trace := s.trace ++ frameEvents op src ++ [.resp 0] })
  /-- RAMWR sends its frame, and UPDATE's response is left (R160). -/
  | transferred (op : Byte) (src : DataSource) (m : Memory) (f : List Host.Cell) (r : Bool)
      (x : Word) (n : Nat) (hf : SendsFrame i s op src m f r) (hi : i = .ramwr) (h : t = { s with
        phase := .resp, opR := op, idx := x, draws := n,
        csLine := .at .hi, dcLine := .at (dcAfter src), mem := m, foreign := f, ramwrDue := r,
        bus := s.bus.skip (frameLength src), trace := s.trace ++ frameEvents op src })
  /-- A panel command of the sequence sends its frame and waits its delay (R120). -/
  | stepped (e : RomEntry) (k : Nat) (he : (initRom s.cfg)[k]? = some e) (hi : i = .ofSlot e.slot)
      (h : t = { s with
        phase := if e.delayMs = 0 then .seq else .delay, seqPc := s.seqPc + 1,
        opR := opcByte s.cfg.opc e.slot, idx := idxAfter e.params s,
        csLine := .at .hi, dcLine := .at (dcAfter e.params), bus := s.bus.skip (frameLength e.params),
        trace := s.trace ++ (frameEvents (opcByte s.cfg.opc e.slot) e.params ++ delayEvents e.delayMs) })
  /-- A frame hangs at its byte `k` (R58). -/
  | stuck (op : Byte) (src : DataSource) (m : Memory) (f : List Host.Cell) (r : Bool) (k : Nat)
      (d : List Byte) (x : Word) (n : Nat) (hf : SendsFrame i s op src m f r)
      (ht : s.cfg.timeoutMs = none) (hk : k < frameLength src) (hl : LateAt k s) (h : t = { s with
        phase := .frame, opR := op, dataR := d, idx := x, draws := n,
        csLine := .at .lo, dcLine := stalledDc k, mem := m, foreign := f, ramwrDue := r,
        bus := s.bus.skip k, trace := s.trace ++ eventsBefore k op src })
  /-- A frame is given up at its byte `k` (R226). -/
  | gaveUp (op : Byte) (src : DataSource) (m : Memory) (f : List Host.Cell) (r : Bool) (k : Nat)
      (pc o : Byte) (d : List Byte) (x : Word) (n : Nat) (hf : SendsFrame i s op src m f r)
      (ht : s.cfg.timeoutMs.isSome = true) (hk : k < frameLength src) (hl : LateAt k s)
      (h : t = { s with
        busy := false, phase := .idle, fault := stickyFault s.fault 6, seqPc := pc,
        opR := o, dataR := d, idx := x, draws := n,
        csLine := .at .hi, dcLine := stalledDc k, mem := m, foreign := f, ramwrDue := r,
        bus := s.bus.skip (k + 1), trace := s.trace ++ eventsBefore k op src ++ [.cs .hi, .resp 6] })

theorem ran_command {op : Byte} {data : Option (List Byte)} {s t : State}
    (h : execCommand op data s = .next t) : Ran (.command op data) s t := by
  rcases execCommand_cases op data s with ⟨-, h'⟩ | ⟨-, -, h'⟩ | ⟨ho, h'⟩ |
    ⟨ho, k, hk, hl, ⟨ht, h'⟩ | ⟨ht, h'⟩⟩ <;> rw [h'] at h <;> cases h
  · exact .answered _ (by simp) rfl
  · exact .raised codeNotInit (by decide) (by simp) rfl
  · rw [endCommand_eq]
    exact .completed op data s.mem s.foreign s.ramwrDue _ _ _ _ (.command rfl ho rfl rfl rfl)
      (Or.inl ⟨_, rfl⟩) rfl
  · refine .stuck op data s.mem s.foreign s.ramwrDue k (data.getD s.dataR)
      _ s.draws (.command rfl ho rfl rfl rfl) ht hk hl rfl
  · rw [abortTransport_eq]
    refine .gaveUp op data s.mem s.foreign s.ramwrDue k s.seqPc _ _ _ _
      (.command rfl ho rfl rfl rfl) ht hk hl
      (by simp only [stalledFrame, releaseData, List.append_assoc]; rfl)

theorem ran_update {b : Bool} {s t : State} (h : execUpdate b s = .next t) : Ran (.update b) s t := by
  rcases execUpdate_cases b s with ⟨-, h'⟩ | ⟨-, -, h'⟩ | ⟨-, -, h'⟩ | ⟨-, h'⟩ | ⟨ho, h'⟩ |
    ⟨ho, k, hk, hl, ⟨ht, h'⟩ | ⟨ht, h'⟩⟩ <;> rw [h'] at h <;> cases h
  · exact .answered _ (by simp) rfl
  · exact .raised codeNotInit (by decide) (by simp) rfl
  · exact .raised codeConfigFb (by decide) (by simp) rfl
  · rw [endUpdate_eq]
    exact .completed s.cfg.opc.ramwr (some (framebufferBytes s)) (s.mem.writeAll s.foreign) [] false _ _ _ _
      (.transfer (Or.inr ⟨ho, b, rfl⟩) rfl rfl rfl rfl rfl) (Or.inr ⟨b, rfl⟩) rfl
  · refine .stuck s.cfg.opc.ramwr (some (framebufferBytes s)) (s.mem.writeAll s.foreign) [] false k s.dataR
      _ _
      (.transfer (Or.inr ⟨ho, b, rfl⟩) rfl rfl rfl rfl rfl) ht (by simpa [frameLength] using hk) hl rfl
  · rw [abortTransport_eq]
    refine .gaveUp s.cfg.opc.ramwr (some (framebufferBytes s)) (s.mem.writeAll s.foreign) [] false k s.seqPc
      _ s.dataR _ _
      (.transfer (Or.inr ⟨ho, b, rfl⟩) rfl rfl rfl rfl rfl) ht (by simpa [frameLength] using hk) hl
      (by simp only [stalledFrame, landForeign, List.append_assoc]; rfl)

theorem ran_ramwr {s t : State} (h : execRamwr s = .next t) : Ran .ramwr s t := by
  rcases execRamwr_cases s with h' | h' | ⟨k, hk, hl, ⟨ht, h'⟩ | ⟨ht, h'⟩⟩ <;> rw [h'] at h <;> cases h
  · exact .transferred s.cfg.opc.ramwr (some (framebufferBytes s)) (s.mem.writeAll s.foreign) [] false _ _
      (.transfer (Or.inl rfl) rfl rfl rfl rfl rfl) rfl rfl
  · refine .stuck s.cfg.opc.ramwr (some (framebufferBytes s)) (s.mem.writeAll s.foreign) [] false k s.dataR
      _ _
      (.transfer (Or.inl rfl) rfl rfl rfl rfl rfl) ht (by simpa [frameLength] using hk) hl rfl
  · rw [abortTransport_eq]
    refine .gaveUp s.cfg.opc.ramwr (some (framebufferBytes s)) (s.mem.writeAll s.foreign) [] false k s.seqPc
      _ s.dataR _ _
      (.transfer (Or.inl rfl) rfl rfl rfl rfl rfl) ht (by simpa [frameLength] using hk) hl
      (by simp only [stalledFrame, landForeign, List.append_assoc]; rfl)

theorem ran_setBacklight {b : Byte} {s t : State} (h : execSetBacklight b s = .next t) :
    Ran (.setBacklight b) s t := by
  rcases execSetBacklight_cases b s with ⟨-, h'⟩ | ⟨-, -, h'⟩ | ⟨ho, -, h'⟩ | ⟨-, -, h'⟩ <;>
    rw [h'] at h <;> cases h
  · exact .answered _ (by simp) rfl
  · exact .raised codeNotInit (by decide) (by simp) rfl
  · exact .lit b rfl ho (by rw [respond_eq]; simp [writePwmLevel, emit])
  · exact .answered _ (by simp) rfl

theorem ran_init {auto : Bool} {s t : State} (h : execInit auto s = .next t) : Ran (.init auto) s t := by
  rcases execInit_cases auto s with ⟨-, h'⟩ | ⟨h0, rfl, h'⟩ | ⟨h0, rfl, h'⟩ |
    ⟨h0, rfl, pre, e, post, k, hp, hk, hl, ⟨ht, h'⟩ | ⟨ht, h'⟩⟩ <;> rw [h'] at h <;> cases h
  · exact .answered _ (by simp) rfl
  · rw [respond_eq, setup_eq]
    exact .setUp _ _ rfl h0 rfl
  · obtain ⟨o, x, ph, he⟩ := afterEntries_eq (initRom s.cfg) (startSequence s)
    rw [he, finishInit_eq, startSequence_eq]
    exact .sequenced (Config.freeLevel s.draws) _ _ _ _ rfl h0 rfl
  · obtain ⟨o, x, ph, he⟩ := afterEntries_eq pre (startSequence s)
    rw [he, startSequence_eq]
    exact .stuckInit pre post e k (Config.freeLevel s.draws) _ _ _ _ rfl h0 ht hp hk hl
      (by rw [← Bus.skip_skip]; rfl)
  · obtain ⟨o, x, ph, he⟩ := afterEntries_eq pre (startSequence s)
    have hs : stickyFault s.fault codeTransport = 6 := stickyFault_clear h0
    rw [he, startSequence_eq, abortInit_eq]
    exact .gaveUpInit pre post e k (Config.freeLevel s.draws) _ _ _ _ rfl h0 ht hp hk hl
      (by rw [← Bus.skip_skip, ← Bus.skip_skip]; simp only [stalledFrame, List.append_assoc, hs]; rfl)

/-- A panel command of the ROM. -/
theorem ran_panel {e : RomEntry} {s t : State} (n : Nat) (he : (initRom s.cfg)[n]? = some e)
    (h : exec (.ofSlot e.slot) s = .next t) : Ran (.ofSlot e.slot) s t := by
  rw [exec_ofSlot he s rfl] at h
  rcases panelStep_cases (opcByte s.cfg.opc e.slot) e.params e.delayMs s with
    h' | ⟨k, hk, -, hl, ⟨ht, h'⟩ | ⟨ht, h'⟩⟩ <;> rw [h'] at h <;> cases h
  · exact .stepped e n he rfl rfl
  · refine .stuck (opcByte s.cfg.opc e.slot) e.params s.mem s.foreign s.ramwrDue k s.dataR
      _ s.draws
      (.panel n e he rfl rfl rfl rfl rfl rfl) ht hk hl rfl
  · rw [abortInit_eq]
    refine .gaveUp (opcByte s.cfg.opc e.slot) e.params s.mem s.foreign s.ramwrDue k _ _ s.dataR _ _
      (.panel n e he rfl rfl rfl rfl rfl rfl) ht hk hl
      (by simp only [stalledFrame, List.append_assoc]; rfl)

/-- The inversion lemma: an instruction that answers a next state ran in one of these ways. -/
theorem exec_ran {i : Instr} {s t : State} (h : exec i s = .next t) : Ran i s t := by
  cases i with
  | init auto => exact ran_init h
  | command op data => exact ran_command h
  | update b => exact ran_update h
  | setBacklight b => exact ran_setBacklight h
  | ramwr => exact ran_ramwr h
  | getBus | getCs | getDc | getSck | getMosi | getMiso | getBl | getVsync =>
    cases h; exact .answered _ (by simp) rfl
  | reservedOp0 x | reservedOp5 x | reservedOp6 x | reservedOp7 x =>
    cases h; exact .raised codeIllegalReq (by decide) (by simp) rfl
  | swreset => exact ran_panel 0 rfl h
  | slpout => exact ran_panel 1 rfl h
  | frmctr1 => exact ran_panel 2 rfl h
  | frmctr2 => exact ran_panel 3 rfl h
  | frmctr3 => exact ran_panel 4 rfl h
  | invctr => exact ran_panel 5 rfl h
  | pwrctlA => exact ran_panel 6 rfl h
  | pwrctlB => exact ran_panel 7 rfl h
  | pwrctlC => exact ran_panel 8 rfl h
  | pwrctlD => exact ran_panel 9 rfl h
  | vmctr1 => exact ran_panel 10 rfl h
  | invon => exact ran_panel 11 rfl h
  | madctl => exact ran_panel 12 rfl h
  | colmod => exact ran_panel 13 rfl h
  | caset => exact ran_panel 14 rfl h
  | raset => exact ran_panel 15 rfl h
  | gmctrp1 => exact ran_panel 16 rfl h
  | gmctrn1 => exact ran_panel 17 rfl h
  | noron => exact ran_panel 18 rfl h
  | dispon => exact ran_panel 19 rfl h

end Sys2Proof.Machine
end

