-- ==== Sys2Proof/Tests/Slice0.lean ====
section
/-! SUPPORT. The model's own tests. Expected results come from spec/95_test_vectors.md and from the
encodings of spec/opcode_table.json, not from the model. Then, for every statement with hypotheses, a
witness that meets them. -/

namespace Sys2Proof.Tests

open Sys2Proof.Machine

/-! ## Well-formedness -/

theorem test_wf_refuses_a_command_too_long :
    ¬ (Instr.command 0 (some (List.replicate (2 ^ 32) 0))).WellFormed := by
  intro h
  change (List.replicate _ _).length < _ at h
  rw [List.length_replicate] at h
  exact Nat.lt_irrefl _ h

theorem test_wf_allows_a_short_command : (Instr.command 0xFF (some [])).WellFormed := by decide

theorem test_reference_parameters_are_legal : refParams.Legal := by decide

theorem test_legal_refuses_no_clock : ¬ Params.Legal { refParams with clockHz := 0 } := by decide

/-- R123: each parameter set with a byte count the spec does not allow. -/
theorem test_legal_refuses_wrong_counts :
    ¬ InitParams.Legal { refInitParams with frmctr1 := [1] } ∧
    ¬ InitParams.Legal { refInitParams with frmctr2 := [] } ∧
    ¬ InitParams.Legal { refInitParams with frmctr3 := [1, 2, 3, 4] } ∧
    ¬ InitParams.Legal { refInitParams with frmctr3 := [1, 2, 3] } ∧
    ¬ InitParams.Legal { refInitParams with frmctr1 := [1, 2, 3, 4, 5, 6], frmctr2 := [1, 2, 3, 4, 5, 6] } ∧
    ¬ InitParams.Legal { refInitParams with invctr := [] } :=
  ⟨by decide, by decide, by decide, by decide, by decide, by decide⟩

theorem test_legal_refuses_wrong_power_counts :
    ¬ InitParams.Legal { refInitParams with pwrctlA := [1] } ∧
    ¬ InitParams.Legal { refInitParams with pwrctlB := [1, 2, 3, 4] } ∧
    ¬ InitParams.Legal { refInitParams with pwrctlC := [] } ∧
    ¬ InitParams.Legal { refInitParams with pwrctlD := [1] } ∧
    ¬ InitParams.Legal { refInitParams with vmctr1 := [1, 2] } :=
  ⟨by decide, by decide, by decide, by decide, by decide⟩

theorem test_legal_refuses_wrong_gamma_counts :
    ¬ InitParams.Legal { refInitParams with madctl := [] } ∧
    ¬ InitParams.Legal { refInitParams with colmod := [5, 5] } ∧
    ¬ InitParams.Legal { refInitParams with gmctrp1 := [1] } ∧
    ¬ InitParams.Legal { refInitParams with gmctrn1 := [] } :=
  ⟨by decide, by decide, by decide, by decide⟩

/-! ## Decoding: words written out bit by bit from the `encoding` of each row -/

theorem test_decode_acting_requests :
    decode (.req [0b0001_0000_0000_0000_0000_0000_0000_0001]) = .instr (.init true) 1 ∧
    decode (.req [0b0010_0000_0000_0000_0000_0000_0010_1001]) = .instr (.command 0x29 none) 1 ∧
    decode (.req [0b0011_0000_0000_0000_0000_0000_0000_0001]) = .instr (.update true) 1 ∧
    decode (.req [0b0100_0000_0000_0000_0000_0000_1000_0000]) = .instr (.setBacklight 128) 1 := by decide

theorem test_decode_accessors :
    decode (.req [0b1000_0000_0000_0000_0000_0000_0000_0000]) = .instr .getBus 1 ∧
    decode (.req [0b1001_0000_0000_0000_0000_0000_0000_0000]) = .instr .getCs 1 ∧
    decode (.req [0b1010_0000_0000_0000_0000_0000_0000_0000]) = .instr .getDc 1 ∧
    decode (.req [0b1011_0000_0000_0000_0000_0000_0000_0000]) = .instr .getSck 1 ∧
    decode (.req [0b1100_0000_0000_0000_0000_0000_0000_0000]) = .instr .getMosi 1 ∧
    decode (.req [0b1101_0000_0000_0000_0000_0000_0000_0000]) = .instr .getMiso 1 ∧
    decode (.req [0b1110_0000_0000_0000_0000_0000_0000_0000]) = .instr .getBl 1 ∧
    decode (.req [0b1111_0000_0000_0000_0000_0000_0000_0000]) = .instr .getVsync 1 := by decide

theorem test_decode_reserved_operations :
    decode (.req [0b0000_0000_0000_0000_0000_0000_0000_0001]) = .instr (.reservedOp0 1) 1 ∧
    decode (.req [0b0101_1000_0000_0000_0000_0000_0000_0000]) = .instr (.reservedOp5 0x8000000) 1 ∧
    decode (.req [0b0110_0000_0000_0000_0000_0000_0000_0000]) = .instr (.reservedOp6 0) 1 ∧
    decode (.req [0b0111_1111_1111_1111_1111_1111_1111_1111]) = .instr (.reservedOp7 0xFFFFFFF) 1 := by decide

theorem test_decode_panel_commands :
    decode (.panel 0b0000_0001) = .instr .swreset 1 ∧
    decode (.panel 0b0001_0001) = .instr .slpout 1 ∧
    decode (.panel 0b1011_0001) = .instr .frmctr1 1 ∧
    decode (.panel 0b1011_0010) = .instr .frmctr2 1 ∧
    decode (.panel 0b1011_0011) = .instr .frmctr3 1 ∧
    decode (.panel 0b1011_0100) = .instr .invctr 1 ∧
    decode (.panel 0b1100_0000) = .instr .pwrctlA 1 ∧
    decode (.panel 0b1100_0010) = .instr .pwrctlB 1 ∧
    decode (.panel 0b1100_0011) = .instr .pwrctlC 1 ∧
    decode (.panel 0b1100_0100) = .instr .pwrctlD 1 := by decide

theorem test_decode_panel_commands_rest :
    decode (.panel 0b1100_0101) = .instr .vmctr1 1 ∧
    decode (.panel 0b0010_0001) = .instr .invon 1 ∧
    decode (.panel 0b0011_0110) = .instr .madctl 1 ∧
    decode (.panel 0b0011_1010) = .instr .colmod 1 ∧
    decode (.panel 0b0010_1010) = .instr .caset 1 ∧
    decode (.panel 0b0010_1011) = .instr .raset 1 ∧
    decode (.panel 0b1110_0000) = .instr .gmctrp1 1 ∧
    decode (.panel 0b1110_0001) = .instr .gmctrn1 1 ∧
    decode (.panel 0b0001_0011) = .instr .noron 1 ∧
    decode (.panel 0b0010_1001) = .instr .dispon 1 ∧
    decode (.panel 0b0010_1100) = .instr .ramwr 1 := by decide

/-- V-E11, V-E12: COMMAND with data; the padding bytes of the last word are ignored. -/
theorem test_decode_command_with_data :
    decode (.req [0x20000136, 1, 0xC8]) = .instr (.command 0x36 (some [0xC8])) 3 ∧
    decode (.req [0x200001E0, 5, 0x04030201, 0xAABBCC05, 0x90000000]) =
      .instr (.command 0xE0 (some [1, 2, 3, 4, 5])) 4 ∧
    decode (.req [0x20000100, 0]) = .instr (.command 0 (some [])) 2 ∧
    decode (.req [0x200001E0, 5, 0x04030201]) = .incomplete := by decide

/-- V-E3, V-E5 to V-E9: a reserved bit that is 1. -/
theorem test_decode_refuses_reserved_bits :
    decode (.req [0x10000002]) = .illegal .initReservedBits ∧
    decode (.req [0x200002E0]) = .illegal .commandReservedBits ∧
    decode (.req [0x21000029]) = .illegal .commandReservedBits ∧
    decode (.req [0x3000000F]) = .illegal .updateReservedBits ∧
    decode (.req [0x40000180]) = .illegal .backlightReservedBits ∧
    decode (.req [0x80000001]) = .illegal .accessorReservedBits ∧
    decode (.panel 0x00) = .illegal .unlistedPanelByte := by decide

theorem test_table_words :
    decodeTableWord 32 0x10000001 = some (.init true) ∧
    decodeTableWord 32 0x20000100 = some (.command 0 (some [])) ∧
    decodeTableWord 8 0x2C = some .ramwr ∧ decodeTableWord 32 0x10000002 = none := by decide

/-! ## States the tests run in -/

/-- REF after `init 0`, the DC pin at one of its two levels. -/
def ready : State := { State.reset with initDone := true, csLine := .at .hi, dcLine := .at .lo }

/-- A block reset with other parameters, after `init 0`. -/
def readyWith (p : Params) : State :=
  { State.resetBlock p State.reset with initDone := true, csLine := .at .hi, dcLine := .at .lo }

/-- The 2 × 1 configuration of V-U1, V-I6 and P2. -/
def twoByOne : Params := { refParams with width := 2, height := 1, fbLen := 2 }

/-- V-U1: the framebuffer holds F8 00 07 E0. -/
def small : State :=
  { readyWith twoByOne with mem := [(0x20000000, 0xF8), (0x20000002, 0x07), (0x20000003, 0xE0)] }

/-- REF with no backlight pin, after `init 0`. -/
def dark : State := readyWith { refParams with pinBl := noPin }

/-- A state with words offered on its request port. -/
def offered (ws : List Word) (s : State) : State := { s with host := ws.map .offer }

/-- The trace a step leaves. -/
def traceOf : Host.Outcome State Machine.Fault Refusal → List Event
  | .next t => t.trace
  | .fault _ => []
  | .refused _ => []

/-- The trace and the fault a step leaves. -/
def outcomeOf : Host.Outcome State Machine.Fault Refusal → Option (List Event × Byte)
  | .next t => some (t.trace, t.fault)
  | .fault _ => none
  | .refused _ => none

/-- The fault, the byte and the lines a step leaves. -/
def linesAfter : Host.Outcome State Machine.Fault Refusal → Option (Line × Line × PwmLevel)
  | .next t => some (t.csLine, t.dcLine, t.pwmLevel)
  | .fault _ => none
  | .refused _ => none

/-- A block of REF inside INIT, at a step of the sequence. -/
def atStep (k : Byte) : State := { ready with busy := true, phase := .seq, seqPc := k }

/-- A bus that accepts `n` bytes and then none. -/
def stallingBus (n : Nat) : Bus := ⟨List.replicate n (.accept 0), .never⟩

/-! ## Reset (spec/95 section 2.8) -/

theorem test_reset_checks_geometry :
    cfgCheck { refParams with width := 133 } = 0x01 ∧ cfgCheck { refParams with height := 163 } = 0x01 ∧
    cfgCheck { refParams with width := 0 } = 0x01 ∧
    cfgCheck { refParams with ctrlW := 258, ctrlH := 256, width := 256, height := 256 } = 0x01 ∧
    cfgCheck { refParams with width := 200, pinCs := 99 } = 0x01 ∧
    cfgCheck { refParams with ctrlW := 256, ctrlH := 256, width := 256, height := 256, fbLen := 65536 } = 0 := by
  decide

theorem test_reset_checks_pins_and_framebuffer :
    cfgCheck { refParams with pinDc := 17 } = 0x02 ∧ cfgCheck { refParams with pinMiso := -2 } = 0x02 ∧
    cfgCheck { refParams with pinCs := 30 } = 0x02 ∧ cfgCheck { refParams with pinBl := 30 } = 0x02 ∧
    cfgCheck { refParams with pinVsync := 19 } = 0x02 ∧ cfgCheck { refParams with fbLen := 16383 } = 0x03 ∧
    cfgCheck { refParams with fbBase := 0xFFFF8000 } = 0 ∧
    cfgCheck { refParams with fbBase := 0xFFFF8001 } = 0x03 := by decide

theorem test_windows :
    windowBytes 132 127 = [0, 2, 0, 128] ∧ windowBytes 131 128 = [0, 1, 0, 128] ∧
    windowBytes 132 132 = [0, 0, 0, 131] ∧ windowBytes 162 1 = [0, 80, 0, 80] := by decide

theorem test_reset_memory_is_canonical : State.reset.mem.wf := by decide

/-! ## Requests (spec/95 sections 2.2 to 2.7) -/

/-- V-I1: the events of `init 0`, but for the DC level, which is open. -/
theorem test_init_without_sequence :
    (traceOf (step (offered [0x10000000] State.reset))).length = 7 ∧
    (traceOf (step (offered [0x10000000] State.reset))).drop 2 =
      [.pinOut 17 .hi, .pinFn 18 .spi, .pinFn 19 .spi, .pwmInit 20 65535, .resp 0] := by decide

/-- V-I3, V-I4: the whole of `init 1` has 171 events, 85 of them bytes; it ends as the vector says. -/
theorem test_init_with_sequence :
    (traceOf (step (offered [0x10000001] State.reset))).length = 171 ∧
    (traceOf (step (offered [0x10000001] State.reset))).countP (fun e => e matches .tx _) = 85 ∧
    (traceOf (step (offered [0x10000001] State.reset))).drop 160 =
      [.cs .lo, .dc .lo, .tx 0x13, .cs .hi, .delay 100, .cs .lo, .dc .lo, .tx 0x29, .cs .hi,
        .delay 100, .resp 0] := by decide +kernel

/-- V-C4. -/
theorem test_command_with_data :
    traceOf (step (offered [0x200001E0, 5, 0x04030201, 0xAABBCC05] ready)) =
      [.cs .lo, .dc .lo, .tx 0xE0, .dc .hi, .tx 1, .tx 2, .tx 3, .tx 4, .tx 5, .cs .hi, .resp 0] := by
  decide

/-- V-C2 and V-C9: an empty data phase, and a COMMAND before INIT. -/
theorem test_command_empty_and_before_init :
    traceOf (step (offered [0x20000100, 0] ready)) =
      [.cs .lo, .dc .lo, .tx 0, .dc .hi, .cs .hi, .resp 0] ∧
    outcomeOf (step (offered [0x20000029] State.reset)) = some ([.resp 4], 4) := by decide

/-- V-U1. -/
theorem test_update :
    traceOf (step (offered [0x30000000] small)) =
      [.cs .lo, .dc .lo, .tx 0x2C, .dc .hi, .tx 0xF8, .tx 0, .tx 0x07, .tx 0xE0, .cs .hi, .resp 0] := by
  decide

/-- V-U5 and V-U6. -/
theorem test_update_refused :
    outcomeOf (step (offered [0x30000000] State.reset)) = some ([.resp 4], 4) ∧
    outcomeOf (step (offered [0x30000001] (State.resetBlock { refParams with fbLen := 16383 } State.reset))) =
      some ([.resp 3], 3) := by decide

/-- Section 2.5, brightness 15 and 255. -/
theorem test_set_backlight :
    traceOf (step (offered [0x4000000F] ready)) = [.pwmLevel 24, .resp 0] ∧
    traceOf (step (offered [0x400000FF] ready)) = [.pwmLevel 65535, .resp 0] := by decide

/-- Section 2.5, no backlight pin; and entries near a tie. -/
theorem test_set_backlight_no_pin_and_duty :
    traceOf (step (offered [0x40000080] dark)) = [.resp 0] ∧
    duty 114 = 6879 ∧ duty 175 = 22838 ∧ duty 197 = 31818 ∧ duty 224 = 45588 := by decide

/-- Section 2.6, with a stored fault. -/
theorem test_accessors :
    traceOf (exec .getBus State.reset) = [.resp 0] ∧ traceOf (exec .getCs State.reset) = [.resp 0x11] ∧
    traceOf (exec .getDc State.reset) = [.resp 0x10] ∧ traceOf (exec .getSck State.reset) = [.resp 0x12] ∧
    traceOf (exec .getMosi State.reset) = [.resp 0x13] ∧
    traceOf (exec .getMiso State.reset) = [.resp 0xFFFFFFFF] ∧
    outcomeOf (exec .getBl { State.reset with fault := 4 }) = some ([.resp 0x14], 4) ∧
    traceOf (exec .getVsync State.reset) = [.resp 0xFFFFFFFF] := by decide

/-- V-F1, V-F2, V-F4, V-F7, V-F8. -/
theorem test_faults_and_priority :
    outcomeOf (step (offered [0x50000000] State.reset)) = some ([.resp 5], 5) ∧
    outcomeOf (step (offered [0x50000000] { State.reset with fault := 4 })) = some ([.resp 5], 4) ∧
    outcomeOf (step (offered [0x10000001] { State.reset with fault := 4 })) = some ([.resp 4], 4) ∧
    outcomeOf (step (offered [0x30000000] { State.reset with fault := 1 })) = some ([.resp 1], 1) ∧
    outcomeOf (step (offered [0x10000002] { State.reset with fault := 1 })) = some ([.resp 5], 1) := by
  decide

/-- V-E10. -/
theorem test_reserved_operations :
    outcomeOf (exec (.reservedOp0 0) State.reset) = some ([.resp 5], 5) ∧
    outcomeOf (exec (.reservedOp5 1) State.reset) = some ([.resp 5], 5) ∧
    outcomeOf (exec (.reservedOp6 2) State.reset) = some ([.resp 5], 5) ∧
    outcomeOf (exec (.reservedOp7 3) State.reset) = some ([.resp 5], 5) := by decide

/-! ## The panel commands (the table of V-I3) -/

theorem test_panel_commands_with_delays :
    traceOf (exec .swreset (atStep 0)) = [.cs .lo, .dc .lo, .tx 0x01, .cs .hi, .delay 150] ∧
    traceOf (exec .slpout (atStep 1)) = [.cs .lo, .dc .lo, .tx 0x11, .cs .hi, .delay 500] ∧
    traceOf (exec .noron (atStep 18)) = [.cs .lo, .dc .lo, .tx 0x13, .cs .hi, .delay 100] ∧
    traceOf (exec .dispon (atStep 19)) = [.cs .lo, .dc .lo, .tx 0x29, .cs .hi, .delay 100] ∧
    traceOf (exec .invon (atStep 11)) = [.cs .lo, .dc .lo, .tx 0x21, .cs .hi] := by decide

/-- A frame with a data phase, as V-I3 writes them. -/
def dataFrame (op : Byte) (ds : List Byte) : List Event :=
  [.cs .lo, .dc .lo, .tx op, .dc .hi] ++ ds.map .tx ++ [.cs .hi]

theorem test_panel_commands_frame_rate :
    traceOf (exec .frmctr1 (atStep 2)) = dataFrame 0xB1 [0x01, 0x2C, 0x2D] ∧
    traceOf (exec .frmctr2 (atStep 3)) = dataFrame 0xB2 [0x01, 0x2C, 0x2D] ∧
    traceOf (exec .frmctr3 (atStep 4)) = dataFrame 0xB3 [0x01, 0x2C, 0x2D, 0x01, 0x2C, 0x2D] ∧
    traceOf (exec .invctr (atStep 5)) = dataFrame 0xB4 [0x07] := by decide

theorem test_panel_commands_power :
    traceOf (exec .pwrctlA (atStep 6)) = dataFrame 0xC0 [0xA2, 0x02, 0x84] ∧
    traceOf (exec .pwrctlB (atStep 7)) = dataFrame 0xC2 [0x0A, 0x00] ∧
    traceOf (exec .pwrctlC (atStep 8)) = dataFrame 0xC3 [0x8A, 0x2A] ∧
    traceOf (exec .pwrctlD (atStep 9)) = dataFrame 0xC4 [0x8A, 0xEE] ∧
    traceOf (exec .vmctr1 (atStep 10)) = dataFrame 0xC5 [0x0E] := by decide

theorem test_panel_commands_mode_and_window :
    traceOf (exec .madctl (atStep 12)) = dataFrame 0x36 [0xC8] ∧
    traceOf (exec .colmod (atStep 13)) = dataFrame 0x3A [0x05] ∧
    traceOf (exec .caset (atStep 14)) = dataFrame 0x2A [0x00, 0x02, 0x00, 0x81] ∧
    traceOf (exec .raset (atStep 15)) = dataFrame 0x2B [0x00, 0x11, 0x00, 0x90] := by decide

theorem test_panel_commands_gamma :
    traceOf (exec .gmctrp1 (atStep 16)) = dataFrame 0xE0 [0x02, 0x1C, 0x07, 0x12, 0x37, 0x32, 0x29, 0x2D,
      0x29, 0x25, 0x2B, 0x39, 0x00, 0x01, 0x03, 0x10] ∧
    traceOf (exec .gmctrn1 (atStep 17)) = dataFrame 0xE1 [0x03, 0x1D, 0x07, 0x06, 0x2E, 0x2C, 0x29, 0x2D,
      0x2E, 0x2E, 0x37, 0x3F, 0x00, 0x00, 0x02, 0x10] := by decide

/-- V-U3: bytes go in address order. -/
theorem test_ramwr :
    traceOf (exec .ramwr { readyWith { refParams with width := 1, height := 1, fbLen := 1 } with
      busy := true, phase := .frame, ramwrDue := true, mem := [(0x20000000, 0x12), (0x20000001, 0x34)] }) =
      dataFrame 0x2C [0x12, 0x34] := by decide

/-! ## What the bus can do (R58, R226) -/

theorem test_stall_hangs :
    outcomeOf (step (offered [0x20000136, 1, 0xC8] { ready with bus := stallingBus 1 })) =
      some ([.cs .lo, .dc .lo, .tx 0x36, .dc .hi], 0) := by decide

theorem test_late_byte_is_given_up :
    outcomeOf (step (offered [0x20000136, 1, 0xC8]
      { readyWith { refParams with timeoutMs := some 10 } with bus := ⟨[.accept 10, .accept 11], .never⟩ })) =
      some ([.cs .lo, .dc .lo, .tx 0x36, .dc .hi, .cs .hi, .resp 6], 6) := by decide

/-! ## The fetch places -/

theorem test_fetch_places :
    traceOf (step (State.reset.withFetchWord 32 0x90000000)) = [.resp 0x11] ∧
    traceOf (step (State.reset.withFetchWord 8 0x3A)) = dataFrame 0x3A [0x05] ∧
    traceOf (step (small.withFetchWord 8 0x2C)) = dataFrame 0x2C [0xF8, 0x00, 0x07, 0xE0] := by decide

/-! ## Witnesses

One theorem for each statement with hypotheses: a concrete state and operands that meet them all, and where
a statement has several clauses, one for each at a value where clauses meet. -/

/-- `ready` with the port taken, as a request runs. -/
def readyBusy : State := { ready with busy := true }

/-- A transfer about to run. -/
def transferring : State := { small with busy := true, phase := .frame, ramwrDue := true }

/-- A time limit of 10 ms, which the bus keeps for `n` bytes and then misses by one. -/
def lateBus (n : Nat) : Bus := ⟨List.replicate n (.accept 10) ++ [.accept 11], .accept 0⟩

/-- REF and the 2 × 1 configuration with a time limit of 10 ms. -/
def timed : State := readyWith { refParams with timeoutMs := some 10 }
def timedSmall : State := readyWith { twoByOne with timeoutMs := some 10 }

theorem witness_ValidConfigurationHasExactWindows :
    cfgCheck refParams = codeOk ∧ cfgCheck { twoByOne with width := 1, fbLen := 1 } = codeOk ∧
    cfgCheck { refParams with ctrlW := 256, ctrlH := 256, width := 256, height := 256, fbLen := 65536 } =
      codeOk := by decide

theorem witness_ConfigCheckTakesFirstFailure :
    ¬ GeometryLegal { refParams with width := 133 } ∧
    (GeometryLegal { refParams with pinCs := 30 } ∧ ¬ PinsLegal { refParams with pinCs := 30 }) ∧
    (GeometryLegal { refParams with fbBase := 0xFFFF8001 } ∧ PinsLegal { refParams with fbBase := 0xFFFF8001 } ∧
      ¬ FramebufferLegal { refParams with fbBase := 0xFFFF8001 }) ∧
    (GeometryLegal { refParams with pinCs := 29 } ∧ PinsLegal { refParams with pinCs := 29 } ∧
      FramebufferLegal { refParams with fbBase := 0xFFFF8000 }) := by
  unfold GeometryLegal PinsLegal FramebufferLegal pinList
  refine ⟨?_, ⟨?_, ?_⟩, ⟨?_, ?_, ?_⟩, ?_, ?_, ?_⟩ <;> simp [refParams, List.pairwise_cons]

theorem witness_DecodeInvertsEncode :
    (Instr.command 0xE0 (some [1, 2, 3, 4, 5])).WellFormed ∧ (Instr.command 0 (some [])).WellFormed ∧
    (Instr.command 0xFF none).WellFormed ∧ (Instr.reservedOp7 0xFFFFFFF).WellFormed ∧
    Instr.dispon.WellFormed := ⟨by decide, by decide, trivial, trivial, trivial⟩

theorem witness_EncodeInvertsDecode :
    decode (.req [0x4000007F, 0x90000000]) = .instr (.setBacklight 0x7F) 1 ∧
    decode (.req [0x200001E0, 5, 0x04030201, 0xAABBCC05]) =
      .instr (.command 0xE0 (some [1, 2, 3, 4, 5])) 4 := by decide

/-- Without data; with the padding of a last word; with no data byte; and with more words than it takes. -/
theorem witness_CommandDataBytesComeFromTheWords :
    ((0x20000036 : Word).toNat / 2 ^ 28 = 2 ∧ (0x20000036 : Word).toNat / 2 ^ 8 % 2 = 0) ∧
    ((0x200001E0 : Word).toNat / 2 ^ 28 = 2 ∧ (0x200001E0 : Word).toNat / 2 ^ 8 % 2 = 1 ∧
      ((5 : Word).toNat + 3) / 4 ≤ [0x04030201, (0xAABBCC05 : Word)].length ∧
      ((0 : Word).toNat + 3) / 4 ≤ ([] : List Word).length ∧
      ((4 : Word).toNat + 3) / 4 ≤ [0x04030201, (0x90000000 : Word)].length) ∧
    decode (.req (0x200001E0 :: 5 :: [0x04030201, 0xAABBCC05])) =
      .instr (.command 0xE0 (some [1, 2, 3, 4, 5])) 4 := by decide

theorem witness_CommandDataBytesComeFromTheWords_noReservedBit :
    ¬ ReservedBitSet 0x20000036 ∧ ¬ ReservedBitSet 0x200001E0 := by
  unfold ReservedBitSet; decide

theorem witness_RequestLengthFollowsTheFirstWord :
    decode (.req (0x20000100 :: [0])) = .instr (.command 0 (some [])) 2 ∧
    decode (.req (0x20000000 :: [7])) = .instr (.command 0 none) 1 := by decide

theorem witness_DecoderRefusesExactlyReservedBits :
    ReservedBitSet 0x10000002 ∧ ¬ ReservedBitSet 0x10000001 ∧ ReservedBitSet 0x20000200 ∧
    ¬ ReservedBitSet 0x200001FF ∧ ReservedBitSet 0x30000002 ∧ ReservedBitSet 0x40000100 ∧
    ¬ ReservedBitSet 0x400000FF ∧ ReservedBitSet 0x80000001 ∧ ¬ ReservedBitSet 0xF0000000 ∧
    (0x0FFFFFFF : Word).toNat / 2 ^ 28 = 0 ∧ (0x50000000 : Word).toNat / 2 ^ 28 = 5 ∧
    (0x60000000 : Word).toNat / 2 ^ 28 = 6 ∧ (0x7FFFFFFF : Word).toNat / 2 ^ 28 = 7 := by
  unfold ReservedBitSet
  refine ⟨?_, ?_, ?_, ?_, ?_, ?_, ?_, ?_, ?_, ?_, ?_, ?_, ?_⟩ <;> decide

theorem witness_ReadyBlockRunsTheOfferedRequest :
    let s := offered [0x200001E0, 5, 0x04030201, 0xAABBCC05, 0x90000000] ready
    s.busy = false ∧ s.host = .offer 0x200001E0 :: ([5, 0x04030201, 0xAABBCC05, 0x90000000].map .offer) ∧
    decode (.req (offeredWords s.host)) = .instr (.command 0xE0 (some [1, 2, 3, 4, 5])) 4 := by decide

theorem witness_ReadyBlockWaitsForTheHost :
    (ready.busy = false ∧ ready.host = []) ∧
    (let s := offered [0x20000136, 1] ready
     s.busy = false ∧ s.host = .offer 0x20000136 :: [.offer 1] ∧
     decode (.req (offeredWords s.host)) = .incomplete) ∧
    (let s := { small with host := [.store 0x20000000 0] }
     s.busy = false ∧ s.host = .store 0x20000000 0 :: [] ∧ s.mem.wf) := by decide

theorem witness_EndedRunStaysEnded : runEnded State.reset = true := by decide

theorem witness_BusyBlockRunsItsOwnCommand :
    ((atStep 0).busy = true ∧ (atStep 0).phase = .seq ∧
      (initRom (atStep 0).cfg)[(atStep 0).seqPc.toNat]? = some ⟨.swreset, none, 150⟩) ∧
    ({ atStep 19 with phase := .delay }.busy = true ∧
      (initRom (atStep 19).cfg)[(atStep 19).seqPc.toNat]? = some ⟨.dispon, none, 100⟩) ∧
    (transferring.busy = true ∧ transferring.phase = .frame ∧ transferring.ramwrDue = true) := by decide

theorem witness_BusyBlockEndsOrHangs :
    ((atStep 20).busy = true ∧ (atStep 20).phase = .seq ∧ 20 ≤ (atStep 20).seqPc.toNat) ∧
    ({ readyBusy with phase := .resp }.busy = true ∧ { readyBusy with phase := .resp }.phase = .resp) ∧
    Hung { readyBusy with phase := .frame } := by decide

theorem witness_IllegalWordRaisesIllegalRequest :
    let s := offered [0x10000002, 0x90000000] ready
    s.busy = false ∧ s.host = .offer 0x10000002 :: [.offer 0x90000000] ∧
    ReservedBitSet 0x10000002 ∧ ReservedOp 0x5FFFFFFF ∧ ReservedOp 0 := by
  unfold ReservedBitSet ReservedOp; decide

theorem witness_FaultedBlockAnswersStoredCode :
    let s := { ready with fault := 6 }
    s.fault ≠ 0 ∧ (∃ a, Instr.init true = .init a) ∧ (∃ op d, Instr.command 1 none = .command op d) ∧
    (∃ b, Instr.update true = .update b) ∧ (∃ b, Instr.setBacklight 3 = .setBacklight b) :=
  ⟨by decide, ⟨_, rfl⟩, ⟨_, _, rfl⟩, ⟨_, rfl⟩, ⟨_, rfl⟩⟩

theorem witness_RequestBeforeInitRaisesNotInit :
    State.reset.fault = 0 ∧ State.reset.initDone = false ∧
    (∃ op d, Instr.command 1 none = .command op d) ∧ (∃ b, Instr.update true = .update b) ∧
    (∃ b, Instr.setBacklight 3 = .setBacklight b) :=
  ⟨by decide, by decide, ⟨_, _, rfl⟩, ⟨_, rfl⟩, ⟨_, rfl⟩⟩

/-- No run reaches such a state (R161); the statement covers it all the same. -/
theorem witness_UpdateSizeMismatchRaisesConfigFault :
    let s := { readyWith { refParams with fbLen := 16383 } with fault := 0 }
    Operational s ∧ s.cfg.fbLen.toNat ≠ s.cfg.width.toNat * s.cfg.height.toNat := by decide

theorem witness_CommandSendsOneFrame :
    (Operational ready ∧ BusProgress ready) ∧
    (Operational { timed with bus := lateBus 0 } ∧
      BusProgress { timed with bus := ⟨[.accept 10], .accept 0⟩ }) := by decide

theorem witness_UpdateStreamsTheFramebuffer :
    ConfigInv small ∧ Operational small ∧ BusProgress small ∧ small.foreign = [] :=
  ⟨⟨rfl, fun _ => by decide⟩, by decide, by decide, rfl⟩

theorem witness_RacedUpdateSendsOldOrNewBytes :
    let s := { small with foreign := [(0x20000000, 0x11), (0x20000003, 0x22)] }
    ConfigInv s ∧ Operational s ∧ BusProgress s :=
  ⟨⟨rfl, fun _ => by decide⟩, by decide, by decide⟩

theorem witness_WriteMemoryCommandSendsTheFramebuffer :
    ConfigInv transferring ∧ transferring.fault = 0 ∧ BusProgress transferring ∧ transferring.foreign = [] :=
  ⟨⟨rfl, fun _ => by decide⟩, by decide, by decide, rfl⟩

/-- Both sides of the statement occur: a transfer one byte longer than the region, and one that fits. -/
theorem witness_TransferOutsideTheRegionStops :
    let s := { small with cfg := { small.cfg with nBytes := 5 } }
    readable s.cfg (s.cfg.fbBase.toNat + 4) = false ∧
    ∀ j, j < small.cfg.nBytes → readable small.cfg (small.cfg.fbBase.toNat + j) = true := by decide

theorem witness_InitWithoutSequenceOnlySetsUp :
    State.reset.fault = 0 ∧ State.reset.cfg.pinBl.toInt ≠ -1 ∧
    (State.resetBlock { refParams with pinBl := noPin } State.reset).fault = 0 ∧ dark.cfg.pinBl.toInt = -1 := by
  decide

theorem witness_InitRunsTheWholeSequence : State.reset.fault = 0 ∧ BusProgress State.reset := by decide

theorem witness_SecondInitRepeatsTheFirst : ready.fault = 0 ∧ BusProgress ready := by decide

/-- With a bus that accepts every byte, with one that stops at the third, and with a time limit missed. -/
theorem witness_InitIsItsStepsInOrder :
    (readyBusy.fault = 0 ∧ readyBusy.busy = true ∧ readyBusy.ramwrDue = false ∧
      readyBusy.cfg.timeoutMs = none) ∧
    (let s := { readyBusy with bus := stallingBus 2 }
     s.fault = 0 ∧ s.busy = true ∧ s.ramwrDue = false ∧ s.cfg.timeoutMs = none) ∧
    (let s := { timed with busy := true, bus := lateBus 2 }
     s.fault = 0 ∧ s.busy = true ∧ s.ramwrDue = false ∧ s.cfg.timeoutMs = some 10) := by decide

theorem witness_UpdateIsItsFrameThenItsResponse :
    (let s := { small with busy := true, bus := stallingBus 3 }
     ConfigInv s ∧ Operational s ∧ s.busy = true ∧ s.cfg.timeoutMs = none) ∧
    (let s := { timedSmall with busy := true, bus := lateBus 3 }
     ConfigInv s ∧ Operational s ∧ s.busy = true ∧ s.cfg.timeoutMs = some 10) :=
  ⟨⟨⟨rfl, fun _ => by decide⟩, by decide, rfl, rfl⟩, ⟨⟨rfl, fun _ => by decide⟩, by decide, rfl, rfl⟩⟩

/-- REF with a shortest and with a longest legal parameter set. -/
def shortInit : Params := { refParams with initParams := { refInitParams with pwrctlA := [0xA2, 0x02] } }
def longInit : Params := { refParams with initParams := { refInitParams with
  frmctr1 := [1, 2, 3, 4, 5, 6], pwrctlB := [1, 2, 3], pwrctlC := [1, 2, 3], pwrctlD := [1, 2, 3] } }

/-- REF itself, and the two sets that reach the bounds of the statement. -/
theorem witness_SequenceTotals :
    (∀ p ∈ [refParams, shortInit, longInit], (readyWith p).fault = 0 ∧ cfgCheck p = codeOk ∧
      (readyWith p).cfg = Cfg.load p ∧ (readyWith p).cfg.initParams.Legal ∧ BusProgress (readyWith p)) ∧
    sequenceLength (Cfg.load shortInit) = 20 + 64 ∧ sequenceLength (Cfg.load longInit) = 20 + 71 := by decide

/-- The panel commands: at their step of the sequence, whatever the delay. -/
theorem witness_CommandsWithoutParameters : BusProgress (atStep 0) ∧ BusProgress (atStep 19) := by decide

theorem witness_CommandsWithFixedParameters : BusProgress (atStep 2) ∧ BusProgress (atStep 13) := by decide

theorem witness_WindowAndGammaCommands : BusProgress (atStep 14) ∧ BusProgress (atStep 17) := by decide

theorem witness_SetBacklightWritesTheDuty : Operational ready ∧ ready.cfg.pinBl.toInt ≠ -1 := by decide

theorem witness_SetBacklightWithoutPinWritesNothing : Operational dark ∧ dark.cfg.pinBl.toInt = -1 := by decide

/-- The bus stops at the opcode, at the first data byte, and at the last one. -/
theorem witness_StalledCommandHangs :
    ∀ k ∈ [0, 1, 3],
      let s := { readyBusy with bus := stallingBus k }
      Operational s ∧ s.busy = true ∧ s.ramwrDue = false ∧ s.cfg.timeoutMs = none ∧
      k < frameLength (some [1, 2, 3]) ∧ StallsAtByte k s := by
  unfold StallsAtByte; decide

theorem witness_StalledUpdateHangs :
    (∀ k, ConfigInv { small with busy := true, bus := stallingBus k }) ∧
    ∀ k ∈ [0, 1, 4],
      let s := { small with busy := true, bus := stallingBus k }
      Operational s ∧ s.busy = true ∧ s.foreign = [] ∧ s.cfg.timeoutMs = none ∧
      k < 1 + 2 * (s.cfg.width.toNat * s.cfg.height.toNat) ∧ StallsAtByte k s := by
  refine ⟨fun _ => ⟨rfl, fun _ => show cfgCheck small.cfg.toParams = codeOk by decide⟩, ?_⟩
  unfold StallsAtByte; decide

/-- The bus stops at the first opcode, at a later one, and at the last byte of the sequence. -/
theorem witness_StalledInitHangs :
    ∀ k ∈ [0, 2, 84],
      let s := { readyBusy with bus := stallingBus k }
      s.fault = 0 ∧ s.busy = true ∧ s.ramwrDue = false ∧ s.cfg.timeoutMs = none ∧
      k < sequenceLength s.cfg ∧ StallsAtByte k s := by
  unfold StallsAtByte; decide +kernel

theorem witness_LateByteRaisesTransportFault :
    ∀ k ∈ [0, 1, 3],
      let s := { timed with bus := lateBus k }
      Operational s ∧ s.cfg.timeoutMs.isSome = true ∧ k < frameLength (some [1, 2, 3]) ∧ StallsAtByte k s := by
  unfold StallsAtByte; decide

theorem witness_LateByteEndsAnUpdate :
    (∀ k, ConfigInv { timedSmall with bus := lateBus k }) ∧
    ∀ k ∈ [0, 1, 4],
      let s := { timedSmall with bus := lateBus k }
      Operational s ∧ s.foreign = [] ∧ s.cfg.timeoutMs.isSome = true ∧
      k < 1 + 2 * (s.cfg.width.toNat * s.cfg.height.toNat) ∧ StallsAtByte k s := by
  refine ⟨fun _ => ⟨rfl, fun _ => show cfgCheck timedSmall.cfg.toParams = codeOk by decide⟩, ?_⟩
  unfold StallsAtByte; decide

theorem witness_LateByteSkipsTheRestOfInit :
    ∀ k ∈ [0, 2, 84],
      let s := { timed with bus := lateBus k }
      s.fault = 0 ∧ s.cfg.timeoutMs.isSome = true ∧ k < sequenceLength s.cfg ∧ StallsAtByte k s := by
  unfold StallsAtByte; decide +kernel

theorem witness_NoStepUndoesConfigurationOrFault :
    ∃ t, step (offered [0x50000000] { ready with fault := 4 }) = .next t ∧
      (offered [0x50000000] { ready with fault := 4 }).fault ≠ 0 ∧ ready.initDone = true :=
  ⟨_, rfl, by decide, rfl⟩

theorem witness_RaisedFaultIsAnswered :
    ∃ t, step (offered [0x50000000] ready) = .next t ∧ t.fault ≠ (offered [0x50000000] ready).fault :=
  ⟨_, rfl, by decide⟩

theorem witness_RequestEndsWithOneResponse :
    (IsRequest (.setBacklight 7) ∧ BusProgress ready ∧ ∃ t, exec (.setBacklight 7) ready = .next t) ∧
    ({ timed with bus := lateBus 0 }.cfg.timeoutMs.isSome = true ∧
      ∃ t, exec (.command 1 none) { timed with bus := lateBus 0 } = .next t) :=
  ⟨⟨⟨_, rfl⟩, by decide, _, rfl⟩, rfl, _, rfl⟩

theorem witness_OtherRequestsSendNothingOnTheBus :
    IsRequest (.init false) ∧ Instr.init false ≠ .init true ∧ (∀ op d, Instr.init false ≠ .command op d) ∧
    (∀ b, Instr.init false ≠ .update b) ∧ ∃ t, exec (.init false) ready = .next t :=
  ⟨⟨_, rfl⟩, by decide, by simp, by simp, _, rfl⟩

theorem witness_OnlyInitMarksInitialised :
    ∃ t, exec (.init false) State.reset = .next t ∧ State.reset.initDone = false ∧ t.initDone = true :=
  ⟨_, rfl, rfl, rfl⟩

theorem witness_OnlyInitAndBacklightTouchThePwm :
    ∃ t, exec (.setBacklight 7) ready = .next t ∧ (∀ auto, Instr.setBacklight 7 ≠ .init auto) ∧
      t.pwmLevel ≠ ready.pwmLevel :=
  ⟨_, rfl, by simp, by decide⟩

theorem witness_OnlyInitAndItsCommandsDelay :
    ∃ t es, exec .swreset (atStep 0) = .next t ∧ t.trace = (atStep 0).trace ++ es ∧ Event.delay 150 ∈ es :=
  ⟨_, _, rfl, (List.nil_append _).symm, by decide⟩

theorem witness_BlockNeverWritesTheFramebuffer :
    ∃ t, exec (.update false) small = .next t ∧ small.foreign = [] :=
  ⟨_, rfl, rfl⟩

theorem witness_OrderlyStateNeverStops :
    (ConfigInv ready ∧ PhaseInv ready) ∧ (ConfigInv transferring ∧ PhaseInv transferring) ∧
    (ConfigInv (atStep 3) ∧ PhaseInv (atStep 3)) :=
  ⟨⟨⟨rfl, fun _ => by decide⟩, by decide⟩, ⟨⟨rfl, fun _ => by decide⟩, by decide⟩,
    ⟨⟨rfl, fun _ => by decide⟩, by decide⟩⟩

/-- A block that runs, and one that hangs inside a frame. -/
theorem witness_StepKeepsFraming :
    (PhaseInv ready ∧ FramingInv ready ∧ ∃ t, step ready = .next t) ∧
    (let s := { readyBusy with phase := .frame, trace := [.cs .lo, .dc .lo, .tx 1, .dc .hi] }
     PhaseInv s ∧ FramingInv s ∧ ∃ t, step s = .next t) :=
  ⟨⟨by decide, by decide, _, rfl⟩, by decide, by decide, _, rfl⟩

theorem witness_StepKeepsLinesOnTheTrace :
    let s := { ready with trace := [.cs .lo, .dc .lo, .tx 1, .cs .hi] }
    ConfigInv s ∧ LinesInv s ∧ ∃ t, step s = .next t :=
  ⟨⟨rfl, fun _ => by decide⟩, by decide, _, rfl⟩

theorem witness_StepKeepsChipSelectDeasserted :
    (PhaseInv ready ∧ ChipSelectInv ready ∧ ∃ t, step ready = .next t) ∧
    (PhaseInv (atStep 3) ∧ ChipSelectInv (atStep 3) ∧ ∃ t, step (atStep 3) = .next t) :=
  ⟨⟨by decide, by decide, _, rfl⟩, by decide, by decide, _, rfl⟩

theorem witness_StepKeepsMemoryCanonical :
    let s := { small with host := [.store 0x20000000 0] }
    MemoryInv s ∧ ∃ t, step s = .next t :=
  ⟨by decide, _, rfl⟩

theorem witness_ResetMeetsTheInvariants : MemoryInv small := by decide

theorem witness_DutyRisesFromZeroToFull :
    (3 : Byte) < 4 ∧ duty 3 ≤ duty 4 ∧ (5 : Byte) ≤ 5 ∧ (5 : Byte) < 6 ∧ duty 5 < duty 6 := by decide

theorem witness_ReservedOperationsRaiseIllegalRequest :
    Instr.reservedOp7 0xFFFFFFF = .reservedOp0 0xFFFFFFF ∨ Instr.reservedOp7 0xFFFFFFF = .reservedOp5 0xFFFFFFF ∨
    Instr.reservedOp7 0xFFFFFFF = .reservedOp6 0xFFFFFFF ∨ Instr.reservedOp7 0xFFFFFFF = .reservedOp7 0xFFFFFFF :=
  .inr (.inr (.inr rfl))

theorem witness_AccessorsAnswerTheConfiguration : noPin.toInt = -1 := by decide

end Sys2Proof.Tests
end

section
/-! SUPPORT. What every instruction and every step keeps: the configuration, a stored fault, `init_done` and
the events so far; and that an orderly state has an orderly next state. Statements about all instructions go
through `exec_ran`, and statements about all steps through `step_inv`. -/

namespace Sys2Proof.Machine

/-! ## The instructions of a frame -/

/-- No panel command is a request of the host (R83). -/
theorem not_isRequest_ofSlot (sl : Slot) : ¬ IsRequest (.ofSlot sl) := by
  rintro ⟨ws, h⟩; cases sl <;> cases h

theorem not_isRequest_ramwr : ¬ IsRequest .ramwr := not_isRequest_ofSlot .ramwr

/-- The write-memory command is no entry of the init ROM (R124). -/
theorem rom_ofSlot_ne_ramwr {c : Cfg} {n : Nat} {e : RomEntry} (h : (initRom c)[n]? = some e) :
    Instr.ofSlot e.slot ≠ .ramwr := by
  have hrom : ∀ e ∈ initRom c, e.slot ≠ .ramwr := by simp [initRom]
  have he := hrom e (List.mem_of_getElem? h)
  cases hs : e.slot <;> simp_all [Instr.ofSlot]

namespace SendsFrame

variable {i : Instr} {s : State} {op : Byte} {src : DataSource} {m : Memory} {f : List Host.Cell} {r : Bool}

/-- The requests that send a frame of their own. -/
theorem isRequest_cases (h : SendsFrame i s op src m f r) (hi : IsRequest i) :
    Operational s ∧ ((∃ op d, i = .command op d) ∨ ∃ b, i = .update b) := by
  cases h with
  | command hc ho => exact ⟨ho, Or.inl ⟨_, _, hc⟩⟩
  | transfer hc =>
    rcases hc with rfl | ⟨ho, hu⟩
    · exact absurd hi not_isRequest_ramwr
    · exact ⟨ho, Or.inr hu⟩
  | panel n e he hc => exact absurd (hc ▸ hi) (not_isRequest_ofSlot _)

/-- A request sends a frame only where no fault is stored (R225). -/
theorem fault_eq_zero (h : SendsFrame i s op src m f r) (hf : s.fault = 0 ∨ IsRequest i) : s.fault = 0 :=
  hf.elim id fun hi => (h.isRequest_cases hi).1.1

/-- After a frame no transfer is due: its own was the one that was. -/
theorem due_eq_false (h : SendsFrame i s op src m f r) (hd : s.ramwrDue = false ∨ i = .ramwr) :
    r = false := by
  cases h with
  | command hi ho hm hf hr => rw [hr]; exact hd.resolve_right (by rw [hi]; simp)
  | transfer hi hop hs hm hf hr => exact hr
  | panel n e he hi hop hs hm hf hr =>
    rw [hr]; exact hd.resolve_right (by rw [hi]; exact rom_ofSlot_ne_ramwr he)

end SendsFrame

/-! ## What is never taken back -/

/-- `t` has the configuration of `s`, and a fault, `init_done` and the events of `s` are still in it. -/
structure Extends (s t : State) : Prop where
  cfg : t.cfg = s.cfg
  fault : s.fault ≠ 0 → t.fault = s.fault
  initDone : s.initDone = true → t.initDone = true
  trace : s.trace <+: t.trace

theorem Extends.refl (s : State) : Extends s s := ⟨rfl, fun _ => rfl, id, List.prefix_refl _⟩

theorem extends_raise (c : Byte) (s : State) : Extends s (raise c s) :=
  ⟨rfl, stickyFault_kept, id, List.prefix_append _ _⟩

/-- Every instruction that answers a next state extends the state it ran in. -/
theorem ran_extends {i : Instr} {s t : State} (h : Ran i s t) : Extends s t := by
  cases h with
  | raised c hc hi h => subst h; exact extends_raise c s
  | setUp v n hi h0 h | sequenced v pc o x n hi h0 h =>
    subst h; exact ⟨rfl, fun _ => rfl, fun _ => rfl, by simp⟩
  | gaveUpInit pre post e k v pc o x n hi h0 ht hp hk hl h =>
    subst h; exact ⟨rfl, fun hne => absurd h0 hne, id, by simp⟩
  | gaveUp op src m f r k pc o d x n hf ht hk hl h =>
    subst h; exact ⟨rfl, stickyFault_kept, id, by simp⟩
  | answered w hi h | lit b hi ho h | stuckInit pre post e k v pc o x n hi h0 ht hp hk hl h
  | completed op src m f r o d x n hf hi h | transferred op src m f r x n hf hi h | stepped e k he hi h
  | stuck op src m f r k d x n hf ht hk hl h =>
    subst h; exact ⟨rfl, fun _ => rfl, id, by simp⟩

/-- Accepting a request changes only the host's list and the busy bit. -/
theorem extends_of_accepted {n : Nat} {s t : State} (h : Extends (acceptRequest n s) t) : Extends s t :=
  ⟨h.cfg, h.fault, h.initDone, h.trace⟩

/-- Every step that answers a next state extends the state it began in. -/
theorem step_extends {s t : State} (h : step s = .next t) : Extends s t := by
  cases step_inv h with
  | stays h => exact h ▸ .refl s
  | stored a b acts hb hh h => subst h; exact ⟨rfl, fun _ => rfl, id, List.prefix_refl _⟩
  | requested i n hb hd he => exact extends_of_accepted (ran_extends (exec_ran he))
  | illegal hb h => subst h; exact extends_of_accepted (n := 1) (extends_raise codeIllegalReq _)
  | sequenced e hb hp hr he => exact ran_extends (exec_ran he)
  | finished hb hp hr h =>
    subst h; exact ⟨rfl, fun _ => rfl, fun _ => rfl, List.prefix_append _ _⟩
  | transferred hb hp hr he => exact ran_extends (exec_ran he)
  | responded hb hp h => subst h; exact ⟨rfl, fun _ => rfl, id, List.prefix_append _ _⟩

/-- Settles O45: the parts of `step_extends`. -/
theorem noStepUndoesConfigurationOrFault : Obligations.NoStepUndoesConfigurationOrFault := by
  intro s t h
  obtain ⟨hcfg, hfault, hinit, htrace⟩ := step_extends h
  exact ⟨hcfg, hfault, hinit, htrace⟩

/-! ## Orderly states -/

theorem configInv_of_extends {s t : State} (hc : ConfigInv s) (h : Extends s t) : ConfigInv t := by
  obtain ⟨hload, hcheck⟩ := hc
  have h0 : t.fault = 0 → s.fault = 0 := fun ht => by_contra fun hs => hs (h.fault hs ▸ ht)
  unfold ConfigInv
  rw [h.cfg]
  exact ⟨hload, fun ht => hcheck (h0 ht)⟩

theorem phaseInv_ready {t : State} (hb : t.busy = false) (hp : t.phase = .idle)
    (hd : t.ramwrDue = false) : PhaseInv t :=
  ⟨fun _ => ⟨hp, hd⟩, fun hb' => absurd (hb.symm.trans hb') nofun⟩

theorem phaseInv_inside {t : State} (hb : t.busy = true) (hf : t.fault = 0) (hi : t.phase ≠ .idle)
    (hs : t.phase ≠ .setup) (hd : t.ramwrDue = false) : PhaseInv t :=
  ⟨fun hb' => absurd (hb.symm.trans hb') nofun, fun _ => ⟨hf, hi, hs, fun hd' => absurd (hd.symm.trans hd') nofun⟩⟩

/-- A transfer is due only in phase FRAME. -/
theorem due_eq_false_of_phase {s : State} (hp : PhaseInv s) (hb : s.busy = true) (h : s.phase ≠ .frame) :
    s.ramwrDue = false := by
  obtain ⟨-, -, -, hdue⟩ := hp.2 hb
  exact Bool.eq_false_iff.2 fun hd => h (hdue hd)

/-- An instruction leaves the block ready, or inside a request with no transfer due. Where it begins: the port
is busy, a transfer is due at most for RAMWR, and no fault is stored unless a host's request runs, whose checks
answer a stored fault (R225). -/
theorem ran_phaseInv {i : Instr} {s t : State} (h : Ran i s t) (hb : s.busy = true)
    (hf : s.fault = 0 ∨ IsRequest i) (hd : s.ramwrDue = false ∨ i = .ramwr) : PhaseInv t := by
  cases h with
  | answered w hi h | raised c hc hi h => subst h; exact phaseInv_ready rfl rfl (hd.resolve_right hi)
  | lit b hi ho h | setUp v n hi h0 h | sequenced v pc o x n hi h0 h
  | gaveUpInit pre post e k v pc o x n hi h0 ht hp hk hl h =>
    subst h hi; exact phaseInv_ready rfl rfl (hd.resolve_right nofun)
  | stuckInit pre post e k v pc o x n hi h0 ht hp hk hl h =>
    subst h hi; exact phaseInv_inside hb h0 nofun nofun (hd.resolve_right nofun)
  | stepped e k he hi h =>
    subst h hi
    refine phaseInv_inside hb (hf.resolve_right (not_isRequest_ofSlot _)) ?_ ?_
      (hd.resolve_right (rom_ofSlot_ne_ramwr he)) <;> dsimp only <;> split <;> nofun
  | completed op src m f r o d x n hs hi h | gaveUp op src m f r k pc o d x n hs ht hk hl h =>
    subst h; exact phaseInv_ready rfl rfl (hs.due_eq_false hd)
  | transferred op src m f r x n hs hi h | stuck op src m f r k d x n hs ht hk hl h =>
    subst h; exact phaseInv_inside hb (hs.fault_eq_zero hf) nofun nofun (hs.due_eq_false hd)

theorem seq_or_delay_ne_frame {p : Phase} (h : p = .seq ∨ p = .delay) : p ≠ .frame := by
  rcases h with rfl | rfl <;> nofun

/-- Every step keeps phase and fault in order. -/
theorem step_phaseInv {s t : State} (hp : PhaseInv s) (h : step s = .next t) : PhaseInv t := by
  have ⟨hready, hinside⟩ := hp
  cases step_inv h with
  | stays h => subst h; exact hp
  | stored a b acts hb hh h => subst h; exact phaseInv_ready hb (hready hb).1 (hready hb).2
  | requested i n hb hd he =>
    exact ran_phaseInv (exec_ran he) rfl (Or.inr (decode_request hd)) (Or.inl (hready hb).2)
  | illegal hb h => subst h; exact phaseInv_ready rfl rfl (hready hb).2
  | sequenced e hb hph hr he =>
    exact ran_phaseInv (exec_ran he) hb (Or.inl (hinside hb).1)
      (Or.inl (due_eq_false_of_phase hp hb (seq_or_delay_ne_frame hph)))
  | finished hb hph hr h =>
    subst h; exact phaseInv_ready rfl rfl (due_eq_false_of_phase (s := s) hp hb (seq_or_delay_ne_frame hph))
  | transferred hb hph hr he => exact ran_phaseInv (exec_ran he) hb (Or.inl (hinside hb).1) (Or.inr rfl)
  | responded hb hph h =>
    subst h; exact phaseInv_ready rfl rfl (due_eq_false_of_phase (s := s) hp hb (by rw [hph]; nofun))

/-- In a configuration that passes its check no instruction stops; RAMWR, which has no checks of its own,
needs that no fault is stored. -/
theorem exec_answers {s : State} (hc : ConfigInv s) (i : Instr) (hf : i = .ramwr → s.fault = 0) :
    ∃ t, exec i s = .next t := by
  cases i with
  | init auto =>
    show ∃ t, execInit auto s = .next t
    unfold execInit
    rcases faultGate_cases s with ⟨-, hg⟩ | ⟨-, hg⟩ <;> rw [hg] <;> exact ⟨_, rfl⟩
  | command op data =>
    show ∃ t, execCommand op data s = .next t
    unfold execCommand
    cases initGate s <;> exact ⟨_, rfl⟩
  | update b =>
    show ∃ t, execUpdate b s = .next t
    rcases initGate_cases s with ⟨ho, -⟩ | ⟨-, hg⟩ | ⟨-, -, hg⟩
    · exact ⟨_, execUpdate_pass hc ho b⟩
    · unfold execUpdate; rw [hg]; exact ⟨_, rfl⟩
    · unfold execUpdate; rw [hg]; exact ⟨_, rfl⟩
  | setBacklight b =>
    show ∃ t, execSetBacklight b s = .next t
    rcases execSetBacklight_cases b s with ⟨-, h⟩ | ⟨-, -, h⟩ | ⟨-, -, h⟩ | ⟨-, -, h⟩ <;> exact ⟨_, h⟩
  | ramwr => exact ⟨_, execRamwr_pass hc (hf rfl)⟩
  | _ => exact ⟨_, rfl⟩

/-- An orderly state with the port ready has a next state. -/
theorem step_answers_ready {s : State} (hc : ConfigInv s) (hb : s.busy = false) : ∃ t, step s = .next t := by
  cases hh : s.host with
  | nil => exact ⟨_, step_waits hb hh⟩
  | cons a acts =>
    cases a with
    | store a b => exact ⟨_, step_store hb hh⟩
    | offer w =>
      rw [step_offer hb hh]
      cases hd : offeredRequest s with
      | instr i n =>
        exact exec_answers (s := acceptRequest n s) hc i
          fun hi => absurd (decode_request hd) (hi ▸ not_isRequest_ramwr)
      | illegal e => exact ⟨_, rfl⟩
      | incomplete => exact ⟨_, rfl⟩

/-- Inside INIT's sequence a step has a next state: no entry of the ROM stops. -/
theorem stepSequence_answers (s : State) : ∃ t, stepSequence s = .next t := by
  cases hr : (initRom s.cfg)[s.seqPc.toNat]? with
  | none => exact ⟨_, stepSequence_end hr⟩
  | some e => exact ⟨_, stepSequence_entry hr⟩

/-- An orderly state inside a request has a next state. -/
theorem step_answers_busy {s : State} (hc : ConfigInv s) (hp : PhaseInv s) (hb : s.busy = true) :
    ∃ t, step s = .next t := by
  obtain ⟨hf, hidle, hsetup, -⟩ := hp.2 hb
  cases hph : s.phase with
  | seq => rw [step_in_sequence hb (Or.inl hph)]; exact stepSequence_answers s
  | delay => rw [step_in_sequence hb (Or.inr hph)]; exact stepSequence_answers s
  | frame =>
    cases hr : s.ramwrDue with
    | true => exact ⟨_, (step_transfer hb hph hr).trans (execRamwr_pass hc hf)⟩
    | false => exact ⟨_, step_hung ⟨hb, hph, hr⟩⟩
  | resp => exact ⟨_, step_response hb hph⟩
  | idle => exact absurd hph hidle
  | setup => exact absurd hph hsetup

/-- Settles O53: an orderly state has a next state, and each of the two parts of being orderly is kept. -/
theorem orderlyStateNeverStops : Obligations.OrderlyStateNeverStops := by
  intro s hc hp
  have hstep : ∃ t, step s = .next t := by
    cases hb : s.busy with
    | false => exact step_answers_ready hc hb
    | true => exact step_answers_busy hc hp hb
  obtain ⟨t, h⟩ := hstep
  exact ⟨t, h, configInv_of_extends hc (step_extends h), step_phaseInv hp h⟩

end Sys2Proof.Machine
end

section
/-! SUPPORT. The configuration check as R27 writes it, and the windows of a configuration that passes it. -/

namespace Sys2Proof.Machine

/-! ## The configuration check -/

theorem geometryOk_iff_legal (p : Params) : geometryOk p = true ↔ GeometryLegal p := geometryOk_iff p

theorem framebufferOk_iff_legal (p : Params) : framebufferOk p = true ↔ FramebufferLegal p :=
  framebufferOk_iff p

/-- An optional pin is absent, or a pin the platform has (R27). -/
theorem optionalPin_iff (p : Params) (q : Word) : (q == noPin || pinInRange p q) = true ↔
    q.toInt = -1 ∨ (0 ≤ q.toInt ∧ q.toInt ≤ (p.numPins.toNat : Int) - 1) := by
  rw [Bool.or_eq_true, beq_iff_eq, pinInRange_iff, noPin_iff, Int.le_sub_one_iff]

/-- No present pin has the number of another one: the check drops the absent pins, and R27 excepts them. -/
theorem presentPins_nodup_iff (ps : List Word) : (ps.filter (fun q => q != noPin)).Nodup ↔
    ps.Pairwise (fun q r => q.toInt = -1 ∨ q.toInt ≠ r.toInt) := by
  unfold List.Nodup
  rw [List.pairwise_filter]
  refine List.Pairwise.iff fun q r => ?_
  rw [noPin_iff, Ne, Ne, BitVec.toInt_inj]
  simp only [bne_iff_ne]
  by_cases hq : q = noPin
  · simp [hq]
  · constructor
    · intro h
      exact Or.inr fun hqr => h hq (hqr ▸ hq) hqr
    · intro h _ _
      exact h.resolve_left hq

theorem pinsValid_iff (p : Params) : pinsValid p = true ↔ PinsLegal p := by
  unfold pinsValid
  rw [Bool.and_eq_true, Bool.and_eq_true, List.all_eq_true, List.all_eq_true, decide_eq_true_eq,
    presentPins_nodup_iff, and_assoc]
  simp only [pinInRange_iff, optionalPin_iff, ← Int.le_sub_one_iff]
  rfl

/-- The check passes where its three conditions hold. -/
theorem cfgCheck_eq_ok_iff (p : Params) :
    cfgCheck p = codeOk ↔ geometryOk p = true ∧ pinsValid p = true ∧ framebufferOk p = true := by
  rcases cfgCheck_cases p with ⟨h1, h⟩ | ⟨h1, h2, h⟩ | ⟨h1, h2, h3, h⟩ | ⟨h1, h2, h3, h⟩ <;>
    simp_all

/-- Settles O4: the code of the first condition that fails, each condition as R27 writes it. -/
theorem configCheckTakesFirstFailure : Obligations.ConfigCheckTakesFirstFailure := by
  intro p s
  show (¬ GeometryLegal p → cfgCheck p = codeConfigGeometry) ∧
    (GeometryLegal p → ¬ PinsLegal p → cfgCheck p = codeConfigPin) ∧
    (GeometryLegal p → PinsLegal p → ¬ FramebufferLegal p → cfgCheck p = codeConfigFb) ∧
    (GeometryLegal p → PinsLegal p → FramebufferLegal p → cfgCheck p = codeOk)
  rw [← geometryOk_iff_legal, ← pinsValid_iff, ← framebufferOk_iff_legal]
  rcases cfgCheck_cases p with ⟨h1, h⟩ | ⟨h1, h2, h⟩ | ⟨h1, h2, h3, h⟩ | ⟨h1, h2, h3, h⟩ <;>
    simp_all

/-! ## Exact windows -/

/-- A window that ends by 255 is at most 256 wide, and its offset and its bytes are the exact numbers (R24,
R25). -/
theorem window_exact {ctrl size : Half} (h1 : 1 ≤ size.toNat) (hle : size.toNat ≤ ctrl.toNat)
    (hend : size.toNat + (ctrl.toNat - size.toNat) / 2 - 1 ≤ 255) :
    size.toNat ≤ 256 ∧ (BitVec.ofInt 8 (offsetOf ctrl size)).toNat = (ctrl.toNat - size.toNat) / 2 ∧
    (windowBytes ctrl size).map BitVec.toNat =
      [0, (ctrl.toNat - size.toNat) / 2, 0, size.toNat + (ctrl.toNat - size.toNat) / 2 - 1] := by
  have hoff : (BitVec.ofInt 8 (offsetOf ctrl size)).toNat = (ctrl.toNat - size.toNat) / 2 := by
    rw [offsetOf_of_le hle, toNat_ofInt_byte (by omega)]
  have hlast : (BitVec.ofInt 8 (windowEnd ctrl size)).toNat =
      size.toNat + (ctrl.toNat - size.toNat) / 2 - 1 := by
    rw [windowEnd_of_le hle h1, toNat_ofInt_byte hend]
  exact ⟨by omega, hoff, by simp [windowBytes, hoff, hlast]⟩

/-- Settles O3: both windows are exact, and 256 × 256 pixels bound the transfer. -/
theorem validConfigurationHasExactWindows : Obligations.ValidConfigurationHasExactWindows := by
  intro p h
  obtain ⟨hgeo, -, -⟩ := (cfgCheck_eq_ok_iff p).1 h
  obtain ⟨hw1, hwle, hh1, hhle, hwend, hhend⟩ := (geometryOk_iff p).1 hgeo
  obtain ⟨hw, hoffC, hwinC⟩ := window_exact hw1 hwle hwend
  obtain ⟨hh, hoffR, hwinR⟩ := window_exact hh1 hhle hhend
  have hbytes : (Cfg.load p).nBytes = 2 * p.width.toNat * p.height.toNat := (Nat.mul_assoc _ _ _).symm
  have harea : p.width.toNat * p.height.toNat ≤ 256 * 256 := Nat.mul_le_mul hw hh
  exact ⟨hw, hh, hwend, hhend, hoffC, hoffR, hwinC, hwinR, hbytes, by rw [hbytes, Nat.mul_assoc]; omega⟩

end Sys2Proof.Machine
end

section
/-! SUPPORT. What instructions change of the lines, the PWM, `init_done` and the bus. -/

namespace Sys2Proof.Machine

/-! ## Lines -/

/-- In a configuration that passes its check the CS and DC pins differ: they are mandatory, so both are there,
and no two pins are the same (R27). -/
theorem pinCs_ne_pinDc {p : Params} (h : cfgCheck p = codeOk) : p.pinCs ≠ p.pinDc := by
  obtain ⟨-, hpins, -⟩ := (cfgCheck_eq_ok_iff p).1 h
  obtain ⟨hmand, -, hdiff⟩ := (pinsValid_iff p).1 hpins
  have hcs : 0 ≤ p.pinCs.toInt := (hmand _ (by simp)).1
  have hne := (List.pairwise_cons.1 hdiff).1 p.pinDc (by simp)
  intro heq
  rcases hne with h1 | h2
  · omega
  · exact h2 (by rw [heq])

/-- The line registers still say what the trace says, if they took up what the appended events say. -/
theorem linesInv_of_appended {s t : State} {es : List Event} (hl : LinesInv s) (hc : t.cfg = s.cfg)
    (ht : t.trace = s.trace ++ es) (hes : t.lines = es.foldl (Lines.after s.cfg) s.lines) : LinesInv t := by
  unfold LinesInv
  rw [hc, ht, linesOf_append, ← hl, hes]

/-- Every instruction keeps the lines on the trace. -/
theorem ran_linesInv {i : Instr} {s t : State} (h : Ran i s t) (hc : ConfigInv s) (hl : LinesInv s) :
    LinesInv t := by
  have hpins : s.fault = 0 → s.cfg.pinCs ≠ s.cfg.pinDc := fun h0 => pinCs_ne_pinDc (hc.2 h0)
  cases h with
  | answered w hi h | raised c hc hi h | lit b hi ho h =>
    subst h; exact linesInv_of_appended hl rfl rfl rfl
  | setUp v n hi h0 h =>
    subst h
    refine linesInv_of_appended hl rfl (List.append_assoc _ _ _) ?_
    rw [List.foldl_append, foldl_after_setupTrace (hpins h0)]
    rfl
  | sequenced v pc o x n hi h0 h =>
    subst h
    refine linesInv_of_appended hl rfl (by simp only [List.append_assoc]; rfl) ?_
    rw [List.foldl_append, foldl_after_setupTrace (hpins h0), List.foldl_append, foldl_after_entryEvents]
    rfl
  | stuckInit pre post e k v pc o x n hi h0 ht hp hk hlate h =>
    subst h
    refine linesInv_of_appended hl rfl (by simp only [List.append_assoc]; rfl) ?_
    rw [List.foldl_append, foldl_after_setupTrace (hpins h0), List.foldl_append, foldl_after_entryEvents,
      foldl_after_eventsBefore]
    rfl
  | gaveUpInit pre post e k v pc o x n hi h0 ht hp hk hlate h =>
    subst h
    refine linesInv_of_appended hl rfl (by simp only [List.append_assoc]; rfl) ?_
    rw [List.foldl_append, foldl_after_setupTrace (hpins h0), List.foldl_append, foldl_after_entryEvents,
      List.foldl_append, foldl_after_eventsBefore]
    rfl
  | completed op src m f r o d x n hf hi h =>
    subst h
    refine linesInv_of_appended hl rfl (List.append_assoc _ _ _) ?_
    rw [List.foldl_append, foldl_after_frameEvents]
    rfl
  | transferred op src m f r x n hf hi h =>
    subst h
    refine linesInv_of_appended hl rfl rfl ?_
    rw [foldl_after_frameEvents]
    rfl
  | stepped e k he hi h =>
    subst h
    refine linesInv_of_appended hl rfl rfl ?_
    rw [List.foldl_append, foldl_after_frameEvents, foldl_after_delayEvents]
    rfl
  | stuck op src m f r k d x n hf ht hk hlate h =>
    subst h
    refine linesInv_of_appended hl rfl rfl ?_
    rw [foldl_after_eventsBefore]
    rfl
  | gaveUp op src m f r k pc o d x n hf ht hk hlate h =>
    subst h
    refine linesInv_of_appended hl rfl (List.append_assoc _ _ _) ?_
    rw [List.foldl_append, foldl_after_eventsBefore]
    rfl

/-- Settles O55: what a step appends to the trace says what it did to the registers. -/
theorem stepKeepsLinesOnTheTrace : Obligations.StepKeepsLinesOnTheTrace := by
  intro s t hc hl h
  cases step_inv h with
  | stays h => exact h ▸ hl
  | stored a b acts hb hh h => subst h; exact hl
  | requested i n hb hd he => exact ran_linesInv (s := acceptRequest n s) (exec_ran he) hc hl
  | illegal hb h => subst h; exact linesInv_of_appended hl rfl rfl rfl
  | sequenced e hb hp hr he => exact ran_linesInv (exec_ran he) hc hl
  | finished hb hp hr h => subst h; exact linesInv_of_appended hl rfl rfl rfl
  | transferred hb hp hr he => exact ran_linesInv (exec_ran he) hc hl
  | responded hb hp h => subst h; exact linesInv_of_appended hl rfl rfl rfl

/-! ## The PWM and `init_done` -/

/-- Frames and responses mark nothing initialised and leave the PWM alone. What is left is INIT, and
SET_BACKLIGHT for the level (R28, R33). -/
theorem ran_init_or_keepsPwm {i : Instr} {s t : State} (h : Ran i s t) :
    (∃ auto, i = .init auto) ∨ (t.initDone = s.initDone ∧ t.pwmOn = s.pwmOn ∧
      ((∃ b, i = .setBacklight b) ∨ t.pwmLevel = s.pwmLevel)) := by
  cases h with
  | setUp v n hi h0 h | sequenced v pc o x n hi h0 h
  | stuckInit pre post e k v pc o x n hi h0 ht hp hk hl h
  | gaveUpInit pre post e k v pc o x n hi h0 ht hp hk hl h => exact Or.inl ⟨_, hi⟩
  | lit b hi ho h => subst h; exact Or.inr ⟨rfl, rfl, Or.inl ⟨b, hi⟩⟩
  | answered w hi h | raised c hc hi h | completed op src m f r o d x n hf hi h
  | transferred op src m f r x n hf hi h | stepped e k he hi h
  | stuck op src m f r k d x n hf ht hk hl h | gaveUp op src m f r k pc o d x n hf ht hk hl h =>
    subst h; exact Or.inr ⟨rfl, rfl, Or.inr rfl⟩

/-- Settles O49: of the two ways of `ran_init_or_keepsPwm`, the second keeps `init_done`. -/
theorem onlyInitMarksInitialised : Obligations.OnlyInitMarksInitialised := by
  intro s t i h hs ht
  rcases ran_init_or_keepsPwm (exec_ran h) with hi | ⟨hdone, -, -⟩
  · exact hi
  · rw [hdone, hs] at ht; cases ht

/-- Settles O50: of the two ways of `ran_init_or_keepsPwm`, INIT is left out. -/
theorem onlyInitAndBacklightTouchThePwm : Obligations.OnlyInitAndBacklightTouchThePwm := by
  intro s t i h hi
  rcases ran_init_or_keepsPwm (exec_ran h) with ⟨auto, hauto⟩ | ⟨-, hon, hlevel⟩
  · exact absurd hauto (hi auto)
  · exact ⟨hon, hlevel.resolve_right⟩

/-! ## The bus projection -/

theorem busProjection_append_offBus {es fs : List Event} (h : ∀ e ∈ fs, e.onBus = false) :
    busProjection (es ++ fs) = busProjection es := by
  unfold busProjection
  rw [List.filter_append, List.filter_eq_nil_iff (l := fs) |>.2 (by simpa using h), List.append_nil]

/-- Settles O48: such a request sends no frame, and responses, level writes and setup are not on the bus. -/
theorem otherRequestsSendNothingOnTheBus : Obligations.OtherRequestsSendNothingOnTheBus := by
  intro s t i hreq hinit hcommand hupdate h
  have hframe : ∀ {op src m f r}, ¬ SendsFrame i s op src m f r := fun hf =>
    (hf.isRequest_cases hreq).2.elim (fun ⟨op, d, h⟩ => hcommand op d h) fun ⟨b, h⟩ => hupdate b h
  cases exec_ran h with
  | answered w hi h | raised c hc hi h | lit b hi ho h =>
    subst h; exact busProjection_append_offBus (by simp [Event.onBus])
  | setUp v n hi h0 h =>
    subst h
    dsimp only
    rw [busProjection_append_offBus (by simp [Event.onBus]),
      busProjection_append_offBus fun e he => (mem_setupTrace he).1]
  | sequenced v pc o x n hi h0 h | stuckInit pre post e k v pc o x n hi h0 ht hp hk hl h
  | gaveUpInit pre post e k v pc o x n hi h0 ht hp hk hl h => exact absurd hi hinit
  | stepped e k he hi h => exact absurd (hi ▸ hreq) (not_isRequest_ofSlot _)
  | completed op src m f r o d x n hf hi h | transferred op src m f r x n hf hi h
  | stuck op src m f r k d x n hf ht hk hl h | gaveUp op src m f r k pc o d x n hf ht hk hl h =>
    exact absurd hf hframe

end Sys2Proof.Machine
end

section
/-! SUPPORT. Reset and single steps: what reset leaves, what a ready block does with the host's acts, and what
a busy block does next. -/

namespace Sys2Proof.Machine

/-! ## Reset -/

/-- Settles O1: reset is the update R43 says, with its latches at the values of log entry 3. -/
theorem resetLeavesSpecValues : Obligations.ResetLeavesSpecValues :=
  fun _ _ => ⟨0, 0, [], 0, false, rfl⟩

/-- Settles O2: the reference configuration meets its check, and its windows are those of the example. -/
theorem referenceGeometryMatchesTheExample : Obligations.ReferenceGeometryMatchesTheExample := by
  unfold Obligations.ReferenceGeometryMatchesTheExample
  decide

/-- Reset meets every invariant, whatever the block held, once memory is in canonical form. -/
theorem resetBlock_invariants (p : Params) {s : State} (hm : MemoryInv s) :
    ConfigInv (State.resetBlock p s) ∧ PhaseInv (State.resetBlock p s) ∧
    FramingInv (State.resetBlock p s) ∧ LinesInv (State.resetBlock p s) ∧
    ChipSelectInv (State.resetBlock p s) ∧ MemoryInv (State.resetBlock p s) := by
  refine ⟨⟨rfl, id⟩, phaseInv_ready rfl rfl rfl, Or.inl rfl, rfl, ?_, hm⟩
  rintro (h | h) <;> cases h

/-- The reset state is what reset with the reference parameters makes of it. -/
theorem reset_eq_resetBlock : State.reset = State.resetBlock refParams State.reset := rfl

/-- Settles O58: the reset state is one of the states `resetBlock_invariants` speaks of. -/
theorem resetMeetsTheInvariants : Obligations.ResetMeetsTheInvariants := by
  have hm : MemoryInv State.reset := ⟨List.Pairwise.nil, nofun⟩
  refine ⟨?_, fun p s => resetBlock_invariants p⟩
  rw [reset_eq_resetBlock]
  exact resetBlock_invariants refParams hm

/-! ## The block ready -/

/-- Settles O12: a step of a ready block waits for the rest of a request, or makes the host's store. -/
theorem readyBlockWaitsForTheHost : Obligations.ReadyBlockWaitsForTheHost := by
  intro s hb
  refine ⟨step_waits hb, fun w acts hh hd => ?_, fun a b acts hh hm => ?_⟩
  · rw [step_offer hb hh, offeredRequest, hd]
  · exact ⟨s.mem.write a.toNat b, step_store hb hh, Memory.write_wf hm a.isLt b,
      Memory.read_write_same hm.1 _ b, fun x hx => Memory.read_write_other b hx⟩

theorem runEnded_iff (s : State) : runEnded s = true ↔ s.phase = .idle ∧ s.busy = false ∧ s.host = [] := by
  simp [runEnded, and_assoc]

/-- Settles O13: the block waits, with nothing to wait for. -/
theorem endedRunStaysEnded : Obligations.EndedRunStaysEnded := by
  intro s h
  obtain ⟨-, hb, hh⟩ := (runEnded_iff s).1 h
  exact ⟨s, step_waits hb hh, rfl, h⟩

/-! ## The block busy -/

/-- Settles O14: inside INIT the entry at the step counter, inside UPDATE the transfer that is due. -/
theorem busyBlockRunsItsOwnCommand : Obligations.BusyBlockRunsItsOwnCommand := by
  intro s hb
  refine ⟨fun e hp he => ?_, step_transfer hb⟩
  rw [step_in_sequence hb hp, stepSequence_entry he, exec_ofSlot he s rfl]

/-- Past `N_STEPS` the step counter points at no entry of the ROM (R30, R124). -/
theorem initRom_getElem?_eq_none (c : Cfg) {n : Nat} (h : 20 ≤ n) : (initRom c)[n]? = none :=
  List.getElem?_eq_none h

/-- Settles O15: INIT completes past its ROM, UPDATE responds, and a hang stays. -/
theorem busyBlockEndsOrHangs : Obligations.BusyBlockEndsOrHangs := by
  intro s hb
  refine ⟨fun hp hpc => ?_, fun hp => ?_, fun hp hr => step_hung ⟨hb, hp, hr⟩⟩
  · refine ⟨Config.freeSeqPc s.draws, Config.freeOpR (s.draws + 1), Config.freeIdx (s.draws + 1), s.draws + 2, ?_⟩
    rw [step_in_sequence hb hp, stepSequence_end (initRom_getElem?_eq_none s.cfg hpc), finishInit_eq]
  · refine ⟨Config.freeOpR s.draws, Config.freeIdx s.draws, s.draws + 1, ?_⟩
    rw [step_response hb hp, endUpdate_eq]

end Sys2Proof.Machine
end

section
/-! SUPPORT. The framebuffer space: what an instruction and a step can leave in it, what a raced transfer sends,
and where a transfer would leave the readable region. -/

namespace Sys2Proof.Machine

/-! ## Who writes memory -/

/-- A frame leaves memory alone, but for the writes that raced with a transfer (R62, R166). -/
theorem SendsFrame.mem_cases {i : Instr} {s : State} {op : Byte} {src : DataSource} {m : Memory}
    {f : List Host.Cell} {r : Bool} (h : SendsFrame i s op src m f r) :
    m = s.mem ∨ m = s.mem.writeAll s.foreign := by
  cases h with
  | command hi ho hm hf hr => exact Or.inl hm
  | transfer hi hop hs hm hf hr => exact Or.inr hm
  | panel n e he hi hop hs hm hf hr => exact Or.inl hm

/-- The block itself writes nothing: after an instruction memory is as before, or holds the racing writes
(R62, R166). -/
theorem ran_mem_cases {i : Instr} {s t : State} (h : Ran i s t) :
    t.mem = s.mem ∨ t.mem = s.mem.writeAll s.foreign := by
  cases h with
  | answered w hi h | raised c hc hi h | lit b hi ho h | setUp v n hi h0 h | sequenced v pc o x n hi h0 h
  | stuckInit pre post e k v pc o x n hi h0 ht hp hk hl h
  | gaveUpInit pre post e k v pc o x n hi h0 ht hp hk hl h | stepped e k he hi h =>
    subst h; exact Or.inl rfl
  | completed op src m f r o d x n hf hi h | transferred op src m f r x n hf hi h
  | stuck op src m f r k d x n hf ht hk hl h | gaveUp op src m f r k pc o d x n hf ht hk hl h =>
    subst h; exact hf.mem_cases

/-- Both ways of `ran_mem_cases` are canonical. -/
theorem ran_memoryInv {i : Instr} {s t : State} (h : Ran i s t) (hm : MemoryInv s) : MemoryInv t := by
  unfold MemoryInv
  rcases ran_mem_cases h with hk | hw
  · rw [hk]; exact hm
  · rw [hw]; exact Memory.writeAll_wf hm s.foreign

/-- Settles O57: a step writes memory only by the host's store, whose address is a word, and by racing writes. -/
theorem stepKeepsMemoryCanonical : Obligations.StepKeepsMemoryCanonical := by
  intro s t hm h
  cases step_inv h with
  | stays h => exact h ▸ hm
  | stored a b acts hb hh h => subst h; exact Memory.write_wf hm a.isLt b
  | requested i n hb hd he => exact ran_memoryInv (s := acceptRequest n s) (exec_ran he) hm
  | illegal hb h => subst h; exact hm
  | sequenced e hb hp hr he => exact ran_memoryInv (exec_ran he) hm
  | finished hb hp hr h => subst h; exact hm
  | transferred hb hp hr he => exact ran_memoryInv (exec_ran he) hm
  | responded hb hp h => subst h; exact hm

/-- Settles O52: with no racing writes both ways of `ran_mem_cases` leave memory as it was. -/
theorem blockNeverWritesTheFramebuffer : Obligations.BlockNeverWritesTheFramebuffer := by
  intro s t i h hf
  rcases ran_mem_cases (exec_ran h) with hk | hw
  · exact hk
  · rw [hw, hf, Memory.writeAll_nil]

/-! ## A transfer that races -/

/-- The frame of a transfer whose bytes are all accepted in time, whatever races with it (R160). -/
theorem ramwrFrame_progress {s : State} (h : BusProgress s) :
    ramwrFrame s = .done (afterFrame s.cfg.opc.ramwr (some (framebufferBytes s)) (transferStart s)) :=
  frame_inTime (s := transferStart s) (inTimeUpTo_of_progress h _)

theorem framebufferByte_of_getElem? {s : State} {j : Nat} {v : Byte} (h : (framebufferBytes s)[j]? = some v) :
    framebufferByte s j = v := by
  obtain ⟨hj, rfl⟩ := List.getElem?_eq_some_iff.1 h
  simp [framebufferBytes]

/-- Settles O23: the bytes are those the transfer reads, each before or after the racing writes. -/
theorem racedUpdateSendsOldOrNewBytes : Obligations.RacedUpdateSendsOldOrNewBytes := by
  intro s b hc ho hb
  obtain ⟨-, -, hn⟩ := transfer_of_config hc ho.1
  refine ⟨framebufferBytes s, by rw [framebufferBytes_length, hn], fun j v hv => ?_, ?_⟩
  · exact framebufferByte_of_getElem? hv ▸ framebufferByte_cases s j
  · refine ⟨Config.freeOpR (transferStart s).draws, Config.freeIdx (transferStart s).draws,
      (transferStart s).draws + 1, ?_⟩
    show execUpdate b s = _
    rw [execUpdate_pass hc ho, ramwrFrame_progress hb, Sent.done_settle, endUpdate_eq]
    simp [afterFrame, landForeign, frameEvents, dataEvents, frameLength, dcAfter]

/-! ## The readable region -/

/-- A transfer may be made where each of its bytes may be read (R50, R60). -/
theorem transferReadable_iff (c : Cfg) (n : Nat) :
    transferReadable c n = true ↔ ∀ j, j < n → readable c (c.fbBase.toNat + j) = true := by
  have hbase := c.fbBase.isLt
  simp only [transferReadable, readable, decide_eq_true_eq]
  constructor
  · intro h j hj
    omega
  · intro h
    cases n with
    | zero => omega
    | succ n => have := h n (Nat.lt_succ_self n); omega

theorem execRamwr_fault_iff (s : State) :
    execRamwr s = .fault .readOutsideFramebuffer ↔ ¬ transferReadable s.cfg s.cfg.nBytes = true := by
  unfold execRamwr
  split <;> simp_all

/-- Settles O26: RAMWR checks its transfer as a whole, which is to check each byte. -/
theorem transferOutsideTheRegionStops : Obligations.TransferOutsideTheRegionStops := by
  intro s
  rw [← transferReadable_iff]
  exact execRamwr_fault_iff s

end Sys2Proof.Machine
end

section
/-! SUPPORT. Requests with no time limit at a byte the bus never accepts: the hang they end in (R58). -/

namespace Sys2Proof.Machine

/-! ## The stalled byte -/

/-- With no time limit work that stalls stays where it is (R58). -/
theorem stall_settle_noLimit {s : State} (h : s.cfg.timeoutMs = none) (k a : State → State) :
    (stall s).settle k a = s := by
  rw [stall_settle, h]; rfl

/-- A stall and a run of accepted bytes: the stall comes after. -/
theorem le_of_inTimeUpTo_of_lateAt {m k : Nat} {s : State} (h : InTimeUpTo m s) (hl : LateAt k s) : m ≤ k := by
  by_contra hlt
  exact absurd (h k (Nat.lt_of_not_le hlt)) (by rw [hl]; nofun)

/-- The bus stalls at one byte at most. -/
theorem stallsAtByte_unique {m k : Nat} {s : State} (h : StallsAtByte m s) (h' : StallsAtByte k s) : m = k :=
  Nat.le_antisymm (le_of_inTimeUpTo_of_lateAt h.1 h'.2) (le_of_inTimeUpTo_of_lateAt h'.1 h.2)

theorem eventsBefore_eq (k : Nat) (op : Byte) (src : DataSource) :
    eventsBefore k op src = frameEventsBefore k op src := by
  cases k <;> rfl

/-- A stalled frame on a busy block with no transfer due is a hang (R58). -/
theorem hung_stalledFrame {s : State} (hb : s.busy = true) (hd : s.ramwrDue = false) (k : Nat) (op : Byte)
    (src : DataSource) : Hung (stalledFrame k op src s) := ⟨hb, rfl, hd⟩

/-! ## COMMAND and UPDATE -/

theorem execCommand_stalled {s : State} (ho : Operational s) (ht : s.cfg.timeoutMs = none) {op : Byte}
    {data : Option (List Byte)} {k : Nat} (hk : k < frameLength data) (hs : StallsAtByte k s) :
    execCommand op data s = .next (stalledFrame k op data (commandStart data s)) := by
  rw [execCommand_pass ho, frame_late (s := commandStart data s) hk hs.1 hs.2, stall_settle_noLimit (by exact ht)]

/-- Settles O41: the frame stalls where the bus does, and hangs there. -/
theorem stalledCommandHangs : Obligations.StalledCommandHangs := by
  intro s op data k ho hb hd ht hk hs
  refine ⟨data.getD s.dataR, _, execCommand_stalled ho ht hk hs, step_hung (hung_stalledFrame hb hd k op data), ?_⟩
  rw [← eventsBefore_eq]
  rfl

theorem execUpdate_stalled {s : State} (hc : ConfigInv s) (ho : Operational s) (ht : s.cfg.timeoutMs = none)
    (b : Bool) {k : Nat} (hk : k < 1 + s.cfg.nBytes) (hs : StallsAtByte k s) :
    execUpdate b s = .next
      (stalledFrame k s.cfg.opc.ramwr (some (framebufferBytes s)) (transferStart s)) := by
  have hk' : k < frameLength (some (framebufferBytes s)) := by simpa [frameLength] using hk
  have hframe : ramwrFrame s = _ := frame_late (s := transferStart s) hk' hs.1 hs.2
  rw [execUpdate_pass hc ho, hframe, stall_settle_noLimit (by exact ht)]

/-- With no other writer a transfer starts from the same memory (R62). -/
theorem transferStart_quiet {s : State} (h : s.foreign = []) :
    transferStart s = { s with ramwrDue := false, draws := s.draws + s.cfg.nBytes } :=
  landForeign_quiet (s := { s with ramwrDue := false }) h

/-- Settles O59: with no agent racing the bytes are memory's, and the frame hangs where the bus stalls. -/
theorem stalledUpdateHangs : Obligations.StalledUpdateHangs := by
  intro s b k hc ho hb hf ht hk hs
  obtain ⟨-, -, hn⟩ := transfer_of_config hc ho.1
  rw [← hn] at hk ⊢
  refine ⟨s.draws + s.cfg.nBytes, _, execUpdate_stalled hc ho ht b hk hs,
    step_hung (hung_stalledFrame (s := transferStart s) hb rfl k _ _), ?_⟩
  rw [← eventsBefore_eq, framebufferBytes_quiet hf, transferStart_quiet hf]
  rfl

/-! ## INIT -/

/-- The twenty steps of R124 are the entries of the ROM, each with its opcode byte. -/
theorem initRom_map_eq_initSteps (c : Cfg) :
    (initRom c).map (fun e => (opcByte c.opc e.slot, e.params, e.delayMs)) = initSteps c := rfl

theorem entryEvents_initRom (c : Cfg) : entryEvents c.opc (initRom c) = sequenceEvents c := by
  rw [sequenceEvents, ← initRom_map_eq_initSteps, List.flatMap_map]
  rfl

theorem entryLength_initRom (c : Cfg) : entryLength (initRom c) = sequenceLength c := by
  rw [sequenceLength, ← initRom_map_eq_initSteps, List.map_map]
  rfl

/-- A choice by whether an optional pin is present is one by its number (R8, R200). -/
theorem ite_pinPresent {α : Type} (pin : Word) (x y : α) :
    (if pinPresent pin then x else y) = if pin.toInt = -1 then y else x := by
  by_cases h : pin.toInt = -1
  · rw [pinPresent_of_eq h, if_pos h]; rfl
  · rw [pinPresent_of_ne h, if_neg h]; rfl

theorem setupTrace_eq_setupEvents (c : Cfg) (v : Level) : setupTrace c v = setupEvents c v := by
  simp only [setupTrace, setupEvents, pinTrace, eventIfPresent, ite_pinPresent]

/-- The entries before a stalled one, what that one has sent, and the byte it stalls at begin the sequence. -/
theorem entryEvents_stalled_prefix (o : Opc) (pre post : List RomEntry) {e : RomEntry} {k : Nat}
    (hk : k < frameLength e.params) :
    ∃ b, entryEvents o pre ++ eventsBefore k (opcByte o e.slot) e.params ++ [.tx b] <+:
      entryEvents o (pre ++ e :: post) := by
  obtain ⟨b, hb⟩ := eventsBefore_prefix (opcByte o e.slot) hk
  refine ⟨b, ?_⟩
  have hcut : entryEvents o (pre ++ e :: post) = entryEvents o pre ++
      (frameEvents (opcByte o e.slot) e.params ++ (delayEvents e.delayMs ++ entryEvents o post)) := by
    simp [entryEvents]
  rw [hcut, List.append_assoc, List.prefix_append_right_inj]
  exact hb.trans (List.prefix_append _ _)

/-- INIT with its sequence where the bus stalls, with no time limit: it is left at byte `j` of the frame of one
of its entries (R58, R120). -/
theorem execInit_stalled {s : State} (h : s.fault = 0) (ht : s.cfg.timeoutMs = none) {k : Nat}
    (hk : k < sequenceLength s.cfg) (hs : StallsAtByte k s) :
    ∃ pre e post j, initRom s.cfg = pre ++ e :: post ∧ j < frameLength e.params ∧ k = entryLength pre + j ∧
      execInit true s = .next
        (stalledFrame j (opcByte s.cfg.opc e.slot) e.params (afterEntries pre (startSequence s))) := by
  rcases execInit_sequence h with ⟨hi, -⟩ | ⟨pre, e, post, j, hrom, hj, hi, hl, hr⟩
  · rw [entryLength_initRom] at hi
    exact absurd (le_of_inTimeUpTo_of_lateAt hi hs.2) (Nat.not_le_of_lt hk)
  · refine ⟨pre, e, post, j, hrom, hj, stallsAtByte_unique hs ⟨hi, hl⟩, ?_⟩
    rw [hr, stall_settle_noLimit (by simpa [stalledFrame] using ht)]

/-- What INIT has done when it is left there (R58, R122). -/
theorem stalledInit_eq (s : State) (pre : List RomEntry) (k : Nat) (op : Byte) (src : DataSource) :
    ∃ pc o x, stalledFrame k op src (afterEntries pre (startSequence s)) = { s with
      phase := .frame, csLine := .at .lo, dcLine := stalledDc k,
      pwmOn := if pinPresent s.cfg.pinBl then true else s.pwmOn,
      pwmLevel := if pinPresent s.cfg.pinBl then .unspec else s.pwmLevel,
      trace := s.trace ++ setupTrace s.cfg (Config.freeLevel s.draws) ++
        (entryEvents s.cfg.opc pre ++ eventsBefore k op src),
      bus := s.bus.skip (entryLength pre + k), seqPc := pc, opR := o, idx := x, draws := s.draws + 1 } := by
  obtain ⟨o, x, ph, he⟩ := afterEntries_eq pre (startSequence s)
  refine ⟨(afterEntries pre (startSequence s)).seqPc, op, stalledIdx k (afterEntries pre (startSequence s)), ?_⟩
  rw [he, startSequence_eq, ← Bus.skip_skip, ← List.append_assoc]
  rfl

theorem stalledDc_eq (k : Nat) : stalledDc k = .at (if k = 0 then .lo else .hi) := by
  cases k <;> rfl

/-- Settles O60: INIT is left at a byte of an entry's frame, and hangs there. -/
theorem stalledInitHangs : Obligations.StalledInitHangs := by
  intro s k h0 hb hd ht hk hs
  obtain ⟨pre, e, post, j, hrom, hj, rfl, hr⟩ := execInit_stalled h0 ht hk hs
  obtain ⟨b, hprefix⟩ := entryEvents_stalled_prefix s.cfg.opc pre post hj
  obtain ⟨pc, o, x, heq⟩ := stalledInit_eq s pre j (opcByte s.cfg.opc e.slot) e.params
  rw [← hrom, entryEvents_initRom] at hprefix
  rw [heq, setupTrace_eq_setupEvents, ite_pinPresent, ite_pinPresent, stalledDc_eq] at hr
  refine ⟨_, _, b, _, pc, o, x, _, _, hr, step_hung ⟨hb, rfl, hd⟩, rfl, hprefix, ?_⟩
  rw [List.countP_append, countP_entryEvents, countP_eventsBefore _ hj]

end Sys2Proof.Machine
end

section
/-! SUPPORT. The decoder and the encoder: each row's words decode to its instruction, and what a first word with
any words after it can decode to, said once (spec/30_encoding.md R71, R73, R77, R78). -/

namespace Sys2Proof

/-! ## Fields -/

/-- A word is its operation and its operand bits (R71). -/
theorem word_ext {v w : Word} (hop : v.toNat / 2 ^ 28 = w.toNat / 2 ^ 28)
    (hx : v.toNat % 2 ^ 28 = w.toNat % 2 ^ 28) : v = w := by
  apply BitVec.eq_of_toNat_eq
  omega

theorem lowByte_eq (w : Word) : lowByte w = BitVec.ofNat 8 w.toNat := by
  apply BitVec.eq_of_toNat_eq
  rw [lowByte_toNat, BitVec.toNat_ofNat]

theorem toNat_getLsbD (w : Word) (k : Nat) : (w.getLsbD k).toNat = w.toNat / 2 ^ k % 2 :=
  Nat.toNat_testBit _ _

theorem getLsbD_eq_of_toNat {w : Word} {k : Nat} {f : Bool} (h : w.toNat / 2 ^ k % 2 = f.toNat) :
    w.getLsbD k = f := by
  rw [Bool.eq_iff_iff, testFlag_iff, h]
  cases f <;> decide

theorem operandField_toNat (w : Word) : (operandField w).toNat = w.toNat % 2 ^ 28 := by
  rw [operandField_eq, BitVec.toNat_ofNat]

/-- No reserved bit is set where the operand bits stay below `2^lo` (R71). -/
theorem reservedSet_eq_false {lo : Nat} (hlo : lo ≤ 28) {w : Word} (h : w.toNat % 2 ^ 28 < 2 ^ lo) :
    reservedSet lo w = false :=
  Bool.eq_false_iff.2 fun hr => Nat.not_le_of_lt h ((reservedSet_iff hlo w).1 hr)

/-- The number of SET_BACKLIGHT's word (R75). -/
theorem backlightWord_toNat (b : Byte) :
    ((4 : BitVec 4) ++ (0 : BitVec 20) ++ b : Word).toNat = 4 * 2 ^ 28 + b.toNat := by
  simp only [append_toNat]
  simp

/-! ## The words of each row decode to its instruction -/

/-- INIT and UPDATE: one operand bit. -/
theorem decodeRequest_flagWord {op : BitVec 4} {mk : Bool → Instr} {e : DecodeError}
    (hrow : ∀ w rest, decodeOp op.toNat w rest =
      if reservedSet 1 w then .illegal e else .instr (mk (w.getLsbD 0)) 1)
    (f : Bool) (rest : List Word) : decodeRequest (flagWord op f) rest = .instr (mk f) 1 := by
  have hw := flagWord_toNat op f
  have hf := f.toNat_lt
  have hflag : (flagWord op f).getLsbD 0 = f := getLsbD_eq_of_toNat (by omega)
  rw [decodeRequest_op (k := op.toNat) (by omega), hrow, reservedSet_eq_false (by omega) (by omega), hflag]
  rfl

/-- The reserved operations: 28 operand bits. -/
theorem decodeRequest_reservedWord {op : BitVec 4} {mk : BitVec 28 → Instr}
    (hrow : ∀ w rest, decodeOp op.toNat w rest = .instr (mk (operandField w)) 1)
    (x : BitVec 28) (rest : List Word) : decodeRequest (opWord op x) rest = .instr (mk x) 1 := by
  have hw := opWord_toNat op x
  have hx := x.isLt
  have hfield : operandField (opWord op x) = x := by
    apply BitVec.eq_of_toNat_eq
    rw [operandField_toNat]
    omega
  rw [decodeRequest_op (k := op.toNat) (by omega), hrow, hfield]

/-- The accessors: no operand bits. -/
theorem decodeRequest_accessorWord {op : BitVec 4} {i : Instr}
    (hrow : ∀ w rest, decodeOp op.toNat w rest = decodeAccessor i w) (rest : List Word) :
    decodeRequest (opWord op 0) rest = .instr i 1 := by
  have hw : (opWord op 0).toNat = op.toNat * 2 ^ 28 + 0 := opWord_toNat op 0
  rw [decodeRequest_op (k := op.toNat) (by omega), hrow, decodeAccessor,
    reservedSet_eq_false (by omega) (by omega)]
  rfl

theorem decodeRequest_backlightWord (b : Byte) (rest : List Word) :
    decodeRequest ((4 : BitVec 4) ++ (0 : BitVec 20) ++ b) rest = .instr (.setBacklight b) 1 := by
  have hw := backlightWord_toNat b
  have hb := b.isLt
  generalize (4 : BitVec 4) ++ (0 : BitVec 20) ++ b = w at hw
  have hlow : lowByte w = b := by
    apply BitVec.eq_of_toNat_eq
    rw [lowByte_toNat]
    omega
  rw [decodeRequest_op (k := 4) (by omega), decodeOp, reservedSet_eq_false (by omega) (by omega), hlow]
  rfl

/-- A word of operation 2 with no reserved bit set is a COMMAND's. -/
theorem decodeRequest_command {w : Word} (hop : w.toNat / 2 ^ 28 = 2) (hx : w.toNat % 2 ^ 28 < 2 ^ 9)
    (rest : List Word) : decodeRequest w rest = decodeCommand w rest := by
  rw [decodeRequest_op hop, decodeOp, reservedSet_eq_false (by omega) hx]
  rfl

theorem decodeRequest_commandWord (opcode : Byte) (hasData : Bool) (rest : List Word) :
    decodeRequest (commandWord opcode hasData) rest = decodeCommand (commandWord opcode hasData) rest := by
  have hw := commandWord_toNat opcode hasData
  have ho := opcode.isLt
  have hd := hasData.toNat_lt
  exact decodeRequest_command (by omega) (by omega) rest

theorem commandWord_hasData (opcode : Byte) (hasData : Bool) :
    (commandWord opcode hasData).getLsbD 8 = hasData := by
  have hw := commandWord_toNat opcode hasData
  have ho := opcode.isLt
  have hd := hasData.toNat_lt
  exact getLsbD_eq_of_toNat (by omega)

theorem lowByte_commandWord (opcode : Byte) (hasData : Bool) : lowByte (commandWord opcode hasData) = opcode := by
  have hw := commandWord_toNat opcode hasData
  have ho := opcode.isLt
  apply BitVec.eq_of_toNat_eq
  rw [lowByte_toNat]
  omega

/-- The data bytes a COMMAND of length `len` takes from the words after its length word (R73). -/
def commandData (len : Nat) (ws : List Word) : List Byte :=
  (unpackWords (ws.take (dataWords len))).take len

theorem decodeCommand_noData {w : Word} (h : w.getLsbD 8 = false) (rest : List Word) :
    decodeCommand w rest = .instr (.command (lowByte w) none) 1 := by
  unfold decodeCommand
  rw [h]
  rfl

theorem decodeCommand_data {w len : Word} {ws : List Word} (h : w.getLsbD 8 = true)
    (hws : dataWords len.toNat ≤ ws.length) : decodeCommand w (len :: ws) =
      .instr (.command (lowByte w) (some (commandData len.toNat ws))) (2 + dataWords len.toNat) := by
  unfold decodeCommand
  rw [h]
  exact if_pos hws

/-- What the encoder packs, COMMAND takes out again, whatever follows. -/
theorem commandData_packBytes (d : List Byte) (rest : List Word) :
    commandData d.length (packBytes d ++ rest) = d := by
  rw [commandData, ← packBytes_length, List.take_left, unpackWords_packBytes]

theorem decode_encode_command (opcode : Byte) {d : List Byte} (hd : d.length < 2 ^ 32) (rest : List Word) :
    decodeRequest (commandWord opcode true) (BitVec.ofNat 32 d.length :: (packBytes d ++ rest)) =
      .instr (.command opcode (some d)) (2 + (packBytes d).length) := by
  have hlen : (BitVec.ofNat 32 d.length).toNat = d.length := by
    rw [BitVec.toNat_ofNat, Nat.mod_eq_of_lt hd]
  have hws : dataWords (BitVec.ofNat 32 d.length).toNat ≤ (packBytes d ++ rest).length := by
    rw [hlen, List.length_append, packBytes_length]
    exact Nat.le_add_right _ _
  rw [decodeRequest_commandWord, decodeCommand_data (commandWord_hasData opcode true) hws, lowByte_commandWord, hlen,
    commandData_packBytes, packBytes_length]

/-- A panel command's byte stands for it (R85). -/
theorem decode_encode_panel {i : Instr} {b : Byte} (h : encode i = .panel b) (rest : List Word) :
    decode ((encode i).followedBy rest) = .instr i (encode i).size := by
  have hmem : (b, i) ∈ panelTable := by
    cases i with
    | command opcode data => cases data <;> cases h
    | _ => cases h <;> simp [panelTable]
  rw [h]
  exact (panelTable_both_ways _ hmem).2

/-- Settles O6: by the rows of R71; COMMAND's data by packing and unpacking. -/
theorem decodeInvertsEncode : Obligations.DecodeInvertsEncode := by
  intro i rest hwf
  cases i with
  | init auto => exact decodeRequest_flagWord (mk := .init) (fun _ _ => rfl) auto rest
  | update dontBlock => exact decodeRequest_flagWord (mk := .update) (fun _ _ => rfl) dontBlock rest
  | setBacklight brightness => exact decodeRequest_backlightWord brightness rest
  | command opcode data =>
    cases data with
    | none =>
      refine (decodeRequest_commandWord opcode false rest).trans ?_
      rw [decodeCommand_noData (commandWord_hasData opcode false), lowByte_commandWord]
      rfl
    | some d =>
      refine (decode_encode_command opcode hwf rest).trans ?_
      rw [Nat.add_comm]
      rfl
  | getBus | getCs | getDc | getSck | getMosi | getMiso | getBl | getVsync =>
    exact decodeRequest_accessorWord (fun _ _ => rfl) rest
  | reservedOp0 x => exact decodeRequest_reservedWord (mk := .reservedOp0) (fun _ _ => rfl) x rest
  | reservedOp5 x => exact decodeRequest_reservedWord (mk := .reservedOp5) (fun _ _ => rfl) x rest
  | reservedOp6 x => exact decodeRequest_reservedWord (mk := .reservedOp6) (fun _ _ => rfl) x rest
  | reservedOp7 x => exact decodeRequest_reservedWord (mk := .reservedOp7) (fun _ _ => rfl) x rest
  | _ => exact decode_encode_panel rfl rest

/-! ## What a first word can decode to -/

/-- A COMMAND word that announces data (R71, R73). -/
abbrev AnnouncesData (w : Word) : Prop :=
  w.toNat / 2 ^ 28 = 2 ∧ ¬ ReservedBitSet w ∧ w.toNat / 2 ^ 8 % 2 = 1

/-- What a first word and the words after it decode to. -/
inductive FirstWordDecodes (w : Word) (rest : List Word) : Decoded → Prop where
  /-- A reserved bit is set (R77). -/
  | refused (e : DecodeError) (hr : ReservedBitSet w) : FirstWordDecodes w rest (.illegal e)
  /-- A request of one word. -/
  | single (i : Instr) (hr : ¬ ReservedBitSet w) (hd : ¬ AnnouncesData w) (he : encode i = .req [w]) :
      FirstWordDecodes w rest (.instr i 1)
  /-- COMMAND with its data words (R73). -/
  | withData (len : Word) (ws : List Word) (hd : AnnouncesData w) (hrest : rest = len :: ws)
      (hws : dataWords len.toNat ≤ ws.length) :
      FirstWordDecodes w rest
        (.instr (.command (lowByte w) (some (commandData len.toNat ws))) (2 + dataWords len.toNat))
  /-- COMMAND short of words (R74). -/
  | short (hd : AnnouncesData w) (hws : ∀ len ws, rest = len :: ws → ws.length < dataWords len.toNat) :
      FirstWordDecodes w rest .incomplete

section Rows

variable {w : Word}

theorem reservedBitSet_iff_of_flag (hop : w.toNat / 2 ^ 28 = 1 ∨ w.toNat / 2 ^ 28 = 3) :
    ReservedBitSet w ↔ 2 ^ 1 ≤ w.toNat % 2 ^ 28 := by
  unfold ReservedBitSet; omega

theorem reservedBitSet_iff_of_command (hop : w.toNat / 2 ^ 28 = 2) :
    ReservedBitSet w ↔ 2 ^ 9 ≤ w.toNat % 2 ^ 28 := by
  unfold ReservedBitSet; omega

theorem reservedBitSet_iff_of_backlight (hop : w.toNat / 2 ^ 28 = 4) :
    ReservedBitSet w ↔ 2 ^ 8 ≤ w.toNat % 2 ^ 28 := by
  unfold ReservedBitSet; omega

theorem reservedBitSet_iff_of_accessor (hop : 8 ≤ w.toNat / 2 ^ 28) :
    ReservedBitSet w ↔ 2 ^ 0 ≤ w.toNat % 2 ^ 28 := by
  unfold ReservedBitSet; omega

theorem not_reservedBitSet_of_reservedOp (hop : ReservedOp w) : ¬ ReservedBitSet w := by
  unfold ReservedOp at hop
  unfold ReservedBitSet
  omega

/-- A row of one word that refuses the bits from `lo` up, and whose instruction the encoder gives that word. -/
theorem firstWordDecodes_checked {lo : Nat} {e : DecodeError} {i : Instr} {rest : List Word} (hlo : lo ≤ 28)
    (hop : w.toNat / 2 ^ 28 ≠ 2) (hres : ReservedBitSet w ↔ 2 ^ lo ≤ w.toNat % 2 ^ 28)
    (he : w.toNat % 2 ^ 28 < 2 ^ lo → encode i = .req [w]) :
    FirstWordDecodes w rest (if reservedSet lo w then .illegal e else .instr i 1) := by
  split
  · next h => exact .refused e (hres.2 ((reservedSet_iff hlo w).1 h))
  · next h =>
    rw [reservedSet_iff hlo] at h
    exact .single i (fun hr => h (hres.1 hr)) (fun hd => hop hd.1) (he (Nat.lt_of_not_le h))

theorem firstWordDecodes_flag {op : BitVec 4} {e : DecodeError} {mk : Bool → Instr} {rest : List Word}
    (hop : w.toNat / 2 ^ 28 = op.toNat) (hflag : op.toNat = 1 ∨ op.toNat = 3)
    (hmk : ∀ f, encode (mk f) = .req [flagWord op f]) :
    FirstWordDecodes w rest (if reservedSet 1 w then .illegal e else .instr (mk (w.getLsbD 0)) 1) := by
  refine firstWordDecodes_checked (by omega) (by omega)
    (reservedBitSet_iff_of_flag (by omega)) fun hx => ?_
  have hw := flagWord_toNat op (w.getLsbD 0)
  rw [toNat_getLsbD] at hw
  rw [hmk, word_ext (v := flagWord op (w.getLsbD 0)) (w := w) (by omega) (by omega)]

theorem firstWordDecodes_backlight {rest : List Word} (hop : w.toNat / 2 ^ 28 = 4) :
    FirstWordDecodes w rest (decodeOp 4 w rest) := by
  refine firstWordDecodes_checked (by omega) (by omega) (reservedBitSet_iff_of_backlight hop) fun hx => ?_
  have hw := backlightWord_toNat (lowByte w)
  rw [lowByte_toNat] at hw
  rw [encode, word_ext (v := (4 : BitVec 4) ++ (0 : BitVec 20) ++ lowByte w) (w := w) (by omega) (by omega)]

theorem opWord_operandField {op : BitVec 4} (hop : w.toNat / 2 ^ 28 = op.toNat) :
    opWord op (operandField w) = w := by
  have hw := opWord_toNat op (operandField w)
  rw [operandField_toNat] at hw
  exact word_ext (by omega) (by omega)

theorem firstWordDecodes_accessor {op : BitVec 4} {i : Instr} {rest : List Word}
    (hop : w.toNat / 2 ^ 28 = op.toNat) (hacc : 8 ≤ op.toNat) (hi : encode i = .req [opWord op 0]) :
    FirstWordDecodes w rest (decodeAccessor i w) := by
  refine firstWordDecodes_checked (by omega) (by omega) (reservedBitSet_iff_of_accessor (by omega)) fun hx => ?_
  have hw : (opWord op 0).toNat = op.toNat * 2 ^ 28 + 0 := opWord_toNat op 0
  rw [hi, word_ext (v := opWord op 0) (w := w) (by omega) (by omega)]

theorem firstWordDecodes_reserved {op : BitVec 4} {i : Instr} {rest : List Word}
    (hop : w.toNat / 2 ^ 28 = op.toNat) (hres : ReservedOp w)
    (hi : encode i = .req [opWord op (operandField w)]) : FirstWordDecodes w rest (.instr i 1) := by
  rw [opWord_operandField hop] at hi
  refine .single i (not_reservedBitSet_of_reservedOp hres) (fun hd => ?_) hi
  have h2 := hd.1
  unfold ReservedOp at hres
  omega

theorem commandWord_lowByte (hop : w.toNat / 2 ^ 28 = 2) (hx : w.toNat % 2 ^ 28 < 2 ^ 9) :
    commandWord (lowByte w) (w.getLsbD 8) = w := by
  have hw := commandWord_toNat (lowByte w) (w.getLsbD 8)
  rw [lowByte_toNat, toNat_getLsbD] at hw
  exact word_ext (by omega) (by omega)

theorem firstWordDecodes_command {rest : List Word} (hop : w.toNat / 2 ^ 28 = 2)
    (hx : w.toNat % 2 ^ 28 < 2 ^ 9) : FirstWordDecodes w rest (decodeCommand w rest) := by
  have hr : ¬ ReservedBitSet w := fun h => Nat.not_le_of_lt hx ((reservedBitSet_iff_of_command hop).1 h)
  have hw := commandWord_lowByte hop hx
  cases hf : w.getLsbD 8 with
  | false =>
    rw [hf] at hw
    rw [decodeCommand_noData hf]
    refine .single _ hr (fun hd => ?_) (by rw [encode, hw])
    exact Bool.eq_false_iff.1 hf ((testFlag_iff w 8).2 hd.2.2)
  | true =>
    have hd : AnnouncesData w := ⟨hop, hr, (testFlag_iff w 8).1 hf⟩
    unfold decodeCommand
    rw [if_pos hf]
    cases rest with
    | nil => exact .short hd nofun
    | cons len ws =>
      dsimp only
      split
      · next hws => exact .withData len ws hd rfl hws
      · next hws => exact .short hd (by rintro _ _ ⟨rfl, rfl⟩; exact Nat.lt_of_not_le hws)

end Rows

/-- The inversion lemma of the decoder, by the sixteen rows of R71 in the order of their operations. -/
theorem firstWordDecodes (w : Word) (rest : List Word) : FirstWordDecodes w rest (decode (.req (w :: rest))) := by
  show FirstWordDecodes w rest (decodeRequest w rest)
  obtain ⟨k, hk, hop, hrow⟩ := decodeRequest_cases w rest
  rw [hrow]
  interval_cases k
  · exact firstWordDecodes_reserved (op := 0) hop (Or.inl hop) rfl
  · exact firstWordDecodes_flag (op := 1) (mk := .init) hop (by decide) fun _ => rfl
  · show FirstWordDecodes w rest (if reservedSet 9 w then .illegal _ else decodeCommand w rest)
    split
    · next h => exact .refused _ ((reservedBitSet_iff_of_command hop).2 ((reservedSet_iff (by omega) w).1 h))
    · next h =>
      rw [reservedSet_iff (by omega)] at h
      exact firstWordDecodes_command hop (Nat.lt_of_not_le h)
  · exact firstWordDecodes_flag (op := 3) (mk := .update) hop (by decide) fun _ => rfl
  · exact firstWordDecodes_backlight hop
  · exact firstWordDecodes_reserved (op := 5) hop (Or.inr (Or.inl hop)) rfl
  · exact firstWordDecodes_reserved (op := 6) hop (Or.inr (Or.inr (Or.inl hop))) rfl
  · exact firstWordDecodes_reserved (op := 7) hop (Or.inr (Or.inr (Or.inr hop))) rfl
  · exact firstWordDecodes_accessor (op := 8) hop (by decide) rfl
  · exact firstWordDecodes_accessor (op := 9) hop (by decide) rfl
  · exact firstWordDecodes_accessor (op := 10) hop (by decide) rfl
  · exact firstWordDecodes_accessor (op := 11) hop (by decide) rfl
  · exact firstWordDecodes_accessor (op := 12) hop (by decide) rfl
  · exact firstWordDecodes_accessor (op := 13) hop (by decide) rfl
  · exact firstWordDecodes_accessor (op := 14) hop (by decide) rfl
  · exact firstWordDecodes_accessor (op := 15) hop (by decide) rfl

theorem firstWordDecodes_of_decode {w : Word} {rest : List Word} {r : Decoded}
    (h : decode (.req (w :: rest)) = r) : FirstWordDecodes w rest r := h ▸ firstWordDecodes w rest

/-! ## The statements on the decoder -/

theorem FirstWordDecodes.illegal_iff {w : Word} {rest : List Word} {r : Decoded} (h : FirstWordDecodes w rest r) :
    (∃ e, r = .illegal e) ↔ ReservedBitSet w := by
  cases h with
  | refused e hr => exact ⟨fun _ => hr, fun _ => ⟨e, rfl⟩⟩
  | single i hr hd he => exact ⟨nofun, fun h => absurd h hr⟩
  | withData len ws hd hrest hws => exact ⟨nofun, fun h => absurd h hd.2.1⟩
  | short hd hws => exact ⟨nofun, fun h => absurd h hd.2.1⟩

/-- Settles O10: which words are refused by `firstWordDecodes`; the reserved operations by their rows. -/
theorem decoderRefusesExactlyReservedBits : Obligations.DecoderRefusesExactlyReservedBits := by
  intro w rest
  refine ⟨(firstWordDecodes w rest).illegal_iff, fun h => ?_, fun h => ?_, fun h => ?_, fun h => ?_⟩
  all_goals
    rw [← operandField_eq]
    exact decodeRequest_op h rest

/-- Settles O9: of the two kinds of request, the one with data has a length word. -/
theorem requestLengthFollowsTheFirstWord : Obligations.RequestLengthFollowsTheFirstWord := by
  intro w ws i n h
  cases firstWordDecodes_of_decode h with
  | single i hr hd he => exact (if_neg fun ⟨hop, hbit⟩ => hd ⟨hop, hr, hbit⟩).symm
  | withData len vs hd hrest hws =>
    subst hrest
    exact (if_pos ⟨hd.1, hd.2.2⟩).symm

theorem length_commandData_le (len : Nat) (ws : List Word) : (commandData len ws).length ≤ len :=
  List.length_take_le _ _

/-- An instruction of one word is well formed: it is no COMMAND with data. -/
theorem ne_commandData_of_encode {i : Instr} {w : Word} (h : encode i = .req [w]) (opcode : Byte)
    (d : List Byte) : i ≠ .command opcode (some d) := by
  rintro rfl
  cases h

theorem wellFormed_of_ne_commandData {i : Instr} (h : ∀ opcode d, i ≠ .command opcode (some d)) :
    i.WellFormed := by
  cases i with
  | command opcode data =>
    cases data with
    | none => trivial
    | some d => exact absurd rfl (h opcode d)
  | _ => trivial

/-- Settles O7: a request of one word is encoded as that word, and COMMAND's data is as long as a word says. -/
theorem encodeInvertsDecode : Obligations.EncodeInvertsDecode := by
  intro ws i n h
  cases ws with
  | nil => cases h
  | cons w rest =>
    cases firstWordDecodes_of_decode h with
    | single i hr hd he =>
      exact ⟨wellFormed_of_ne_commandData (ne_commandData_of_encode he), Nat.le_add_left 1 _, fun _ => he⟩
    | withData len vs hd hrest hws =>
      refine ⟨Nat.lt_of_le_of_lt (length_commandData_le _ _) len.isLt, ?_, fun hne => absurd rfl (hne _ _)⟩
      rw [hrest, List.length_cons, List.length_cons]
      omega

/-! ## COMMAND's data bytes -/

theorem length_commandData {len : Nat} {ws : List Word} (h : dataWords len ≤ ws.length) :
    (commandData len ws).length = len := by
  unfold commandData
  rw [List.length_take, unpackWords_length, List.length_take, Nat.min_eq_left h]
  unfold dataWords
  omega

/-- Byte `k` of the data is byte `k mod 4` of data word `k / 4` (R73). -/
theorem commandData_getElem? {len : Nat} {ws : List Word} (h : dataWords len ≤ ws.length) {k : Nat}
    (hk : k < len) : (commandData len ws)[k]? =
      some (BitVec.ofNat 8 ((ws.getD (k / 4) 0).toNat / 2 ^ (8 * (k % 4)))) := by
  have hword : k / 4 < dataWords len := by unfold dataWords; omega
  have hbyte : k < 4 * (ws.take (dataWords len)).length := by
    rw [List.length_take, Nat.min_eq_left h]
    omega
  unfold commandData
  rw [List.getElem?_take_of_lt hk, unpackWords_getElem? _ _ hbyte, wordByte_eq, List.getD_eq_getElem?_getD,
    List.getElem?_take_of_lt hword, List.getD_eq_getElem?_getD]

/-- Settles O8: COMMAND's row read forward, and `firstWordDecodes` for the converse. -/
theorem commandDataBytesComeFromTheWords : Obligations.CommandDataBytesComeFromTheWords := by
  intro w ws
  refine ⟨fun hop hr => ?_, fun op d n h => ?_⟩
  · have hrow : decode (.req (w :: ws)) = decodeCommand w ws := decodeRequest_command hop
      (Nat.lt_of_not_le fun hx => hr ((reservedBitSet_iff_of_command hop).2 hx)) ws
    rw [hrow, ← lowByte_eq]
    refine ⟨fun hbit => decodeCommand_noData (getLsbD_eq_of_toNat hbit) ws, fun len vs hws hbit hvs => ?_⟩
    subst hws
    exact ⟨commandData len.toNat vs, decodeCommand_data (getLsbD_eq_of_toNat hbit) hvs, length_commandData hvs,
      fun k hk => commandData_getElem? hvs hk⟩
  · cases firstWordDecodes_of_decode h with
    | single i hr hd he => exact absurd rfl (ne_commandData_of_encode he op d)
    | withData len vs hd hrest hws => exact ⟨hd.1, hd.2.1, hd.2.2, len, vs, hrest, hws⟩

/-- Settles O5: the words are decoded. -/
theorem writtenWordsDecode : Obligations.WrittenWordsDecode := by
  unfold Obligations.WrittenWordsDecode
  decide

end Sys2Proof
end

section
/-! SUPPORT. Requests at the port: the offered request runs, the reserved operations raise their fault, COMMAND
sends its frame, and a request that does not hang ends with its one response. -/

namespace Sys2Proof.Machine

/-! ## The port and the reserved operations -/

/-- Settles O11: by `step_offer`. -/
theorem readyBlockRunsTheOfferedRequest : Obligations.ReadyBlockRunsTheOfferedRequest := by
  intro s w acts i n hb hh hd
  rw [step_offer hb hh, offeredRequest, hd]
  rfl

/-- An illegal request's next state, with the numbers of R220. -/
theorem raiseIllegal_eq (s : State) :
    raiseIllegal s = { s with
      busy := false, phase := .idle, fault := if s.fault = 0 then 5 else s.fault,
      trace := s.trace ++ [.resp 5] } := raise_eq codeIllegalReq s

/-- Settles O17: each of the four rows is `raiseIllegal`. -/
theorem reservedOperationsRaiseIllegalRequest : Obligations.ReservedOperationsRaiseIllegalRequest := by
  intro x i hi s
  rw [← raiseIllegal_eq]
  rcases hi with rfl | rfl | rfl | rfl <;> rfl

/-! ## COMMAND -/

/-- A COMMAND past its checks whose bytes are all accepted in time (R104). -/
theorem execCommand_progress {s : State} (ho : Operational s) (hb : BusProgress s) (op : Byte)
    (data : Option (List Byte)) :
    execCommand op data s = .next (endCommand (afterFrame op data (commandStart data s))) := by
  rw [execCommand_pass ho, frame_inTime (s := commandStart data s) (inTimeUpTo_of_progress hb _), Sent.done_settle]

/-- Settles O21: the frame goes through, and its latches are released. -/
theorem commandSendsOneFrame : Obligations.CommandSendsOneFrame := by
  intro s op data ho hb
  refine ⟨Config.freeOpR s.draws, Config.freeDataR (s.draws + 1), Config.freeIdx s.draws, s.draws + 2, ?_⟩
  show execCommand op data s = _
  rw [execCommand_progress ho hb, endCommand_eq]
  cases data <;> simp [afterFrame, frameEvents, dataEvents, dcAfter]

/-! ## The response -/

/-- A request's end: the port is ready, and of the events it appended the last one alone is a response. -/
def EndsWithResponse (s t : State) : Prop :=
  t.busy = false ∧ t.phase = .idle ∧ ∃ es w, t.trace = s.trace ++ es ++ [.resp w] ∧ ∀ r, Event.resp r ∉ es

theorem resp_not_mem_frameEvents (r : Word) (op : Byte) (src : DataSource) : Event.resp r ∉ frameEvents op src :=
  fun h => by rcases ofFrame_frameEvents h with ⟨_, h⟩ | ⟨_, h⟩ | ⟨_, h⟩ <;> cases h

theorem resp_not_mem_eventsBefore (r : Word) (k : Nat) (op : Byte) (src : DataSource) :
    Event.resp r ∉ eventsBefore k op src :=
  fun h => by rcases ofFrame_eventsBefore h with ⟨_, h⟩ | ⟨_, h⟩ | ⟨_, h⟩ <;> cases h

theorem resp_not_mem_entryEvents (r : Word) (o : Opc) (es : List RomEntry) : Event.resp r ∉ entryEvents o es :=
  fun h => by rcases mem_entryEvents h with (⟨_, h⟩ | ⟨_, h⟩ | ⟨_, h⟩) | ⟨_, h⟩ <;> cases h

theorem resp_not_mem_setupTrace (r : Word) (c : Cfg) (v : Level) : Event.resp r ∉ setupTrace c v :=
  fun h => (mem_setupTrace h).2.1 r rfl

/-- Where the bus makes progress no byte is late (R58). -/
theorem not_lateAt_of_progress {s : State} (h : BusProgress s) (k : Nat) : ¬ LateAt k s := fun hl =>
  absurd (inTimeUpTo_of_progress h (k + 1) k (Nat.lt_succ_self k)) (by rw [hl]; nofun)

/-- A request hangs only where a byte is late and there is no time limit (R58, R226). -/
theorem not_hang {s : State} (h : BusProgress s ∨ s.cfg.timeoutMs.isSome = true) {k : Nat} (hl : LateAt k s)
    (ht : s.cfg.timeoutMs = none) : False := by
  rcases h with hb | hlim
  · exact not_lateAt_of_progress hb k hl
  · rw [ht] at hlim; cases hlim

/-- A request that does not hang ends with its one response. -/
theorem ran_endsWithResponse {i : Instr} {s t : State} (h : Ran i s t) (hreq : IsRequest i)
    (hbus : BusProgress s ∨ s.cfg.timeoutMs.isSome = true) : EndsWithResponse s t := by
  cases h with
  | answered w hi h => subst h; exact ⟨rfl, rfl, [], w, by simp, by simp⟩
  | raised c hc hi h => subst h; exact ⟨rfl, rfl, [], statusWord c, by simp, by simp⟩
  | lit b hi ho h => subst h; exact ⟨rfl, rfl, [.pwmLevel (duty b)], 0, by simp, by simp⟩
  | setUp v n hi h0 h =>
    subst h; exact ⟨rfl, rfl, _, _, rfl, fun r => resp_not_mem_setupTrace r _ _⟩
  | sequenced v pc o x n hi h0 h =>
    subst h
    refine ⟨rfl, rfl, setupTrace s.cfg v ++ entryEvents s.cfg.opc (initRom s.cfg), 0, by simp, fun r => ?_⟩
    simp [resp_not_mem_setupTrace, resp_not_mem_entryEvents]
  | gaveUpInit pre post e k v pc o x n hi h0 ht hp hk hl h =>
    subst h
    refine ⟨rfl, rfl, setupTrace s.cfg v ++ entryEvents s.cfg.opc pre ++
      eventsBefore k (opcByte s.cfg.opc e.slot) e.params ++ [.cs .hi], 6, by simp, fun r => ?_⟩
    simp [resp_not_mem_setupTrace, resp_not_mem_entryEvents, resp_not_mem_eventsBefore]
  | completed op src m f r o d x n hf hi h =>
    subst h; exact ⟨rfl, rfl, _, _, rfl, fun r => resp_not_mem_frameEvents r _ _⟩
  | gaveUp op src m f r k pc o d x n hf ht hk hl h =>
    subst h
    refine ⟨rfl, rfl, eventsBefore k op src ++ [.cs .hi], 6, by simp, fun r => ?_⟩
    simp [resp_not_mem_eventsBefore]
  | stuckInit pre post e k v pc o x n hi h0 ht hp hk hl h => exact (not_hang hbus hl ht).elim
  | stuck op src m f r k d x n hf ht hk hl h => exact (not_hang hbus hl ht).elim
  | transferred op src m f r x n hf hi h => exact absurd (hi ▸ hreq) not_isRequest_ramwr
  | stepped e k he hi h => exact absurd (hi ▸ hreq) (not_isRequest_ofSlot _)

/-- Settles O47: by the ways an instruction can run. -/
theorem requestEndsWithOneResponse : Obligations.RequestEndsWithOneResponse :=
  fun _ _ _ hreq hbus h => ran_endsWithResponse (exec_ran h) hreq hbus

end Sys2Proof.Machine
end

section
/-! SUPPORT. The framing rule and the chip select through instructions and steps: an instruction that begins
outside every frame ends outside every frame with CS high, or hangs inside its own frame (spec/40_bus_transport.md
R100 to R102). -/

namespace Sys2Proof.Machine

/-! ## Events that begin outside every frame -/

/-- From events that end outside every frame the scan begins anew. -/
theorem scanFrom_append_outside {es fs : List Event} {p : Option FramePos}
    (hes : scanFrom .outside es = some .outside) (hfs : scanFrom .outside fs = p) :
    scanFrom .outside (es ++ fs) = p := by
  rw [scanFrom_append, hes, Option.bind_some, hfs]

theorem scanFrom_delayEvents (ms : Nat) : scanFrom .outside (delayEvents ms) = some .outside :=
  scanFrom_outside fun e he => by rw [(mem_delayEvents he).2]; rfl

/-- A hang has begun a frame by the rule (R58). -/
theorem isSome_scanFrom_stuck {es : List Event} (hes : scanFrom .outside es = some .outside) (k : Nat) (op : Byte)
    (src : DataSource) : (scanFrom .outside (es ++ eventsBefore k op src)).isSome = true := by
  obtain ⟨p, hp, -⟩ := scanFrom_eventsBefore k op src
  rw [scanFrom_append_outside hes hp, Option.isSome_some]

/-- A frame that is given up is closed before the response (R226). -/
theorem scanFrom_gaveUp {es : List Event} (hes : scanFrom .outside es = some .outside) (k : Nat) (op : Byte)
    (src : DataSource) (w : Word) :
    scanFrom .outside (es ++ eventsBefore k op src ++ [.cs .hi, .resp w]) = some .outside := by
  obtain ⟨p, hp, hclose⟩ := scanFrom_eventsBefore k op src
  rw [scanFrom_append, scanFrom_append_outside hes hp, Option.bind_some, scanFrom_cons, hclose]
  rfl

/-! ## The framing rule -/

/-- An instruction that begins outside every frame ends there, or hangs inside its own frame. -/
theorem ran_framingInv {i : Instr} {s t : State} (h : Ran i s t) (hb : s.busy = true)
    (hd : s.ramwrDue = false ∨ i = .ramwr) (hout : scanFrom .outside s.trace = some .outside) :
    FramingInv t := by
  have hsetup (v : Level) : scanFrom .outside (s.trace ++ setupTrace s.cfg v) = some .outside :=
    scanFrom_append_outside hout (scanFrom_setupTrace _ _)
  have hseq (v : Level) (es : List RomEntry) :
      scanFrom .outside (s.trace ++ setupTrace s.cfg v ++ entryEvents s.cfg.opc es) = some .outside :=
    scanFrom_append_outside (hsetup v) (scanFrom_entryEvents _ _)
  have hframe (op : Byte) (src : DataSource) :
      scanFrom .outside (s.trace ++ frameEvents op src) = some .outside :=
    scanFrom_append_outside hout (scanFrom_frameEvents _ _)
  cases h with
  | answered w hi h | raised c hc hi h | lit b hi ho h =>
    subst h; exact Or.inl (scanFrom_append_outside hout rfl)
  | setUp v n hi h0 h => subst h; exact Or.inl (scanFrom_append_outside (hsetup v) rfl)
  | sequenced v pc o x n hi h0 h => subst h; exact Or.inl (scanFrom_append_outside (hseq v _) rfl)
  | stuckInit pre post e k v pc o x n hi h0 ht hp hk hl h =>
    subst h hi
    exact Or.inr ⟨⟨hb, rfl, hd.resolve_right nofun⟩, isSome_scanFrom_stuck (hseq v pre) k _ _⟩
  | gaveUpInit pre post e k v pc o x n hi h0 ht hp hk hl h =>
    subst h; exact Or.inl (scanFrom_gaveUp (hseq v pre) k _ _ 6)
  | completed op src m f r o d x n hf hi h =>
    subst h; exact Or.inl (scanFrom_append_outside (hframe op src) rfl)
  | transferred op src m f r x n hf hi h => subst h; exact Or.inl (hframe op src)
  | stepped e k he hi h =>
    subst h
    exact Or.inl (scanFrom_append_outside hout
      (scanFrom_append_outside (scanFrom_frameEvents _ _) (scanFrom_delayEvents _)))
  | stuck op src m f r k d x n hf ht hk hl h =>
    subst h; exact Or.inr ⟨⟨hb, rfl, hf.due_eq_false hd⟩, isSome_scanFrom_stuck hout k op src⟩
  | gaveUp op src m f r k pc o d x n hf ht hk hl h =>
    subst h; exact Or.inl (scanFrom_gaveUp hout k op src 6)

/-- Settles O54: a hang stays, and every other step begins outside every frame. -/
theorem stepKeepsFraming : Obligations.StepKeepsFraming := by
  intro s t hp hfr h
  by_cases hh : Hung s
  · rw [step_hung hh] at h; cases h; exact hfr
  have hout : scanFrom .outside s.trace = some .outside := hfr.resolve_right fun hopen => hh hopen.1
  cases step_inv h with
  | stays h => exact h ▸ hfr
  | stored a b acts hb hst h => subst h; exact Or.inl hout
  | requested i n hb hdec he =>
    exact ran_framingInv (s := acceptRequest n s) (exec_ran he) rfl (Or.inl (hp.1 hb).2) hout
  | illegal hb h => subst h; exact Or.inl (scanFrom_append_outside hout rfl)
  | sequenced e hb hph hr he =>
    exact ran_framingInv (exec_ran he) hb (Or.inl (due_eq_false_of_phase hp hb (seq_or_delay_ne_frame hph))) hout
  | finished hb hph hr h => subst h; exact Or.inl (scanFrom_append_outside hout rfl)
  | transferred hb hph hr he => exact ran_framingInv (exec_ran he) hb (Or.inr rfl) hout
  | responded hb hph h => subst h; exact Or.inl (scanFrom_append_outside hout rfl)

/-! ## The chip select -/

/-- With the port ready CS is to be high only once the block is initialised. -/
theorem chipSelectInv_ready {t : State} (hb : t.busy = false) (hcs : t.initDone = true → t.csLine = .at .hi) :
    ChipSelectInv t :=
  fun h _ => hcs (h.resolve_right fun hb' => absurd (hb.symm.trans hb') nofun)

/-- An instruction that sends no frame and sets up no line leaves CS high if it was; every other one leaves it
high, or hangs. -/
theorem ran_chipSelectInv {i : Instr} {s t : State} (h : Ran i s t) (hb : s.busy = true)
    (hd : s.ramwrDue = false ∨ i = .ramwr) (hcs : s.initDone = true → s.csLine = .at .hi) :
    ChipSelectInv t := by
  cases h with
  | answered w hi h | raised c hc hi h | lit b hi ho h => subst h; exact chipSelectInv_ready rfl hcs
  | setUp v n hi h0 h | sequenced v pc o x n hi h0 h
  | gaveUpInit pre post e k v pc o x n hi h0 ht hp hk hl h | completed op src m f r o d x n hf hi h
  | transferred op src m f r x n hf hi h | stepped e k he hi h
  | gaveUp op src m f r k pc o d x n hf ht hk hl h => subst h; exact fun _ _ => rfl
  | stuckInit pre post e k v pc o x n hi h0 ht hp hk hl h =>
    subst h hi; exact fun _ hn => absurd ⟨hb, rfl, hd.resolve_right nofun⟩ hn
  | stuck op src m f r k d x n hf ht hk hl h =>
    subst h; exact fun _ hn => absurd ⟨hb, rfl, hf.due_eq_false hd⟩ hn

/-- Settles O56: a hang stays, and every other step begins with CS high, if the block is initialised or busy. -/
theorem stepKeepsChipSelectDeasserted : Obligations.StepKeepsChipSelectDeasserted := by
  intro s t hp hinv h
  by_cases hh : Hung s
  · rw [step_hung hh] at h; cases h; exact hinv
  have hdone (hi : s.initDone = true) : s.csLine = .at .hi := hinv (Or.inl hi) hh
  cases step_inv h with
  | stays h => exact h ▸ hinv
  | stored a b acts hb hst h => subst h; exact chipSelectInv_ready hb hdone
  | requested i n hb hdec he =>
    exact ran_chipSelectInv (s := acceptRequest n s) (exec_ran he) rfl (Or.inl (hp.1 hb).2) hdone
  | illegal hb h => subst h; exact chipSelectInv_ready rfl hdone
  | sequenced e hb hph hr he =>
    exact ran_chipSelectInv (exec_ran he) hb
      (Or.inl (due_eq_false_of_phase hp hb (seq_or_delay_ne_frame hph))) hdone
  | finished hb hph hr h => subst h; exact fun _ _ => hinv (Or.inr hb) hh
  | transferred hb hph hr he => exact ran_chipSelectInv (exec_ran he) hb (Or.inr rfl) hdone
  | responded hb hph h => subst h; exact chipSelectInv_ready rfl hdone

end Sys2Proof.Machine
end

section
/-! SUPPORT. The init sequencer where the bus accepts every byte: its panel commands, INIT with and without the
sequence, and the totals of the sequence; then INIT as its steps, whatever the bus does; and who emits a delay
(spec/41_init_sequencer.md R120 to R150). -/

namespace Sys2Proof.Machine

/-! ## The panel commands of the ROM -/

/-- The command of a ROM entry sends that entry's frame and waits its delay (R124). -/
theorem sendsPanelCommand_ofSlot (k : Nat) {sl : Slot} {src : State → DataSource} {ms : Nat}
    (hrom : ∀ s : State, (initRom s.cfg)[k]? = some ⟨sl, src s, ms⟩) :
    SendsPanelCommand (.ofSlot sl) (fun s => opcByte s.cfg.opc sl) src ms := by
  intro s hb
  rw [exec_ofSlot (hrom s) s rfl]
  dsimp only
  rw [panelStep_inTime ms (inTimeUpTo_of_progress hb _), afterSeqStep, ← List.append_assoc]
  cases src s <;> rfl

/-- Settles O33: the entries 0, 1, 11, 18 and 19 of the ROM. -/
theorem commandsWithoutParameters : Obligations.CommandsWithoutParameters :=
  ⟨sendsPanelCommand_ofSlot 0 (sl := .swreset) fun _ => rfl,
   sendsPanelCommand_ofSlot 1 (sl := .slpout) fun _ => rfl,
   sendsPanelCommand_ofSlot 11 (sl := .invon) fun _ => rfl,
   sendsPanelCommand_ofSlot 18 (sl := .noron) fun _ => rfl,
   sendsPanelCommand_ofSlot 19 (sl := .dispon) fun _ => rfl⟩

/-- Settles O34: the entries 2 to 10, 12 and 13 of the ROM. -/
theorem commandsWithFixedParameters : Obligations.CommandsWithFixedParameters :=
  ⟨sendsPanelCommand_ofSlot 2 (sl := .frmctr1) fun _ => rfl,
   sendsPanelCommand_ofSlot 3 (sl := .frmctr2) fun _ => rfl,
   sendsPanelCommand_ofSlot 4 (sl := .frmctr3) fun _ => rfl,
   sendsPanelCommand_ofSlot 5 (sl := .invctr) fun _ => rfl,
   sendsPanelCommand_ofSlot 6 (sl := .pwrctlA) fun _ => rfl,
   sendsPanelCommand_ofSlot 7 (sl := .pwrctlB) fun _ => rfl,
   sendsPanelCommand_ofSlot 8 (sl := .pwrctlC) fun _ => rfl,
   sendsPanelCommand_ofSlot 9 (sl := .pwrctlD) fun _ => rfl,
   sendsPanelCommand_ofSlot 10 (sl := .vmctr1) fun _ => rfl,
   sendsPanelCommand_ofSlot 12 (sl := .madctl) fun _ => rfl,
   sendsPanelCommand_ofSlot 13 (sl := .colmod) fun _ => rfl⟩

/-- Settles O35: the entries 14 to 17 of the ROM. -/
theorem windowAndGammaCommands : Obligations.WindowAndGammaCommands :=
  ⟨sendsPanelCommand_ofSlot 14 (sl := .caset) fun _ => rfl,
   sendsPanelCommand_ofSlot 15 (sl := .raset) fun _ => rfl,
   sendsPanelCommand_ofSlot 16 (sl := .gmctrp1) fun _ => rfl,
   sendsPanelCommand_ofSlot 17 (sl := .gmctrn1) fun _ => rfl⟩

/-! ## INIT as one request -/

/-- Settles O27: setup as `setup_eq` says it, at the level drawn for the DC pin, and the response. -/
theorem initWithoutSequenceOnlySetsUp : Obligations.InitWithoutSequenceOnlySetsUp := by
  intro s h
  refine ⟨Config.freeLevel s.draws, s.draws + 1, ?_⟩
  show execInit false s = _
  rw [execInit_pass h, ← setupTrace_eq_setupEvents, ← ite_pinPresent, ← ite_pinPresent]
  show Host.Outcome.next (respond 0 { setup { s with phase := .setup } with initDone := true }) = _
  rw [setup_eq]
  rfl

/-- INIT with its sequence where every byte is accepted in time: the whole ROM goes through (R120). -/
theorem execInit_progress {s : State} (h : s.fault = 0) (hb : BusProgress s) :
    execInit true s = .next (finishInit (afterEntries (initRom s.cfg) (startSequence s))) := by
  rcases execInit_sequence h with ⟨-, hr⟩ | ⟨pre, e, post, k, -, -, -, hl, -⟩
  · exact hr
  · exact absurd hl (not_lateAt_of_progress hb _)

/-- Settles O28: setup, then the entries of the ROM, the last of which leaves CS high and DC low. -/
theorem initRunsTheWholeSequence : Obligations.InitRunsTheWholeSequence := by
  intro s h hb
  obtain ⟨o, x, ph, hrom⟩ := afterEntries_eq (initRom s.cfg) (startSequence s)
  have hrun := execInit_progress h hb
  rw [hrom, finishInit_eq, startSequence_eq] at hrun
  simp only [← setupTrace_eq_setupEvents, ← entryEvents_initRom, ← entryLength_initRom, ← ite_pinPresent]
  exact ⟨Config.freeLevel s.draws, _, _, _, _, hrun⟩

/-- What matters of that run to a later INIT: the events, the same configuration, no fault, and the bytes the
bus has answered. -/
theorem execInit_appends {s : State} (h : s.fault = 0) (hb : BusProgress s) :
    ∃ t v, exec (.init true) s = .next t ∧
      t.trace = s.trace ++ setupEvents s.cfg v ++ (sequenceEvents s.cfg ++ [.resp 0]) ∧
      t.cfg = s.cfg ∧ t.fault = 0 ∧ t.initDone = true ∧ t.bus = s.bus.skip (sequenceLength s.cfg) := by
  obtain ⟨v, pc, o, x, n, hrun⟩ := initRunsTheWholeSequence s h hb
  exact ⟨_, v, hrun, List.append_assoc _ _ _, rfl, h, rfl, rfl⟩

/-- Settles O29: the first INIT leaves no fault and a bus that goes on accepting, so the second runs as the
first did. -/
theorem secondInitRepeatsTheFirst : Obligations.SecondInitRepeatsTheFirst := by
  intro s h hb
  obtain ⟨t, v1, hfirst, htrace1, hcfg, hfault, hdone1, hbus⟩ := execInit_appends h hb
  obtain ⟨u, v2, hsecond, htrace2, -, -, hdone2, -⟩ := execInit_appends hfault (busProgress_skip _ hb hbus hcfg)
  rw [hcfg] at htrace2
  exact ⟨t, u, v1, v2, _, hfirst, hsecond, htrace1, htrace2, hdone1, hdone2⟩

/-! ## INIT as its steps -/

/-- Steps lead from `s` to `t`: `n` of them, or, where a time limit lets a late byte end the work early, fewer
(R226). -/
def StepsTo (n : Nat) (s t : State) : Prop :=
  ∃ m, m ≤ n ∧ (s.cfg.timeoutMs = none → m = n) ∧ Host.Outcome.next t = stepTimes m s

theorem stepsTo_one {s t : State} (h : step s = .next t) : StepsTo 1 s t :=
  ⟨1, Nat.le_refl 1, fun _ => rfl, (stepTimes_next 0 h).symm⟩

theorem StepsTo.of_step {n : Nat} {s t u : State} (h : step s = .next t) (hc : t.cfg = s.cfg)
    (ht : StepsTo n t u) : StepsTo (n + 1) s u := by
  obtain ⟨m, hle, hlim, hm⟩ := ht
  rw [hc] at hlim
  exact ⟨m + 1, Nat.succ_le_succ hle, fun h0 => congrArg (· + 1) (hlim h0), by rw [stepTimes_next m h, hm]⟩

/-- Where a step of the sequence stalls, INIT stalls the same way: it hangs for as many steps as there are, or
that step was its last (R58, R226). -/
theorem stepsTo_of_stall (n : Nat) {s t : State} (hh : Hung t) (hc : t.cfg = s.cfg)
    (h : step s = .next ((stall t).settle id abortInit)) :
    StepsTo (n + 1) s ((stall t).settle finishInit abortInit) := by
  rw [stall_settle] at h ⊢
  by_cases ht : t.cfg.timeoutMs.isNone = true
  · rw [if_pos ht] at h ⊢
    exact ⟨n + 1, Nat.le_refl _, fun _ => rfl, by rw [stepTimes_next n h, stepTimes_hung hh]⟩
  · rw [if_neg ht] at h ⊢
    refine ⟨1, by omega, fun h0 => ?_, (stepTimes_next 0 h).symm⟩
    rw [hc, h0] at ht
    exact absurd rfl ht

/-- The rest of INIT's sequence is its steps: one for each entry left and one for the end (R120). -/
theorem runSequence_stepsTo (n : Nat) (s : State) (hb : s.busy = true) (hd : s.ramwrDue = false)
    (hp : s.phase = .seq ∨ s.phase = .delay) (hn : s.seqPc.toNat + n = stepCount) :
    StepsTo (n + 1) s ((runSequence n s).settle finishInit abortInit) := by
  induction n generalizing s with
  | zero =>
    apply stepsTo_one
    rw [step_in_sequence hb hp, stepSequence_end (initRom_getElem?_eq_none s.cfg hn.ge)]
    rfl
  | succ n ih =>
    have hlt : s.seqPc.toNat < (initRom s.cfg).length := by rw [initRom_length]; omega
    have hrom : romEntry s = some (initRom s.cfg)[s.seqPc.toNat] := List.getElem?_eq_getElem hlt
    generalize (initRom s.cfg)[s.seqPc.toNat] = e at hrom
    have hstep : step s = .next ((seqStep (opcByte s.cfg.opc e.slot) e.params e.delayMs s).settle id abortInit) := by
      rw [step_in_sequence hb hp, stepSequence_entry hrom, panelStep]
    have hrun : runSequence (n + 1) s =
        (seqStep (opcByte s.cfg.opc e.slot) e.params e.delayMs s).andThen (runSequence n) := by
      rw [runSequence, hrom]
    rcases seqStep_cases (opcByte s.cfg.opc e.slot) e.params e.delayMs s with hs | ⟨k, -, -, -, hs⟩
    · rw [hs, Sent.done_settle] at hstep
      rw [hrun, hs, Sent.done_andThen]
      have hpc : (s.seqPc + 1).toNat + n = stepCount := by unfold stepCount at hn ⊢; bv_omega
      exact .of_step hstep rfl (ih _ hb hd (ite_eq_or_eq _ _ _) hpc)
    · rw [hs] at hstep
      rw [hrun, hs, stall_andThen]
      exact stepsTo_of_stall (n + 1) (hung_stalledFrame hb hd k _ _) rfl hstep

/-- Settles O30: the sequence from its start, with all twenty entries left. -/
theorem initIsItsStepsInOrder : Obligations.InitIsItsStepsInOrder := by
  intro s h hb hd
  obtain ⟨n, hle, hlim, hrun⟩ := runSequence_stepsTo stepCount (startSequence s)
    (by rw [startSequence_eq]; exact hb) (by rw [startSequence_eq]; exact hd) (Or.inl rfl) rfl
  rw [startSequence_cfg] at hlim
  exact ⟨n, hle, hlim, (execInit_pass h true).trans hrun⟩

/-! ## Delays -/

theorem delay_not_mem_frameEvents (ms : Nat) (op : Byte) (src : DataSource) :
    Event.delay ms ∉ frameEvents op src :=
  fun h => by rcases ofFrame_frameEvents h with ⟨_, h⟩ | ⟨_, h⟩ | ⟨_, h⟩ <;> cases h

theorem delay_not_mem_eventsBefore (ms k : Nat) (op : Byte) (src : DataSource) :
    Event.delay ms ∉ eventsBefore k op src :=
  fun h => by rcases ofFrame_eventsBefore h with ⟨_, h⟩ | ⟨_, h⟩ | ⟨_, h⟩ <;> cases h

theorem delay_not_mem_setupTrace (ms : Nat) (c : Cfg) (v : Level) : Event.delay ms ∉ setupTrace c v :=
  fun h => nomatch (mem_setupTrace h).1

/-- The four entries of the ROM with a settle time (R124). -/
theorem initRom_delay_cases (c : Cfg) : ∀ e ∈ initRom c, e.delayMs ≠ 0 →
    (e.slot = .swreset ∧ e.delayMs = 150) ∨ (e.slot = .slpout ∧ e.delayMs = 500) ∨
    (e.slot = .noron ∧ e.delayMs = 100) ∨ (e.slot = .dispon ∧ e.delayMs = 100) := by
  simp [initRom]

/-- The instructions that emit delays, each with its own (R120, R124). -/
def MayDelay (i : Instr) (ms : Nat) : Prop :=
  i = .init true ∨ (i = .swreset ∧ ms = 150) ∨ (i = .slpout ∧ ms = 500) ∨
    (i = .noron ∧ ms = 100) ∨ (i = .dispon ∧ ms = 100)

/-- A delay among the events an instruction appends is one it may emit. -/
theorem ran_delay {i : Instr} {s t : State} {es : List Event} {ms : Nat} (h : Ran i s t)
    (ht : t.trace = s.trace ++ es) (hms : Event.delay ms ∈ es) : MayDelay i ms := by
  cases h with
  | sequenced v pc o x n hi h0 h | stuckInit pre post e k v pc o x n hi h0 hlim hp hk hl h
  | gaveUpInit pre post e k v pc o x n hi h0 hlim hp hk hl h => exact Or.inl hi
  | stepped e k he hi h =>
    subst h hi
    obtain rfl := List.append_cancel_left ht
    have hdelay := (List.mem_append.1 hms).resolve_left (delay_not_mem_frameEvents ms _ _)
    obtain ⟨hne, heq⟩ := mem_delayEvents hdelay
    cases heq
    rcases initRom_delay_cases _ e (List.mem_of_getElem? he) hne with
      ⟨hsl, hd⟩ | ⟨hsl, hd⟩ | ⟨hsl, hd⟩ | ⟨hsl, hd⟩ <;> rw [hsl, hd] <;> simp [MayDelay, Instr.ofSlot]
  | answered w hi h | raised c hc hi h | lit b hi ho h | setUp v n hi h0 h
  | completed op src m f r o d x n hf hi h | transferred op src m f r x n hf hi h
  | stuck op src m f r k d x n hf hlim hk hl h | gaveUp op src m f r k pc o d x n hf hlim hk hl h =>
    subst h
    simp only [List.append_assoc, List.append_cancel_left_eq] at ht
    subst ht
    simp [delay_not_mem_setupTrace, delay_not_mem_frameEvents, delay_not_mem_eventsBefore] at hms

/-- Settles O51: by the ways an instruction can run. -/
theorem onlyInitAndItsCommandsDelay : Obligations.OnlyInitAndItsCommandsDelay :=
  fun _ _ _ _ _ h ht hms => ran_delay (exec_ran h) ht hms

/-! ## The totals of the sequence -/

theorem filterMap_delayMs_eq_nil {es : List Event} (h : ∀ ms, Event.delay ms ∉ es) :
    es.filterMap Event.delayMs = [] := by
  rw [List.filterMap_eq_nil_iff]
  intro e he
  cases e with
  | delay ms => exact absurd he (h ms)
  | _ => rfl

/-- The delays of some entries of the ROM: of each entry with a settle time its own, in order. -/
theorem filterMap_delayMs_entryEvents (o : Opc) (es : List RomEntry) :
    (entryEvents o es).filterMap Event.delayMs = (es.map RomEntry.delayMs).filter (· ≠ 0) := by
  induction es with
  | nil => rfl
  | cons e es ih =>
    unfold entryEvents at ih ⊢
    rw [List.flatMap_cons, List.filterMap_append, List.filterMap_append,
      filterMap_delayMs_eq_nil fun ms => delay_not_mem_frameEvents ms _ _, ih, List.map_cons, List.filter_cons]
    by_cases h : e.delayMs = 0 <;> simp [delayEvents, Event.delayMs, h]

/-- Each frame drives CS to each level once (R100). -/
theorem countP_cs_frameEvents (l : Level) (op : Byte) (src : DataSource) :
    (frameEvents op src).countP (fun e => e = .cs l) = 1 := by
  cases src <;> cases l <;> simp [frameEvents, dataEvents, List.countP_eq_zero]

theorem countP_cs_entryEvents (l : Level) (o : Opc) (es : List RomEntry) :
    (entryEvents o es).countP (fun e => e = .cs l) = es.length := by
  induction es with
  | nil => rfl
  | cons e es ih =>
    have hdelay : (delayEvents e.delayMs).countP (fun e => e = .cs l) = 0 :=
      List.countP_eq_zero.2 fun d hd => by rw [(mem_delayEvents hd).2]; simp
    unfold entryEvents at ih ⊢
    rw [List.flatMap_cons, List.countP_append, List.countP_append, countP_cs_frameEvents, hdelay, ih,
      List.length_cons]
    omega

/-- Nothing of setup is on the bus (R122, R41). -/
theorem countP_setupTrace {p : Event → Bool} (hp : ∀ e, p e = true → e.onBus = true) (c : Cfg) (v : Level) :
    (setupTrace c v).countP p = 0 :=
  List.countP_eq_zero.2 fun e he hpe => by
    have hoff := (mem_setupTrace he).1
    rw [hp e hpe] at hoff
    cases hoff

/-- The events INIT with its sequence appends (R120). -/
abbrev initEvents (c : Cfg) (v : Level) : List Event :=
  setupTrace c v ++ (entryEvents c.opc (initRom c) ++ [.resp 0])

theorem countP_cs_initEvents (l : Level) (c : Cfg) (v : Level) :
    (initEvents c v).countP (fun e => e = .cs l) = 20 := by
  rw [List.countP_append, List.countP_append, countP_setupTrace (by simp [Event.onBus]), countP_cs_entryEvents]
  rfl

theorem countP_tx_initEvents (c : Cfg) (v : Level) :
    (initEvents c v).countP Event.isTx = entryLength (initRom c) := by
  have htx : ∀ e : Event, e.isTx = true → e.onBus = true := by
    intro e he
    cases e with
    | tx b => rfl
    | _ => cases he
  rw [List.countP_append, List.countP_append, countP_setupTrace htx, countP_entryEvents, Nat.zero_add,
    List.countP_singleton]
  exact Nat.add_zero _

theorem filterMap_delayMs_initEvents (c : Cfg) (v : Level) :
    (initEvents c v).filterMap Event.delayMs = [150, 500, 100, 100] := by
  rw [List.filterMap_append, List.filterMap_append,
    filterMap_delayMs_eq_nil fun ms => delay_not_mem_setupTrace ms _ _, filterMap_delayMs_entryEvents]
  rfl

/-- The bytes of the sequence: the twenty opcodes and the parameter sets (R150). -/
theorem entryLength_initRom_eq (c : Cfg) :
    entryLength (initRom c) = 20 + (c.initParams.frmctr1.length + c.initParams.frmctr2.length +
      c.initParams.frmctr3.length + c.initParams.invctr.length + c.initParams.pwrctlA.length +
      c.initParams.pwrctlB.length + c.initParams.pwrctlC.length + c.initParams.pwrctlD.length +
      c.initParams.vmctr1.length + c.initParams.madctl.length + c.initParams.colmod.length +
      c.winC.length + c.winR.length + c.initParams.gmctrp1.length + c.initParams.gmctrn1.length) := by
  simp only [entryLength, initRom, frameLength, List.cons_append, List.nil_append, List.map_cons, List.map_nil,
    List.sum_cons, List.sum_nil]
  omega

/-- The windows reset computes have four bytes each (R25). -/
theorem window_lengths {s : State} (h : ConfigInv s) : s.cfg.winC.length = 4 ∧ s.cfg.winR.length = 4 := by
  rw [h.1]; exact ⟨rfl, rfl⟩

theorem bounds_of_eq_or_succ {n a : Nat} (h : n = a ∨ n = a + 1) : a ≤ n ∧ n ≤ a + 1 := by omega

/-- The sizes of R123 bound the bytes of the sequence (R150). -/
theorem entryLength_initRom_bounds {s : State} (hc : ConfigInv s) (hl : s.cfg.initParams.Legal) :
    20 + 64 ≤ entryLength (initRom s.cfg) ∧ entryLength (initRom s.cfg) ≤ 20 + 71 := by
  obtain ⟨hwinC, hwinR⟩ := window_lengths hc
  obtain ⟨hfrm1, hfrm2, hfrm3, hsome3, hsome6, hinv, hA, hB, hC, hD, hvm, hmad, hcol, hgamp, hgamn⟩ := hl
  replace hA := bounds_of_eq_or_succ hA
  replace hB := bounds_of_eq_or_succ hB
  replace hC := bounds_of_eq_or_succ hC
  replace hD := bounds_of_eq_or_succ hD
  rw [entryLength_initRom_eq]
  omega

theorem entryLength_initRom_reference {s : State} (hc : ConfigInv s) (hr : s.cfg.initParams = refInitParams) :
    entryLength (initRom s.cfg) = 20 + 65 := by
  obtain ⟨hwinC, hwinR⟩ := window_lengths hc
  rw [entryLength_initRom_eq, hwinC, hwinR, hr]
  rfl

/-- Settles O32: setup and the response are none of the events counted; what is left is the entries of the
ROM. -/
theorem sequenceTotals : Obligations.SequenceTotals := by
  intro s hc h hl hb
  obtain ⟨t, v, hinit, htrace, -⟩ := execInit_appends h hb
  rw [← setupTrace_eq_setupEvents, ← entryEvents_initRom, List.append_assoc] at htrace
  obtain ⟨hlow, hhigh⟩ := entryLength_initRom_bounds hc hl
  refine ⟨t, _, hinit, htrace, countP_cs_initEvents .lo s.cfg v, countP_cs_initEvents .hi s.cfg v, ?_, ?_,
    fun hr => ?_, filterMap_delayMs_initEvents s.cfg v⟩
  · rw [countP_tx_initEvents]; exact hlow
  · rw [countP_tx_initEvents]; exact hhigh
  · rw [countP_tx_initEvents, entryLength_initRom_reference hc hr]

end Sys2Proof.Machine
end

section
/-! SUPPORT. UPDATE and its write-memory command: the frame both send where no agent races, UPDATE as the steps it
is made of, and the size check that turns it away (spec/42_framebuffer_transfer.md). -/

namespace Sys2Proof.Machine

/-! ## The frame of a transfer no agent races with -/

/-- What `ramwrFrame_progress` leaves where no agent races: the frame's bytes are memory's, as many as the
configuration says, and memory is as it was (R57, R160). -/
theorem ramwrFrame_quiet {s : State} (hc : ConfigInv s) (h : s.fault = 0) (hb : BusProgress s)
    (hf : s.foreign = []) :
    ramwrFrame s = .done { s with
      phase := .frame, csLine := .at .hi, dcLine := .at .hi, ramwrDue := false,
      trace := s.trace ++ [.cs .lo, .dc .lo, .tx s.cfg.opc.ramwr, .dc .hi] ++
        (List.range (2 * (s.cfg.width.toNat * s.cfg.height.toNat))).map
          (fun j => .tx (s.mem.read (s.cfg.fbBase.toNat + j))) ++ [.cs .hi],
      bus := s.bus.skip (1 + 2 * (s.cfg.width.toNat * s.cfg.height.toNat)),
      opR := s.cfg.opc.ramwr, idx := BitVec.ofNat 32 (2 * (s.cfg.width.toNat * s.cfg.height.toNat)),
      draws := s.draws + s.cfg.nBytes } := by
  obtain ⟨-, -, hn⟩ := transfer_of_config hc h
  rw [ramwrFrame_progress hb, framebufferBytes_quiet hf, transferStart_quiet hf, ← hn]
  simp [afterFrame, frameEvents, dataEvents, frameLength, dcAfter, idxAfter]

/-- Settles O22: the frame of `ramwrFrame_quiet`, then the response, which frees the frame's latches. -/
theorem updateStreamsTheFramebuffer : Obligations.UpdateStreamsTheFramebuffer := by
  intro s b hc ho hb hf
  refine ⟨Config.freeOpR (s.draws + s.cfg.nBytes), Config.freeIdx (s.draws + s.cfg.nBytes),
    s.draws + s.cfg.nBytes + 1, false, ?_⟩
  show execUpdate b s = _
  rw [execUpdate_pass hc ho, ramwrFrame_quiet hc ho.1 hb hf, Sent.done_settle, endUpdate_eq]
  simp only [List.append_assoc, List.cons_append, List.nil_append]

/-- Settles O25: the same frame, with the latches still held and the response to come. -/
theorem writeMemoryCommandSendsTheFramebuffer : Obligations.WriteMemoryCommandSendsTheFramebuffer := by
  intro s hc h hb hf
  refine ⟨s.draws + s.cfg.nBytes, ?_⟩
  show execRamwr s = _
  rw [execRamwr_pass hc h, ramwrFrame_quiet hc h hb hf, Sent.done_settle]

/-! ## UPDATE as its steps -/

/-- Work that stalls never reaches what would have followed it. -/
theorem stall_settle_congr (s : State) (k k' a : State → State) :
    (stall s).settle k a = (stall s).settle k' a := by
  rw [stall_settle, stall_settle]

/-- From the state in which UPDATE's write-memory command is due, a step sends the frame UPDATE sends: the frame
reads neither the phase nor `ramwrDue`, both of which it sets (R160). -/
theorem step_transferDue {s : State} (hc : ConfigInv s) (h : s.fault = 0) (hb : s.busy = true) :
    step { s with phase := .frame, ramwrDue := true } =
      .next ((ramwrFrame s).settle (fun t => { t with phase := .resp }) abortTransport) :=
  (step_transfer (s := { s with phase := .frame, ramwrDue := true }) hb rfl rfl).trans (execRamwr_pass hc h)

/-- Settles O31: a frame that goes through leaves UPDATE's response for a second step; one that stalls is where
UPDATE stalls, and with no time limit the second step finds the block hung there. -/
theorem updateIsItsFrameThenItsResponse : Obligations.UpdateIsItsFrameThenItsResponse := by
  intro s b hc ho hb
  have hstep := step_transferDue hc ho.1 hb
  have hexec : exec (.update b) s = _ := execUpdate_pass hc ho b
  rcases ramwrFrame_cases s with hframe | ⟨k, -, -, hframe⟩
  · rw [hframe, Sent.done_settle] at hstep hexec
    have hresp := step_response (s := { afterFrame s.cfg.opc.ramwr (some (framebufferBytes s)) (transferStart s) with
      phase := .resp }) hb rfl
    refine ⟨2, Nat.le_refl 2, fun _ => rfl, ?_⟩
    rw [hexec, stepTimes_next 1 hstep, stepTimes_next 0 hresp]
    rfl
  · rw [hframe] at hstep hexec
    rw [stall_settle_congr _ _ endUpdate] at hstep
    cases ht : s.cfg.timeoutMs with
    | none =>
      rw [stall_settle_noLimit (by exact ht)] at hstep hexec
      have hhung := hung_stalledFrame (s := transferStart s) hb rfl k s.cfg.opc.ramwr (some (framebufferBytes s))
      refine ⟨2, Nat.le_refl 2, fun _ => rfl, ?_⟩
      rw [hexec, stepTimes_next 1 hstep, stepTimes_hung hhung]
    | some limit =>
      refine ⟨1, by omega, nofun, ?_⟩
      rw [hexec, stepTimes_next 0 hstep]
      rfl

/-! ## Operands and checks -/

/-- Past the gates a size mismatch ends UPDATE before its frame (R161). -/
theorem execUpdate_sizeMismatch {s : State} (h : Operational s) (hs : sizeMatches s.cfg = false) (b : Bool) :
    execUpdate b s = .next (raise codeConfigFb s) := by
  unfold execUpdate
  rw [initGate_pass h]
  simp [hs]

/-- Settles O20: `raise` stores the code, since an operational block holds none, and answers it. -/
theorem updateSizeMismatchRaisesConfigFault : Obligations.UpdateSizeMismatchRaisesConfigFault := by
  intro s b ho hne
  have hs : sizeMatches s.cfg = false := by simpa [sizeMatches] using hne
  show execUpdate b s = _
  rw [execUpdate_sizeMismatch ho hs, raise_eq, stickyFault_clear ho.1]
  rfl

/-- Settles O24: the meaning of UPDATE does not read its operand. -/
theorem dontBlockHasNoEffect : Obligations.DontBlockHasNoEffect := fun _ => rfl

end Sys2Proof.Machine
end

section
/-! SUPPORT. SET_BACKLIGHT past its gates, and the duty table: the curve it rounds and how it rises
(spec/43_backlight.md). -/

namespace Sys2Proof.Machine

/-! ## SET_BACKLIGHT past its gates -/

/-- With a backlight pin the level is written before the response (R180). -/
theorem execSetBacklight_present {s : State} (h : Operational s) (hp : pinPresent s.cfg.pinBl = true)
    (b : Byte) : execSetBacklight b s = .next (respond 0 (writePwmLevel (duty b) s)) := by
  unfold execSetBacklight
  rw [initGate_pass h]
  exact if_pos hp

/-- With no backlight pin only the response is left (R185). -/
theorem execSetBacklight_absent {s : State} (h : Operational s) (hp : pinPresent s.cfg.pinBl = false)
    (b : Byte) : execSetBacklight b s = .next (respond 0 s) := by
  unfold execSetBacklight
  rw [initGate_pass h]
  exact if_neg (Bool.eq_false_iff.1 hp)

/-- Settles O36: the level write and the response are two appends to the trace, here joined to one. -/
theorem setBacklightWritesTheDuty : Obligations.SetBacklightWritesTheDuty := by
  intro s b ho hp
  show execSetBacklight b s = _
  rw [execSetBacklight_present ho (pinPresent_of_ne hp), respond_eq, writePwmLevel_trace, List.append_assoc]
  rfl

/-- Settles O37: what is left past the gates is `respond`. -/
theorem setBacklightWithoutPinWritesNothing : Obligations.SetBacklightWithoutPinWritesNothing := by
  intro s b ho hp
  show execSetBacklight b s = _
  rw [execSetBacklight_absent ho (pinPresent_of_eq hp), respond_eq]

/-! ## The duty table -/

theorem dutyTable_length : dutyTable.length = 256 := by decide +kernel

theorem lt_dutyTable_length (b : Byte) : b.toNat < dutyTable.length := dutyTable_length ▸ b.isLt

/-- Every entry is a `u16` (R181's clamp). -/
theorem dutyTable_lt : ∀ d ∈ dutyTable, d < 2 ^ 16 := by decide +kernel

/-- A duty is its entry of the table, in range for every brightness (R182). -/
theorem duty_toNat (b : Byte) : (duty b).toNat = dutyTable[b.toNat]'(lt_dutyTable_length b) := by
  have hmem := List.getElem_mem (lt_dutyTable_length b)
  rw [duty, List.getD_eq_getElem _ _ (lt_dutyTable_length b), BitVec.toNat_ofNat,
    Nat.mod_eq_of_lt (dutyTable_lt _ hmem)]

/-! ## The curve -/

/-- `d` is `(b/255)^(14/5) × 65535` rounded half up, both bounds doubled and raised to the fifth power
(R181). -/
abbrev RoundsGamma (b d : Nat) : Prop :=
  (d = 0 ∨ (2 * d - 1) ^ 5 * 255 ^ 14 ≤ 2 ^ 5 * b ^ 14 * 65535 ^ 5) ∧
    2 ^ 5 * b ^ 14 * 65535 ^ 5 < (2 * d + 1) ^ 5 * 255 ^ 14

/-- The table and the formula agree at all 256 inputs (R182). -/
theorem dutyTable_roundsGamma : ∀ p ∈ dutyTable.zipIdx, RoundsGamma p.2 p.1 := by decide +kernel

/-- Settles O38: the entry of `b` stands in the table at the place `b`. -/
theorem dutyTableIsTheRoundedGammaCurve : Obligations.DutyTableIsTheRoundedGammaCurve := by
  intro b
  rw [duty_toNat]
  exact dutyTable_roundsGamma (_, b.toNat)
    (List.mk_mem_zipIdx_iff_getElem?.2 (List.getElem?_eq_getElem (lt_dutyTable_length b)))

/-! ## How it rises -/

/-- Neighbours decide it for all pairs: the order is transitive (R183). -/
theorem dutyTable_nondecreasing : dutyTable.Pairwise (· ≤ ·) :=
  List.isChain_iff_pairwise.1 (by decide +kernel)

theorem dutyTable_increasing_from_five : (dutyTable.drop 5).Pairwise (· < ·) :=
  List.isChain_iff_pairwise.1 (by decide +kernel)

theorem duty_le_duty {b c : Byte} (h : b < c) : duty b ≤ duty c := by
  rw [BitVec.le_def, duty_toNat, duty_toNat]
  exact List.pairwise_iff_getElem.1 dutyTable_nondecreasing _ _ _ _ h

/-- The entry of a brightness `b` from 5 upward stands at `b - 5` once the first five are dropped. -/
theorem duty_lt_duty {b c : Byte} (h5 : 5 ≤ b) (h : b < c) : duty b < duty c := by
  have hb5 : 5 ≤ b.toNat := h5
  have hbc : b.toNat < c.toNat := h
  have hc := lt_dutyTable_length c
  have hrise := List.pairwise_iff_getElem.1 dutyTable_increasing_from_five (b.toNat - 5) (c.toNat - 5)
    (by rw [List.length_drop]; omega) (by rw [List.length_drop]; omega) (by omega)
  simp only [List.getElem_drop, Nat.add_sub_cancel' hb5, Nat.add_sub_cancel' (hb5.trans hbc.le)] at hrise
  rw [BitVec.lt_def, duty_toNat, duty_toNat]
  exact hrise

/-- Settles O39: three entries of the table, and its two orders. -/
theorem dutyRisesFromZeroToFull : Obligations.DutyRisesFromZeroToFull :=
  ⟨rfl, rfl, rfl, fun _ _ => duty_le_duty, fun _ _ => duty_lt_duty⟩

end Sys2Proof.Machine
end

section
/-! SUPPORT. The accessors: the word of a row of R71 and its answer (spec/44_accessors.md). -/

namespace Sys2Proof.Machine

/-- An accessor whose work is `respond w` is the one its row's word asks for, and does no more (R200). -/
theorem accessorWord_answers (op : BitVec 4) {i : Instr} {w : Word} {s : State}
    (hrow : ∀ w rest, decodeOp op.toNat w rest = decodeAccessor i w)
    (hexec : exec i s = .next (respond w s)) :
    decode (.req [opWord op 0]) = .instr i 1 ∧
      exec i s = .next { s with busy := false, phase := .idle, trace := s.trace ++ [.resp w] } :=
  ⟨decodeRequest_accessorWord hrow [], by rw [hexec, respond_eq]⟩

/-- Settles O40: a row of R71 and one response for each accessor; all ones is the only word of −1. -/
theorem accessorsAnswerTheConfiguration : Obligations.AccessorsAnswerTheConfiguration := by
  intro s
  refine ⟨?getBus, ?getCs, ?getDc, ?getSck, ?getMosi, ?getMiso, ?getBl, ?getVsync, ?absentPin⟩
  case getBus => exact accessorWord_answers 0x8 (fun _ _ => rfl) rfl
  case getCs => exact accessorWord_answers 0x9 (fun _ _ => rfl) rfl
  case getDc => exact accessorWord_answers 0xA (fun _ _ => rfl) rfl
  case getSck => exact accessorWord_answers 0xB (fun _ _ => rfl) rfl
  case getMosi => exact accessorWord_answers 0xC (fun _ _ => rfl) rfl
  case getMiso => exact accessorWord_answers 0xD (fun _ _ => rfl) rfl
  case getBl => exact accessorWord_answers 0xE (fun _ _ => rfl) rfl
  case getVsync => exact accessorWord_answers 0xF (fun _ _ => rfl) rfl
  case absentPin => exact fun pin => (noPin_iff pin).1

end Sys2Proof.Machine
end

section
/-! SUPPORT. Faults at a request's end: the checks that turn a request away, the illegal word, and the late byte
that ends COMMAND, UPDATE or INIT where there is a time limit; then every step that stores a fault
(spec/60_exceptions.md R220 to R227). -/

namespace Sys2Proof.Machine

/-! ## The checks of R227 -/

/-- The requests that both gates check (R222, R225). -/
def NeedsInit (i : Instr) : Prop :=
  (∃ op d, i = .command op d) ∨ (∃ b, i = .update b) ∨ ∃ b, i = .setBacklight b

/-- Where the gates end such a request, that is all it does. -/
theorem exec_of_initGate_ended {i : Instr} (hi : NeedsInit i) {s t : State} (h : initGate s = .ended t) :
    exec i s = .next t := by
  rcases hi with ⟨op, d, rfl⟩ | ⟨b, rfl⟩ | ⟨b, rfl⟩
  · show execCommand op d s = .next t
    unfold execCommand; rw [h]
  · show execUpdate b s = .next t
    unfold execUpdate; rw [h]
  · show execSetBacklight b s = .next t
    unfold execSetBacklight; rw [h]

theorem execInit_faulted {s : State} (h : s.fault ≠ 0) (auto : Bool) :
    execInit auto s = .next (respond (statusWord s.fault) s) := by
  unfold execInit; rw [faultGate_ended h]

/-- Settles O18: INIT ends at its one gate, the others at the first of their two. -/
theorem faultedBlockAnswersStoredCode : Obligations.FaultedBlockAnswersStoredCode := by
  intro s i h hi
  have hexec : exec i s = .next (respond (statusWord s.fault) s) := by
    rcases hi with ⟨auto, rfl⟩ | hi
    · exact execInit_faulted h auto
    · exact exec_of_initGate_ended hi (initGate_faulted h)
  rw [hexec, respond_eq]
  rfl

/-- Settles O19: the second gate raises the code, and no fault is stored that would be kept. -/
theorem requestBeforeInitRaisesNotInit : Obligations.RequestBeforeInitRaisesNotInit := by
  intro s i h hinit hi
  rw [exec_of_initGate_ended hi (initGate_notInit h hinit), raise_eq, stickyFault_clear h]
  rfl

/-! ## The illegal word -/

/-- A reserved operation decodes to a row whose meaning is `raiseIllegal`, and takes one word (R77). -/
theorem decode_reservedOp {w : Word} (h : ReservedOp w) (rest : List Word) :
    ∃ i, decode (.req (w :: rest)) = .instr i 1 ∧ ∀ s, exec i s = .next (raiseIllegal s) := by
  obtain ⟨-, h0, h5, h6, h7⟩ := decoderRefusesExactlyReservedBits w rest
  rcases h with h | h | h | h
  · exact ⟨_, h0 h, fun _ => rfl⟩
  · exact ⟨_, h5 h, fun _ => rfl⟩
  · exact ⟨_, h6 h, fun _ => rfl⟩
  · exact ⟨_, h7 h, fun _ => rfl⟩

/-- Whether the decoder refuses the word or reads a reserved operation from it, the step is the same (R221). -/
theorem step_illegalWord {s : State} {w : Word} {acts : List HostAct} (hb : s.busy = false)
    (hh : s.host = .offer w :: acts) (hw : ReservedOp w ∨ ReservedBitSet w) :
    step s = .next (raiseIllegal (acceptRequest 1 s)) := by
  have hoffer : offeredRequest s = decode (.req (w :: offeredWords acts)) := by rw [offeredRequest, hh]; rfl
  rw [step_offer hb hh, hoffer]
  rcases hw with hop | hbit
  · obtain ⟨i, hd, hexec⟩ := decode_reservedOp hop (offeredWords acts)
    rw [hd]
    exact hexec _
  · obtain ⟨e, hd⟩ := (decoderRefusesExactlyReservedBits w (offeredWords acts)).1.2 hbit
    rw [hd]

/-- Settles O16: `step_illegalWord`, with the one word taken from the host's list. -/
theorem illegalWordRaisesIllegalRequest : Obligations.IllegalWordRaisesIllegalRequest := by
  intro s w acts hb hh hw
  rw [step_illegalWord hb hh hw, raiseIllegal_eq, acceptRequest, hh]
  rfl

/-! ## The late byte -/

/-- With a time limit work that stalls is given up, and the late byte's answer is used up (R226). -/
theorem stall_settle_limit {s : State} (h : s.cfg.timeoutMs.isSome = true) (k a : State → State) :
    (stall s).settle k a = a { s with bus := s.bus.skip 1 } := by
  obtain ⟨limit, hlimit⟩ := Option.isSome_iff_exists.1 h
  rw [stall_settle, hlimit]
  rfl

/-- A frame with a late byte `k`, and what gives it up (R226). -/
theorem frame_settle_late {s : State} (ht : s.cfg.timeoutMs.isSome = true) {op : Byte} {src : DataSource} {k : Nat}
    (hk : k < frameLength src) (hs : StallsAtByte k s) (done abort : State → State) :
    (frame op src s).settle done abort = abort { stalledFrame k op src s with bus := s.bus.skip (k + 1) } := by
  rw [frame_late hk hs.1 hs.2, stall_settle_limit (by exact ht), ← Bus.skip_skip]
  rfl

/-- E_TRANSPORT at byte `k` of a frame, on a block with no fault (R226). -/
theorem abortTransport_stalledFrame {s : State} (h : s.fault = 0) (k : Nat) (op : Byte) (src : DataSource) (b : Bus) :
    abortTransport { stalledFrame k op src s with bus := b } = { s with
      busy := false, phase := .idle, fault := 6, csLine := .at .hi,
      dcLine := if k = 0 then .at .lo else .at .hi,
      trace := s.trace ++ frameEventsBefore k op src ++ [.cs .hi, .resp 6],
      bus := b, opR := Config.freeOpR s.draws, idx := Config.freeIdx s.draws, draws := s.draws + 1 } := by
  have hfault : stickyFault s.fault codeTransport = 6 := stickyFault_clear h
  rw [abortTransport_eq, ← eventsBefore_eq, ← hfault]
  rfl

/-- A COMMAND past its checks whose byte `k` is late, its data latch free already: the frame does not read it. -/
theorem execCommand_late {s : State} (ho : Operational s) (ht : s.cfg.timeoutMs.isSome = true) {op : Byte}
    {data : Option (List Byte)} {k : Nat} (hk : k < frameLength data) (hs : StallsAtByte k s) :
    execCommand op data s = .next (abortTransport
      { stalledFrame k op data (releaseData (commandStart data s)) with bus := s.bus.skip (k + 1) }) := by
  rw [execCommand_pass ho, frame_settle_late (s := commandStart data s) ht hk hs]
  rfl

/-- Settles O42: the frame of `execCommand_late` is given up. -/
theorem lateByteRaisesTransportFault : Obligations.LateByteRaisesTransportFault := by
  intro s op data k ho ht hk hs
  have hrun := execCommand_late ho ht (op := op) hk hs
  rw [abortTransport_stalledFrame (s := releaseData (commandStart data s)) ho.1] at hrun
  exact ⟨_, _, _, _, hrun⟩

theorem execUpdate_late {s : State} (hc : ConfigInv s) (ho : Operational s) (ht : s.cfg.timeoutMs.isSome = true)
    (b : Bool) {k : Nat} (hk : k < 1 + s.cfg.nBytes) (hs : StallsAtByte k s) :
    execUpdate b s = .next (abortTransport
      { stalledFrame k s.cfg.opc.ramwr (some (framebufferBytes s)) (transferStart s) with
        bus := s.bus.skip (k + 1) }) := by
  have hk' : k < frameLength (some (framebufferBytes s)) := by simpa [frameLength] using hk
  rw [execUpdate_pass hc ho, ramwrFrame, frame_settle_late (s := transferStart s) ht hk' hs]
  rfl

/-- Settles O43: with no agent racing the bytes are memory's, and the frame is given up at its late byte. -/
theorem lateByteEndsAnUpdate : Obligations.LateByteEndsAnUpdate := by
  intro s b k hc ho hf ht hk hs
  obtain ⟨-, -, hn⟩ := transfer_of_config hc ho.1
  rw [← hn] at hk ⊢
  have hrun := execUpdate_late hc ho ht b hk hs
  rw [abortTransport_stalledFrame (s := transferStart s) ho.1, framebufferBytes_quiet hf,
    transferStart_quiet hf] at hrun
  exact ⟨_, _, _, hrun⟩

/-- INIT with its sequence where the bus stalls: at byte `j` of the frame of one of its entries (R58, R226). -/
theorem execInit_stallsAt {s : State} (h : s.fault = 0) {k : Nat} (hk : k < sequenceLength s.cfg)
    (hs : StallsAtByte k s) :
    ∃ pre e post j, initRom s.cfg = pre ++ e :: post ∧ j < frameLength e.params ∧ k = entryLength pre + j ∧
      execInit true s = .next ((stall (stalledFrame j (opcByte s.cfg.opc e.slot) e.params
        (afterEntries pre (startSequence s)))).settle finishInit abortInit) := by
  rcases execInit_sequence h with ⟨hi, -⟩ | ⟨pre, e, post, j, hrom, hj, hi, hl, hr⟩
  · rw [entryLength_initRom] at hi
    exact absurd (le_of_inTimeUpTo_of_lateAt hi hs.2) (Nat.not_le_of_lt hk)
  · exact ⟨pre, e, post, j, hrom, hj, stallsAtByte_unique hs ⟨hi, hl⟩, hr⟩

/-- The entries before a stalled one and what that one has sent hold as many bytes as the bus has accepted. -/
theorem countP_stalledEvents (o : Opc) (pre : List RomEntry) {e : RomEntry} {j : Nat} (hj : j < frameLength e.params) :
    (entryEvents o pre ++ eventsBefore j (opcByte o e.slot) e.params).countP Event.isTx = entryLength pre + j := by
  rw [List.countP_append, countP_entryEvents, countP_eventsBefore _ hj]

/-- Settles O44: INIT is given up at a byte of an entry's frame, with what `stalledInit_eq` says done. -/
theorem lateByteSkipsTheRestOfInit : Obligations.LateByteSkipsTheRestOfInit := by
  intro s k h0 ht hk hs
  obtain ⟨pre, e, post, j, hrom, hj, rfl, hr⟩ := execInit_stallsAt h0 hk hs
  obtain ⟨b, hprefix⟩ := entryEvents_stalled_prefix s.cfg.opc pre post hj
  obtain ⟨pc, o, x, heq⟩ := stalledInit_eq s pre j (opcByte s.cfg.opc e.slot) e.params
  have hfault : stickyFault s.fault codeTransport = 6 := stickyFault_clear h0
  rw [← hrom, entryEvents_initRom] at hprefix
  rw [heq, stall_settle_limit (by exact ht), abortInit_eq, setupTrace_eq_setupEvents, ite_pinPresent,
    ite_pinPresent, stalledDc_eq, Bus.skip_skip, hfault] at hr
  exact ⟨_, _, b, _, _, _, _, _, hr, hprefix, countP_stalledEvents s.cfg.opc pre hj⟩

/-! ## Every step that stores a fault -/

/-- `t` holds a code a request can raise, and its last event is the response with it (R220, R224). -/
def AnsweredFault (s t : State) : Prop :=
  (t.fault = 3 ∨ t.fault = 4 ∨ t.fault = 5 ∨ t.fault = 6) ∧
    ∃ es, t.trace = s.trace ++ es ++ [.resp (t.fault.setWidth 32)]

theorem answeredFault_raise {s : State} (h : s.fault = 0) {c : Byte} (hc : c = 3 ∨ c = 4 ∨ c = 5 ∨ c = 6) :
    AnsweredFault s (raise c s) := by
  have hfault : (raise c s).fault = c := stickyFault_clear h
  unfold AnsweredFault
  rw [hfault]
  exact ⟨hc, [], by rw [List.append_nil]; rfl⟩

/-- An instruction that begins with no fault stored stores none, or answers the one it stores. -/
theorem ran_fault_cases {i : Instr} {s t : State} (h : Ran i s t) (h0 : s.fault = 0) :
    t.fault = s.fault ∨ AnsweredFault s t := by
  cases h with
  | raised c hc hi h =>
    subst h
    exact Or.inr (answeredFault_raise h0 (hc.imp_right (Or.imp_right Or.inl)))
  | gaveUpInit pre post e k v pc o x n hi _ ht hp hk hl h =>
    subst h
    exact Or.inr ⟨by simp, setupTrace s.cfg v ++ entryEvents s.cfg.opc pre ++
      eventsBefore k (opcByte s.cfg.opc e.slot) e.params ++ [.cs .hi], by simp⟩
  | gaveUp op src m f r k pc o d x n hf ht hk hl h =>
    subst h
    rw [stickyFault_clear h0]
    exact Or.inr ⟨by simp, eventsBefore k op src ++ [.cs .hi], by simp⟩
  | answered w hi h | lit b hi ho h | setUp v n hi _ h | sequenced v pc o x n hi _ h
  | stuckInit pre post e k v pc o x n hi _ ht hp hk hl h | completed op src m f r o d x n hf hi h
  | transferred op src m f r x n hf hi h | stepped e k he hi h | stuck op src m f r k d x n hf ht hk hl h =>
    subst h; exact Or.inl rfl

/-- The same of a step. -/
theorem step_fault_cases {s t : State} (h : step s = .next t) (h0 : s.fault = 0) :
    t.fault = s.fault ∨ AnsweredFault s t := by
  cases step_inv h with
  | stays h => exact Or.inl (h ▸ rfl)
  | stored a b acts hb hh h | finished hb hp hr h | responded hb hp h => subst h; exact Or.inl rfl
  | requested i n hb hd he => exact ran_fault_cases (s := acceptRequest n s) (exec_ran he) h0
  | illegal hb h => subst h; exact Or.inr (answeredFault_raise (s := acceptRequest 1 s) h0 (by simp))
  | sequenced e hb hp hr he | transferred hb hp hr he => exact ran_fault_cases (exec_ran he) h0

/-- Settles O46: a stored fault is kept, so none was stored, and `step_fault_cases` says the rest. -/
theorem raisedFaultIsAnswered : Obligations.RaisedFaultIsAnswered := by
  intro s t h hne
  have h0 : s.fault = 0 := by_contra fun hs => hne ((step_extends h).fault hs)
  exact ⟨h0, (step_fault_cases h h0).resolve_left hne⟩

end Sys2Proof.Machine
end
